-- ==== Sys2Proof/Word.lean ====
section
/-! DEFINITION. The two word types of PA-CORE: a byte of sample memory (20_memory.md R60) and a 32-bit register
word (10_state.md R21). -/

namespace Sys2Proof

/-- One byte: the unit of the memory port (R60). -/
abbrev Byte := BitVec 8

/-- One register word, `REGW = 32` bits (R6, R21). -/
abbrev Word := BitVec 32

end Sys2Proof
end

