-- ==== Sys2Proof/Syntax.lean ====
section
/-! DEFINITION. The commands of PA-CORE, one constructor per row of spec/opcode_table.json (30_encoding.md R91). -/

namespace Sys2Proof

/-- A command (30_encoding.md R91). `NIN` is the only operand a command word carries (R92); every other operand
lives in a register (R90). -/
inductive Instr where
  /-- DEC: decode one sample (40_format_registry.md R140). -/
  | dec
  /-- ENC: encode one sample (40_format_registry.md R141). -/
  | enc
  /-- VOL: apply a Volume in place (43_volume_scaler.md R200). -/
  | vol
  /-- MIX: sum `nin` inputs into the destination (44_mixer.md R220). -/
  | mix (nin : Nat)
  deriving DecidableEq, Repr

end Sys2Proof
end

