-- ==== Sys2Proof/WellFormed.lean ====
section
/-! DEFINITION. Which terms of `Instr` have a command word (30_encoding.md R92). -/

namespace Sys2Proof

/-- `NIN` is the unsigned 6-bit field `w[13:8]` (R92): 0 to 63. 33 to 63 can be encoded and fault when used. -/
abbrev Instr.WellFormed : Instr → Prop
  | .dec => True
  | .enc => True
  | .vol => True
  | .mix nin => nin < 64

/-- The same check as a Bool. -/
def Instr.wellFormed : Instr → Bool
  | .dec => true
  | .enc => true
  | .vol => true
  | .mix nin => decide (nin < 64)

end Sys2Proof
end

