-- ==== Sys2Proof/Decode.lean ====
section
/-! DEFINITION. The decoder of command words, total, rejecting by name (30_encoding.md R90 to R94), and after it the
encoder written from the same table. -/

namespace Sys2Proof

/-- Why a command word is illegal (R93). All three fault with `ERR_BAD_CMD`. -/
inductive BadWord where
  /-- a bit of `w[31:14]` is set -/
  | reservedBits
  /-- `OPCODE` is 0x00 or 0x05 to 0xFF -/
  | opcode
  /-- a DEC, ENC or VOL word with a non-zero `NIN` -/
  | ninNotZero
  deriving DecidableEq, Repr

/-- `OPCODE = w[7:0]` (R90). -/
def opcodeOf (w : Word) : Nat := w.toNat % 256

/-- `NIN = w[13:8]` (R90, R92), no extension and no scaling. -/
def ninOf (w : Word) : Nat := w.toNat / 256 % 64

/-- The reserved field `w[31:14]` (R90). -/
def reservedOf (w : Word) : Nat := w.toNat / 16384

/-- A command that carries no operand: its `NIN` field must be 0 (R90, R93). -/
def plainCommand (nin : Nat) (i : Instr) : Except BadWord Instr :=
  if nin = 0 then .ok i else .error .ninNotZero

/-- The decode of a command word (R91 to R93). There is one length and no mode bit (R94). -/
def decode (w : Word) : Except BadWord Instr :=
  if reservedOf w ≠ 0 then .error .reservedBits
  else
    match opcodeOf w with
    | 1 => plainCommand (ninOf w) .dec
    | 2 => plainCommand (ninOf w) .enc
    | 3 => plainCommand (ninOf w) .vol
    | 4 => .ok (.mix (ninOf w))
    | _ => .error .opcode

/-- The command word with a given `OPCODE` and `NIN`, every other bit 0 (R90). DESIGN CHOICE (log 21): a count of 64 or
more, which no word can carry, keeps its low six bits; no well-formed command has one. -/
def commandWord (opcode nin : Nat) : Word := BitVec.ofNat 32 (opcode + 256 * (nin % 64))

/-- The command word of a well-formed command (R91). -/
def encode : Instr → Word
  | .dec => commandWord 1 0
  | .enc => commandWord 2 0
  | .vol => commandWord 3 0
  | .mix nin => commandWord 4 nin

/-- What the decoder reads from the `nbits`-bit number `w`, bit 0 least significant; a command is one 32-bit word, so
bits at and above `nbits` are 0 and a number of more than 32 bits is no command. -/
def decodeTableWord (nbits w : Nat) : Option Instr :=
  if 32 < nbits then none
  else
    match decode (BitVec.ofNat 32 (w % 2 ^ nbits)) with
    | .ok i => some i
    | .error _ => none

end Sys2Proof
end

