-- ==== Sys2Proof/Config.lean ====
section
/-! DEFINITION. The parameters of PA-CORE (00_scope.md R6) and what the spec leaves to the platform or the host
(92_eei_decisions.md, "Open parameters in one place"). -/

namespace Sys2Proof.Config

/-- `CH_MAX`: largest channel count (R6). -/
def chMax : Nat := 32

/-- `N_MAX`: largest number of mix inputs (R6). -/
def nMax : Nat := 32

/-- `VOL_MUTED`: the zero gain (R6, R180). -/
def volMuted : Word := 0x00000000#32

/-- `VOL_NORM`: the unity gain (R6, R180). -/
def volNorm : Word := 0x00010000#32

/-- `VOL_MAX`: the largest legal gain (R6, R181). -/
def volMax : Word := 0x7FFFFFFF#32

/-- `REG_WINDOW`: bytes of the register window (R6, R44). -/
def regWindow : Nat := 0x4000

/-- The number of bytes of memory, `2^XADDR` (R6, R60). -/
def memSize : Nat := 2 ^ 32

/-- What a byte of memory that nothing has written reads as. DESIGN CHOICE (log 5), unsafe: the spec gives memory no
contents of its own (R292, 93_implementation_defined.md U5). -/
def unwritten : Byte := 0x00#8

/-- The laws every instance of the host-side curve `LinToVol` must satisfy (42_volume_model.md R189) with the interval of
R190: an argument outside `[0, 1]` is outside its domain and is refused, as `none` (93_implementation_defined.md U11); on
`[0, 1]` it gives a gain, monotonically, with the two exact endpoints. The function is the host's, evaluated before it
writes a `VOL` register; no part of the machine calls it, and the spec leaves it open (log 13). DESIGN CHOICE (log 29):
the spec gives the argument as a `float` of no stated width, and the model takes every exact rational, the amplitude 0.9
being `9/10`. -/
def LinToVolLaws (curve : Rat → Option Word) : Prop :=
  (∀ l : Rat, curve l = none ↔ l < 0 ∨ 1 < l) ∧
  (∀ (a b : Rat) (g h : Word), a ≤ b → curve a = some g → curve b = some h → g.toNat ≤ h.toNat) ∧
  curve 1 = some volNorm ∧ curve 0 = some volMuted ∧
  ∃ g : Word, curve (9 / 10) = some g ∧ 0xE602 ≤ g.toNat ∧ g.toNat ≤ 0xE6DA

/-- The spec's reference instance `LinToVolRef(l) = floor(l * 65536 + 0.5)` on `[0, 1]` (R189), for test vectors only: not
a claim about the reference system. An argument outside `[0, 1]` is refused (93_implementation_defined.md U11). -/
def linToVolRef (l : Rat) : Option Word :=
  if 0 ≤ l ∧ l ≤ 1 then some (BitVec.ofInt 32 (l * 65536 + 1 / 2).floor) else none

end Sys2Proof.Config
end

