-- ==== Sys2Proof/Machine/State.lean ====
section
/-! DEFINITION. The state of PA-CORE as plain data (10_state.md), its reset value, and the reasons a step can stop. -/

namespace Sys2Proof.Machine

/-- The integer formats, tags 0 to 10 (30_encoding.md R95, 40_format_registry.md R110). -/
inductive IntFmt where
  | u8 | alaw | ulaw | s16le | s16be | s24le | s24be | s24in32le | s24in32be | s32le | s32be
  deriving DecidableEq, Repr

/-- The float formats, tags 11 and 12 (R95, R110). -/
inductive FltFmt where
  | float32le | float32be
  deriving DecidableEq, Repr

/-- SampleFormat, "a closed tag over" 13 formats (R95). -/
inductive Fmt where
  | int (f : IntFmt)
  | flt (f : FltFmt)
  deriving DecidableEq, Repr

/-- `SPEC` and `IN[i].SPEC` by their fields (R24, R31); the reserved bits hold nothing and read 0 (R21). -/
structure SpecReg where
  /-- `FORMAT = [3:0]` -/
  format : BitVec 4
  /-- `CHANNELS = [13:8]` -/
  channels : BitVec 6
  deriving DecidableEq, Repr

/-- A Chunk: "a view over raw memory" (R26, R30). -/
structure Chunk where
  base : Word
  offset : Word
  length : Word
  deriving DecidableEq, Repr

/-- The registers `IN[i].*` of one mix input (R30 to R32). -/
structure MixInput where
  chunk : Chunk
  spec : SpecReg
  rate : Word
  /-- `VLEN[5:0]` -/
  vlen : BitVec 6
  vol : Vector Word 32
  deriving DecidableEq, Repr

/-- `INTEN` by its fields (R37). -/
structure IntEnable where
  doneIe : Bool
  errIe : Bool
  deriving DecidableEq, Repr

/-- `ERRINFO` by its fields (R39). -/
structure ErrInfo where
  ch : BitVec 6
  idx : BitVec 6
  inp : Bool
  deriving DecidableEq, Repr

/-- A binary64 value as `FACC` holds one (R42): a pattern that is no NaN, or a NaN. Which NaN is never asked
(42_volume_model.md R186, 93_implementation_defined.md U13), so no payload is chosen (log 8). -/
inductive F64 where
  | nan
  | bits (d : BitVec 64)
  deriving DecidableEq, Repr

/-- Where a running command stands within one sample, `j` being the byte index of R33: reading the sample's bytes into
`got`, or writing the bytes `out`. -/
inductive Stage where
  | reading (j : Nat) (got : List Byte)
  | writing (j : Nat) (out : List Byte)
  deriving DecidableEq, Repr

/-- A command between its acceptance and its end, with the loop counters of R33 and, inside a MIX only, the
accumulators `ACC` (R41) and `FACC` (R42). -/
inductive Job where
  /-- accepted (30_encoding.md R90): decode and prechecks still to be made -/
  | accepted (w : Word)
  /-- VOL past its prechecks: format, sample index `k`, stage -/
  | vol (f : Fmt) (k : Nat) (stage : Stage)
  /-- MIX past its prechecks: format, `NIN`, sample index `k`, input index `i`, `ACC`, `FACC`, stage -/
  | mix (f : Fmt) (nin k i : Nat) (acc : BitVec 64) (facc : F64) (stage : Stage)
  deriving DecidableEq, Repr

/-- `STATE` (R40). BUSY holds the running command. -/
inductive Phase where
  | idle
  | busy (job : Job)
  | fault
  deriving DecidableEq, Repr

/-- How long a command stays busy, a parameter of the spec (93_implementation_defined.md U10; 70_reset_and_hazards.md
R297, R299). The MODEL's own (log 2). -/
inductive Pace where
  /-- a command completes within the CMD write -/
  | atOnce
  /-- a CMD write only accepts; the command then advances by at most one byte access at a time -/
  | stepwise
  deriving DecidableEq, Repr

/-- One act of the outside world on the block and its memory. -/
inductive HostAct where
  /-- the register port writes `data` at `off` (30_encoding.md R97, `WR`) -/
  | write (off : Nat) (data : Word)
  /-- the register port reads `off` (R97, `RD`) -/
  | read (off : Nat)
  /-- the host writes a byte of sample memory (20_memory.md R76) -/
  | store (addr : Word) (b : Byte)
  /-- the host reads a byte of sample memory -/
  | load (addr : Word)
  /-- the reset input is asserted and released (70_reset_and_hazards.md R290). DESIGN CHOICE (log 26): the two are one
  act, so no register access of the host falls while the input is held; what such an access does the spec leaves open. -/
  | hardReset
  /-- the block is given the time of one byte access -/
  | run
  /-- the host reads `STATUS` until BUSY is 0 (R97, `WAIT`), the block being given the time of one byte access after
  each read that shows BUSY -/
  | wait
  deriving DecidableEq, Repr

/-- Everything PA-CORE holds (R20), its memory (R43), and three fields of the model's own at the end. -/
structure State where
  /-- `SMP` (R22) -/
  smp : Word
  /-- `CANON` (R23) -/
  canon : Word
  /-- `SPEC` (R24) -/
  spec : SpecReg
  /-- `RATE` (R25) -/
  rate : Word
  /-- `DST_BASE`, `DST_OFFSET`, `DST_LENGTH` (R26) -/
  dst : Chunk
  /-- `DST_ATTR.EXCL` (R27) -/
  excl : Bool
  /-- `VOL_LEN[5:0]` (R28) -/
  volLen : BitVec 6
  /-- `VOL[0 .. 31]` (R29) -/
  vol : Vector Word 32
  /-- `IN[0 .. 31]` (R30 to R32) -/
  inputs : Vector MixInput 32
  /-- `INTEN` (R37) -/
  inten : IntEnable
  /-- `ERRCODE[3:0]` (R38) -/
  errCode : BitVec 4
  /-- `ERRINFO` (R39) -/
  errInfo : ErrInfo
  /-- `ERRCMD` (R39) -/
  errCmd : Word
  /-- `STATUS.DONE` (R34) -/
  done : Bool
  /-- `STATE` (R40), which shows as `STATUS.BUSY` and `STATUS.ERR` -/
  phase : Phase
  /-- memory `M` (R43, R60): addresses strictly rising, no byte equal to what an unlisted address reads as -/
  mem : List Host.Cell
  /-- the host's acts still to be served, first first; the model's own (log 1) -/
  pending : List HostAct
  /-- how long commands stay busy; the model's own (log 2) -/
  pace : Pace
  /-- what the last `read` or `load` was answered with; the model's own (log 3) -/
  rdata : Word
  deriving DecidableEq, Repr

/-- `SPEC` after reset (R46). -/
def SpecReg.zero : SpecReg := { format := 0, channels := 0 }

/-- A chunk register triple after reset (R46). -/
def Chunk.zero : Chunk := { base := 0, offset := 0, length := 0 }

/-- A mix input after reset: every register 0 (R46). -/
def MixInput.zero : MixInput :=
  { chunk := Chunk.zero, spec := SpecReg.zero, rate := 0, vlen := 0, vol := Vector.replicate 32 0 }

/-- `ERRINFO = 0` (R46). -/
def ErrInfo.zero : ErrInfo := { ch := 0, idx := 0, inp := false }

/-- The machine right after reset (R46, R290): every register 0, IDLE; memory with nothing listed (log 5); no host act
pending (log 1), commands complete at once (log 2), read data 0 (log 3). -/
def State.reset : State where
  smp := 0
  canon := 0
  spec := SpecReg.zero
  rate := 0
  dst := Chunk.zero
  excl := false
  volLen := 0
  vol := Vector.replicate 32 0
  inputs := Vector.replicate 32 MixInput.zero
  inten := { doneIe := false, errIe := false }
  errCode := 0
  errInfo := ErrInfo.zero
  errCmd := 0
  done := false
  phase := .idle
  mem := []
  pending := []
  pace := .atOnce
  rdata := 0

/-- The model's own stops. The contract violations of 60_exceptions.md are NOT among them: they are next states in
FAULT (R254). -/
inductive Fault where
  /-- Raised by a running command (`tick`) whose next byte access would lie at or above `2^32`, an address the spec
  says does not exist (R10, R60). SAFE: the prechecks exclude it (R65), so only a state no run reaches raises it. -/
  | noSuchAddress (addr : Nat)
  deriving DecidableEq, Repr

/-- What the model declines to give a meaning. -/
inductive Refusal where
  /-- Raised by the dispatch for an instruction that has no meaning yet. SAFE. -/
  | notModelled (mnemonic : String)
  /-- Raised by a register-port access at an offset that is no multiple of 4 or lies outside the window:
  "not an access to PA-CORE" (93_implementation_defined.md U3). SAFE. -/
  | notAPortAccess (off : Nat)
  /-- Raised when the host touches a byte of a running command's chunks during the BUSY window
  (93_implementation_defined.md U6, "refuse" in a single-agent model). SAFE. -/
  | chunkTouched (addr : Nat)
  deriving DecidableEq, Repr

end Sys2Proof.Machine
end

