-- ==== Sys2Proof/Machine/Arith.lean ====
section
/-! DEFINITION. The integer notation of 00_scope.md R8 and the byte lists of R10. -/

namespace Sys2Proof.Machine

/-- `a >> n` on a signed integer: `floor(a / 2^n)` (R8). -/
def asr (a : Int) (n : Nat) : Int := a / 2 ^ n

/-- `clamp(lo, hi, v)`: saturation (R8). -/
def clamp (lo hi v : Int) : Int := if v < lo then lo else if hi < v then hi else v

/-- `bs[j]`, the byte of a list at position `j` from 0 (R10). Every list the machine indexes is long enough. -/
def byteAt (bs : List Byte) (j : Nat) : Byte := bs.getD j 0

/-- `u[8j+7:8j]` (R7). -/
def byteOf {n : Nat} (u : BitVec n) (j : Nat) : Byte := u.extractLsb' (8 * j) 8

/-- The `w` low bytes of a word in stream order, byte 0 first (10_state.md R22). -/
def wordBytes (x : Word) (w : Nat) : List Byte := (List.range w).map (byteOf x)

/-- The word whose byte `j` is `bs[j]` and whose other bytes are 0: `sum of bs[j] << 8j` (40_format_registry.md R141). -/
def wordOfBytes : List Byte → Nat
  | [] => 0
  | b :: bs => b.toNat + 256 * wordOfBytes bs

end Sys2Proof.Machine
end

