-- ==== Sys2Proof/Machine/Float.lean ====
section
/-! DEFINITION. IEEE-754 binary32 and binary64 arithmetic, round to nearest ties to even, by exact values and one
rounding (00_scope.md R12, 42_volume_model.md R186). General knowledge of the spec (93_implementation_defined.md G2;
log 17). -/

namespace Sys2Proof.Machine

/-- What a pattern denotes: a NaN, an infinity, or `(-1)^neg * m * 2^e` (R12). A zero has `m = 0` and keeps its sign. -/
inductive FVal where
  | nan
  | inf (neg : Bool)
  | fin (neg : Bool) (m : Nat) (e : Int)
  deriving DecidableEq, Repr

/-- The parameters of a binary format: fraction bits, exponent bias, the all-ones exponent (R12). -/
structure FParams where
  frac : Nat
  bias : Nat
  expMax : Nat
  deriving DecidableEq, Repr

/-- binary32: sign [31], exponent [30:23], fraction [22:0] (R12). -/
def binary32 : FParams := { frac := 23, bias := 127, expMax := 255 }

/-- binary64: sign [63], exponent [62:52], fraction [51:0]. -/
def binary64 : FParams := { frac := 52, bias := 1023, expMax := 2047 }

/-- The value of a sign, biased exponent and fraction field. -/
def fieldsValue (p : FParams) (neg : Bool) (ex fr : Nat) : FVal :=
  if ex = p.expMax then (if fr = 0 then .inf neg else .nan)
  else if ex = 0 then .fin neg fr (1 - (p.bias : Int) - p.frac)
  else .fin neg (2 ^ p.frac + fr) ((ex : Int) - p.bias - p.frac)

/-- `f32(bits)` (R12). -/
def value32 (x : Word) : FVal := fieldsValue binary32 x.msb (x.toNat / 2 ^ 23 % 2 ^ 8) (x.toNat % 2 ^ 23)

/-- The value of a binary64 pattern. -/
def pattern64Value (d : BitVec 64) : FVal :=
  fieldsValue binary64 d.msb (d.toNat / 2 ^ 52 % 2 ^ 11) (d.toNat % 2 ^ 52)

/-- The value `FACC` holds. -/
def value64 : F64 → FVal
  | .nan => .nan
  | .bits d => pattern64Value d

/-- `isNaN32` (R12). -/
def isNaN32 (x : Word) : Bool := x.toNat / 2 ^ 23 % 2 ^ 8 = 0xFF && x.toNat % 2 ^ 23 ≠ 0

/-- `QNAN32`, the one canonical NaN (R12, R186). -/
def qnan32 : Word := 0x7FC00000#32

/-- `floor(m / 2^n)` rounded to nearest, ties to even. -/
def shiftRNE (m n : Nat) : Nat :=
  let d := m / 2 ^ n
  let r := m % 2 ^ n
  if 2 ^ n < 2 * r ∨ (2 * r = 2 ^ n ∧ d % 2 = 1) then d + 1 else d

/-- The biased exponent and fraction of `m * 2^e` rounded to nearest even: gradual underflow, and the all-ones exponent
with fraction 0 (an infinity) on overflow (R186). `q` is the exponent of the last place kept. -/
def roundFields (p : FParams) (m : Nat) (e : Int) : Nat × Nat :=
  if m = 0 then (0, 0)
  else
    let q0 : Int := max (e + (Nat.log2 m : Int) - p.frac) (1 - (p.bias : Int) - p.frac)
    let sig0 := if q0 ≤ e then m * 2 ^ (e - q0).toNat else shiftRNE m (q0 - e).toNat
    let carry := sig0 = 2 ^ (p.frac + 1)
    let sig := if carry then 2 ^ p.frac else sig0
    let q := if carry then q0 + 1 else q0
    if sig < 2 ^ p.frac then (0, sig)
    else
      let ex := (q + p.frac + p.bias).toNat
      if p.expMax ≤ ex then (p.expMax, 0) else (ex, sig - 2 ^ p.frac)

/-- A sign, biased exponent and fraction as one pattern. -/
def assemble (p : FParams) (signBit : Nat) (neg : Bool) (ef : Nat × Nat) : Nat :=
  (if neg then 2 ^ signBit else 0) + ef.1 * 2 ^ p.frac + ef.2

/-- The binary32 pattern nearest a value, RNE; every NaN is `QNAN32` (R186). -/
def round32 : FVal → Word
  | .nan => qnan32
  | .inf neg => BitVec.ofNat 32 (assemble binary32 31 neg (255, 0))
  | .fin neg m e => BitVec.ofNat 32 (assemble binary32 31 neg (roundFields binary32 m e))

/-- The binary64 value nearest a value, RNE (R186). -/
def round64 : FVal → F64
  | .nan => .nan
  | .inf neg => .bits (BitVec.ofNat 64 (assemble binary64 63 neg (2047, 0)))
  | .fin neg m e => .bits (BitVec.ofNat 64 (assemble binary64 63 neg (roundFields binary64 m e)))

/-- The exact product: a NaN operand, or an infinity times a zero, gives a NaN. -/
def mulVal : FVal → FVal → FVal
  | .nan, _ => .nan
  | _, .nan => .nan
  | .inf s, .inf t => .inf (s ^^ t)
  | .inf s, .fin t m _ => if m = 0 then .nan else .inf (s ^^ t)
  | .fin s m _, .inf t => if m = 0 then .nan else .inf (s ^^ t)
  | .fin s m e, .fin t n f => .fin (s ^^ t) (m * n) (e + f)

/-- `(-1)^neg * m * 2^(e - f)` for `f <= e`: the magnitude aligned to exponent `f`. -/
def signedAt (neg : Bool) (m : Nat) (e f : Int) : Int :=
  let a : Int := (m * 2 ^ (e - f).toNat : Nat)
  if neg then -a else a

/-- The exact sum: infinities of opposite sign give a NaN; a zero sum is +0 unless both operands are negative zeros. -/
def addVal : FVal → FVal → FVal
  | .nan, _ => .nan
  | _, .nan => .nan
  | .inf s, .inf t => if s = t then .inf s else .nan
  | .inf s, .fin _ _ _ => .inf s
  | .fin _ _ _, .inf t => .inf t
  | .fin s m e, .fin t n f =>
    let g := min e f
    let sum := signedAt s m e g + signedAt t n f g
    if sum = 0 then .fin (s && t) 0 g else .fin (decide (sum < 0)) sum.natAbs g

/-- `mul32` (R186). -/
def mul32 (a b : Word) : Word := round32 (mulVal (value32 a) (value32 b))

/-- `mul64` (R186). -/
def mul64 (a b : F64) : F64 := round64 (mulVal (value64 a) (value64 b))

/-- `add64` (R186). -/
def add64 (a b : F64) : F64 := round64 (addVal (value64 a) (value64 b))

/-- `cvt_u32_f32` (R186). -/
def cvtU32F32 (n : Word) : Word := round32 (.fin false n.toNat 0)

/-- `cvt_f32_f64`, always exact (R186). -/
def cvtF32F64 (a : Word) : F64 := round64 (value32 a)

/-- `cvt_f64_f32`, overflowing to an infinity (R186). -/
def cvtF64F32 (d : F64) : Word := round32 (value64 d)

/-- A value times `2^n`, exact. -/
def scaleVal (n : Int) : FVal → FVal
  | .fin s m e => .fin s m (e + n)
  | v => v

/-- `m * 2^e <= n * 2^f`. -/
def magLe (m : Nat) (e : Int) (n : Nat) (f : Int) : Bool :=
  if f ≤ e then m * 2 ^ (e - f).toNat ≤ n else m ≤ n * 2 ^ (f - e).toNat

/-- `FLT_MAX = (2 - 2^-23) * 2^127 = (2^24 - 1) * 2^104` with a sign (R12). -/
def fltMax (neg : Bool) : FVal := .fin neg (2 ^ 24 - 1) 104

/-- `clamp64(d, -FLT_MAX, +FLT_MAX)` on a value that is no NaN, the infinities lying outside (44_mixer.md R227). -/
def clampVal : FVal → FVal
  | .nan => .nan
  | .inf s => fltMax s
  | .fin s m e => if magLe m e (2 ^ 24 - 1) 104 then .fin s m e else fltMax s

end Sys2Proof.Machine
end

