-- ==== Sys2Proof/Machine/Companding.lean ====
section
/-! DEFINITION. A-law and µ-law companding (41_g711_companding.md). The whole of this file is the spec's general
knowledge of ITU-T G.711 (93_implementation_defined.md G1; log 16). -/

namespace Sys2Proof.Machine

/-- `BIAS = 0x84` (R160). -/
def bias : Nat := 0x84

/-- `UCLIP = 8159` (R160). -/
def uclip : Nat := 8159

/-- `SEG_U` (R160). -/
def segU : List Nat := [0x3F, 0x7F, 0xFF, 0x1FF, 0x3FF, 0x7FF, 0xFFF, 0x1FFF]

/-- `SEG_A` (R160). -/
def segA : List Nat := [0x1F, 0x3F, 0x7F, 0xFF, 0x1FF, 0x3FF, 0x7FF, 0xFFF]

/-- `search(p, T)`: the least index `s` with `p <= T[s]`, or the table's length 8 when there is none (R160). -/
def search (p : Nat) : List Nat → Nat
  | [] => 0
  | t :: ts => if p ≤ t then 0 else search p ts + 1

/-- `dec_ULAW` (R161). -/
def decUlaw (c : Byte) : Int :=
  let u := (c ^^^ 0xFF#8).toNat
  let t : Int := ((u % 16 * 8 + bias) * 2 ^ (u / 16 % 8) : Nat)
  if u / 128 = 1 then (bias : Int) - t else t - (bias : Int)

/-- `enc_ULAW` (R162). -/
def encUlaw (v : Int) : Byte :=
  let p0 := asr v 2
  let mask : Byte := if p0 < 0 then 0x7F#8 else 0xFF#8
  let p1 := if p0 < 0 then (-p0).toNat else p0.toNat
  let p2 := if uclip < p1 then uclip else p1
  let p := p2 + bias / 4
  let s := search p segU
  if 8 ≤ s then 0x7F#8 ^^^ mask
  else BitVec.ofNat 8 (16 * s + p / 2 ^ (s + 1) % 16) ^^^ mask

/-- `dec_ALAW` (R163). -/
def decAlaw (c : Byte) : Int :=
  let a := (c ^^^ 0x55#8).toNat
  let t0 := a % 16 * 16
  let s := a / 16 % 8
  let t : Nat := if s = 0 then t0 + 8 else if s = 1 then t0 + 0x108 else (t0 + 0x108) * 2 ^ (s - 1)
  if a / 128 = 1 then (t : Int) else -(t : Int)

/-- `enc_ALAW` (R164). -/
def encAlaw (v : Int) : Byte :=
  let p0 := asr v 3
  let mask : Byte := if 0 ≤ p0 then 0xD5#8 else 0x55#8
  let p := if 0 ≤ p0 then p0.toNat else (-p0 - 1).toNat
  let s := search p segA
  if 8 ≤ s then 0x7F#8 ^^^ mask
  else
    let a := 16 * s + (if s < 2 then p / 2 % 16 else p / 2 ^ s % 16)
    BitVec.ofNat 8 a ^^^ mask

end Sys2Proof.Machine
end

