-- ==== Sys2Proof/Machine/Formats.lean ====
section
/-! DEFINITION. The Format Registry (40_format_registry.md): the format table, one decode and one encode per format,
saturation and the zero code. -/

namespace Sys2Proof.Machine

/-- The tag of a format (30_encoding.md R95). Tags 13 to 15 are no format. -/
def fmtOfTag (tag : BitVec 4) : Option Fmt :=
  match tag.toNat with
  | 0 => some (.int .u8)
  | 1 => some (.int .alaw)
  | 2 => some (.int .ulaw)
  | 3 => some (.int .s16le)
  | 4 => some (.int .s16be)
  | 5 => some (.int .s24le)
  | 6 => some (.int .s24be)
  | 7 => some (.int .s24in32le)
  | 8 => some (.int .s24in32be)
  | 9 => some (.int .s32le)
  | 10 => some (.int .s32be)
  | 11 => some (.flt .float32le)
  | 12 => some (.flt .float32be)
  | _ => none

/-- `W(f)` of an integer format (R110). -/
def intWidth : IntFmt → Nat
  | .u8 | .alaw | .ulaw => 1
  | .s16le | .s16be => 2
  | .s24le | .s24be => 3
  | .s24in32le | .s24in32be | .s32le | .s32be => 4

/-- `W(f)`: bytes per sample (R110). -/
def fmtWidth : Fmt → Nat
  | .int f => intWidth f
  | .flt _ => 4

/-- `NB(f)`: native bit width of an integer format (R110). -/
def nativeBits : IntFmt → Nat
  | .u8 | .alaw | .ulaw | .s16le | .s16be => 16
  | .s24le | .s24be | .s24in32le | .s24in32be => 24
  | .s32le | .s32be => 32

/-- `LO(f) = -2^(NB-1)` (R110). -/
def intLo (f : IntFmt) : Int := -2 ^ (nativeBits f - 1)

/-- `HI(f) = 2^(NB-1) - 1` (R110). -/
def intHi (f : IntFmt) : Int := 2 ^ (nativeBits f - 1) - 1

/-- `FS(f, C) = W(f) * C` (R111). -/
def frameSize (f : Fmt) (c : Nat) : Nat := fmtWidth f * c

/-- `dec_f` of an integer format, from the bytes in address order (R113, R115, R117, R119, R121, R123, R125, R127,
R129, R161, R163). -/
def decInt (f : IntFmt) (bs : List Byte) : Int :=
  match f with
  | .u8 => ((byteAt bs 0).toNat - 128) * 256
  | .alaw => decAlaw (byteAt bs 0)
  | .ulaw => decUlaw (byteAt bs 0)
  | .s16le => (byteAt bs 1 ++ byteAt bs 0).toInt
  | .s16be => (byteAt bs 0 ++ byteAt bs 1).toInt
  | .s24le => (byteAt bs 2 ++ byteAt bs 1 ++ byteAt bs 0).toInt
  | .s24be => (byteAt bs 0 ++ byteAt bs 1 ++ byteAt bs 2).toInt
  | .s24in32le => (byteAt bs 2 ++ byteAt bs 1 ++ byteAt bs 0).toInt
  | .s24in32be => (byteAt bs 1 ++ byteAt bs 2 ++ byteAt bs 3).toInt
  | .s32le => (byteAt bs 3 ++ byteAt bs 2 ++ byteAt bs 1 ++ byteAt bs 0).toInt
  | .s32be => (byteAt bs 0 ++ byteAt bs 1 ++ byteAt bs 2 ++ byteAt bs 3).toInt

/-- `enc_f` of an integer format (R114, R116, R118, R120, R122, R124, R126, R128, R130, R162, R164), for a value in
`[LO(f), HI(f)]`. -/
def encInt (f : IntFmt) (v : Int) : List Byte :=
  let u16 := BitVec.ofInt 16 v
  let u24 := BitVec.ofInt 24 v
  let u32 := BitVec.ofInt 32 v
  match f with
  | .u8 => [BitVec.ofInt 8 (asr v 8 + 128)]
  | .alaw => [encAlaw v]
  | .ulaw => [encUlaw v]
  | .s16le => [byteOf u16 0, byteOf u16 1]
  | .s16be => [byteOf u16 1, byteOf u16 0]
  | .s24le => [byteOf u24 0, byteOf u24 1, byteOf u24 2]
  | .s24be => [byteOf u24 2, byteOf u24 1, byteOf u24 0]
  | .s24in32le => [byteOf u32 0, byteOf u32 1, byteOf u32 2, byteOf u32 3]
  | .s24in32be => [byteOf u32 3, byteOf u32 2, byteOf u32 1, byteOf u32 0]
  | .s32le => [byteOf u32 0, byteOf u32 1, byteOf u32 2, byteOf u32 3]
  | .s32be => [byteOf u32 3, byteOf u32 2, byteOf u32 1, byteOf u32 0]

/-- `dec_f` of a float format: the pattern, no bit changed (R131, R133). -/
def decFlt (f : FltFmt) (bs : List Byte) : Word :=
  match f with
  | .float32le => byteAt bs 3 ++ byteAt bs 2 ++ byteAt bs 1 ++ byteAt bs 0
  | .float32be => byteAt bs 0 ++ byteAt bs 1 ++ byteAt bs 2 ++ byteAt bs 3

/-- `enc_f` of a float format: no saturation, no clipping (R132, R134, R138). -/
def encFlt (f : FltFmt) (u : Word) : List Byte :=
  match f with
  | .float32le => [byteOf u 0, byteOf u 1, byteOf u 2, byteOf u 3]
  | .float32be => [byteOf u 3, byteOf u 2, byteOf u 1, byteOf u 0]

/-- `sat_f` (R135). -/
def satInt (f : IntFmt) (v : Int) : Int := clamp (intLo f) (intHi f) v

/-- `encs_f = enc_f ∘ sat_f`: every path that encodes an integer (R112, R135). -/
def encSat (f : IntFmt) (v : Int) : List Byte := encInt f (satInt f v)

/-- `ZERO(f)`: `enc_f(0)`, or `enc_f(+0.0)` (R136). -/
def zeroCode : Fmt → List Byte
  | .int f => encInt f 0
  | .flt f => encFlt f 0

end Sys2Proof.Machine
end

