-- ==== Sys2Proof/Machine/Gain.lean ====
section
/-! DEFINITION. The gain arithmetic of the Volume Model (42_volume_model.md) and the accumulator steps of the Mixer
(44_mixer.md R223 to R227). -/

namespace Sys2Proof.Machine

/-- `imul(s, g) = (s * g + 0x8000) >> 16`: the exact product, nearest, ties toward plus infinity (R183). -/
def imul (s : Int) (g : Word) : Int := asr (s * (g.toNat : Int) + 0x8000) 16

/-- `gain_f32(g) = cvt_u32_f32(g) * 2^-16`, the scaling exact (R184). -/
def gainF32 (g : Word) : Word := round32 (scaleVal (-16) (value32 (cvtU32F32 g)))

/-- `fscale32(x, g)` (R185). -/
def fscale32 (x g : Word) : Word := if isNaN32 x then qnan32 else mul32 x (gainF32 g)

/-- `gain_f64(g) = g / 2^16`, exact in binary64 (R191). -/
def gainF64 (g : Word) : F64 := round64 (.fin false g.toNat (-16))

/-- `fcontrib64(x, g)` (R191). -/
def fcontrib64 (x g : Word) : F64 := mul64 (cvtF32F64 x) (gainF64 g)

/-- `sadd64`: the saturating add of the 64-bit accumulator (R224, 10_state.md R41). -/
def sadd64 (a : BitVec 64) (b : Int) : BitVec 64 :=
  BitVec.ofInt 64 (clamp (-2 ^ 63) (2 ^ 63 - 1) (a.toInt + b))

/-- `fsat32(d)`: a NaN becomes `QNAN32`, everything else is clamped to `±FLT_MAX` and converted once (R227). -/
def fsat32 (d : F64) : Word := round32 (clampVal (value64 d))

/-- The scaled sample of VOL under a gain that is neither NORM nor MUTED (43_volume_scaler.md R202). -/
def scaleSample (f : Fmt) (g : Word) (bs : List Byte) : List Byte :=
  match f with
  | .int f => encSat f (imul (decInt f bs) g)
  | .flt f => encFlt f (fscale32 (decFlt f bs) g)

/-- `ACC` and `FACC` (10_state.md R41, R42): a MIX on an integer format uses the first, one on a float format the
second. -/
structure Accs where
  acc : BitVec 64
  facc : F64
  deriving DecidableEq, Repr

/-- Both accumulators at the start of an output sample: 0 and `+0.0` (R41, R42). -/
def accsZero : Accs := { acc := 0, facc := .bits 0 }

/-- One contribution: `ACC <- sadd64(ACC, imul(dec_f(bs), g))` or `FACC <- add64(FACC, fcontrib64(dec_f(bs), g))`
(R223, R224, R226). -/
def accumulate (f : Fmt) (g : Word) (bs : List Byte) (a : Accs) : Accs :=
  match f with
  | .int f => { a with acc := sadd64 a.acc (imul (decInt f bs) g) }
  | .flt f => { a with facc := add64 a.facc (fcontrib64 (decFlt f bs) g) }

/-- The output sample: `enc_f(sat_f(ACC))` or `enc_f(fsat32(FACC))` (R225, R227). -/
def mixOut (f : Fmt) (a : Accs) : List Byte :=
  match f with
  | .int f => encSat f a.acc.toInt
  | .flt f => encFlt f (fsat32 a.facc)

end Sys2Proof.Machine
end

