-- ==== Sys2Proof/Machine/Ops.lean ====
section
/-! DEFINITION. The named operations over memory and registers, fault entry (60_exceptions.md R254) and the one way out
of FAULT, reset (60_exceptions.md R257, 70_reset_and_hazards.md R290, R291). -/

namespace Sys2Proof.Machine

/-! ### Memory (00_scope.md R10, 20_memory.md R60) -/

/-- `M[a]`. -/
def readByte : List Host.Cell → Nat → Byte
  | [], _ => Config.unwritten
  | (k, v) :: r, a => if k = a then v else readByte r a

/-- `M[a] <- b`, keeping the canonical form: storing what an unlisted address reads as removes the entry. -/
def writeByte : List Host.Cell → Nat → Byte → List Host.Cell
  | [], a, b => if b = Config.unwritten then [] else [(a, b)]
  | (k, v) :: r, a, b =>
    if a < k then (if b = Config.unwritten then (k, v) :: r else (a, b) :: (k, v) :: r)
    else if a = k then (if b = Config.unwritten then r else (a, b) :: r)
    else (k, v) :: writeByte r a b

/-- `MemRead(addr, n)`: the `n` bytes in ascending address order (R10). -/
def memRead (m : List Host.Cell) (a n : Nat) : List Byte := (List.range n).map (fun j => readByte m (a + j))

/-- `MemWrite(addr, n, bs)`: byte `bs[j]` to `M[addr + j]`, ascending (R10). -/
def memWrite (m : List Host.Cell) (a : Nat) : List Byte → List Host.Cell
  | [] => m
  | b :: bs => memWrite (writeByte m a b) (a + 1) bs

/-- Every listed address lies above `lo`, rises strictly, lies below `2^32`, and no listed byte is what an unlisted
address reads as. -/
def memWfFrom : Nat → List Host.Cell → Bool
  | _, [] => true
  | lo, (k, v) :: r => decide (lo ≤ k) && decide (k < Config.memSize) && decide (v ≠ Config.unwritten) && memWfFrom (k + 1) r

/-- The canonical form of memory: equal memories are equal lists. -/
def memWf (m : List Host.Cell) : Bool := memWfFrom 0 m

/-! ### Registers read by index (10_state.md R29, R30 to R32) -/

/-- `VOL[c]` of a Volume vector. The commands read `c < 32` only. -/
def gainAt (v : Vector Word 32) (c : Nat) : Word := if h : c < 32 then v[c] else 0

/-- `IN[i]`. The commands read `i < 32` only. -/
def inputAt (ins : Vector MixInput 32) (i : Nat) : MixInput := if h : i < 32 then ins[i] else MixInput.zero

/-! ### Contract violations (60_exceptions.md R250 to R252) -/

/-- The fault causes (R251). -/
inductive ErrCode where
  | badCmd | badFormat | badSpec | badLength | volLen | specMismatch | badVolume | notExcl | badCount | addrWrap
  deriving DecidableEq, Repr

/-- The code `ERRCODE` takes (R251). -/
def errNum : ErrCode → BitVec 4
  | .badCmd => 1
  | .badFormat => 2
  | .badSpec => 3
  | .badLength => 4
  | .volLen => 5
  | .specMismatch => 6
  | .badVolume => 7
  | .notExcl => 8
  | .badCount => 9
  | .addrWrap => 10

/-- `raise ERR_X(info)` before it happens: the cause and what `ERRINFO` takes (R252). -/
structure Violation where
  code : ErrCode
  info : ErrInfo
  deriving DecidableEq, Repr

/-- `ERR_X(0)` (R252). -/
def plainErr (c : ErrCode) : Violation := { code := c, info := ErrInfo.zero }

/-- `ERR_BAD_VOLUME(CH = c)` (R252). -/
def volumeErr (c : Nat) : Violation :=
  { code := .badVolume, info := { ch := BitVec.ofNat 6 c, idx := 0, inp := false } }

/-- `ERR_X(INP = 1, IDX = i)` (R252). -/
def inputErr (c : ErrCode) (i : Nat) : Violation :=
  { code := c, info := { ch := 0, idx := BitVec.ofNat 6 i, inp := true } }

/-- `ERR_BAD_VOLUME(INP = 1, IDX = i, CH = c)` (R252). -/
def inputVolumeErr (i c : Nat) : Violation :=
  { code := .badVolume, info := { ch := BitVec.ofNat 6 c, idx := BitVec.ofNat 6 i, inp := true } }

/-- Fault entry (R254): the code, the detail and the command word are recorded, BUSY falls, ERR rises, DONE stays
cleared as acceptance left it, and the block is in FAULT. Nothing else changes (R255). -/
def raise (w : Word) (v : Violation) (s : State) : State :=
  { s with errCode := errNum v.code, errInfo := v.info, errCmd := w, done := false, phase := .fault }

/-! ### Reset -/

/-- What both resets do to the block: every register 0, IDLE, a running command abandoned; memory untouched (R290 to
R292, 10_state.md R46). What stands outside the block (the host's further acts, the pace, the host's last read data)
stays. -/
def resetBlock (s : State) : State :=
  { State.reset with mem := s.mem, pending := s.pending, pace := s.pace, rdata := s.rdata }

/-- The hardware reset (R290). -/
def hardReset (s : State) : State := resetBlock s

/-- The soft reset, `CTRL.SRST` (R291): "exactly the effect of the hardware reset", and the one way out of FAULT short
of it (R257). -/
def softReset (s : State) : State := resetBlock s

end Sys2Proof.Machine
end

