-- ==== Sys2Proof/Machine/Operands.lean ====
section
/-! DEFINITION. The operand forms: the fields of SPEC (30_encoding.md R96), chunks and sample addresses
(20_memory.md R65, R66), and the conditions the prechecks test (60_exceptions.md R251). -/

namespace Sys2Proof.Machine

/-- `C = SPEC.CHANNELS` (R24). -/
def channelsOf (sp : SpecReg) : Nat := sp.channels.toNat

/-- The format of `SPEC.FORMAT`, if the tag is one (R95). -/
def formatOf (sp : SpecReg) : Option Fmt := fmtOfTag sp.format

/-- `EA = BASE + OFFSET`, a mathematical sum (R65). -/
def chunkEA (c : Chunk) : Nat := c.base.toNat + c.offset.toNat

/-- The address of sample `k` of a chunk, `EA + k*W` (R66). -/
def sampleAddr (f : Fmt) (c : Chunk) (k : Nat) : Nat := chunkEA c + k * fmtWidth f

/-- The number of samples of a chunk, `LENGTH / W` (R66). -/
def sampleCount (f : Fmt) (c : Chunk) : Nat := c.length.toNat / fmtWidth f

/-- Is `a` a byte of the chunk (R65)? -/
def inChunk (c : Chunk) (a : Nat) : Bool := chunkEA c ≤ a && a < chunkEA c + c.length.toNat

/-- `ERR_BAD_SPEC`: the channel count is 0 or above `CH_MAX` (R251). -/
def badChannels (sp : SpecReg) : Bool := channelsOf sp = 0 || Config.chMax < channelsOf sp

/-- `ERR_BAD_LENGTH`: the length is no multiple of the frame size (R251). -/
def badLength (f : Fmt) (ch : Nat) (c : Chunk) : Bool := c.length.toNat % frameSize f ch ≠ 0

/-- `ERR_ADDR_WRAP`: `BASE + OFFSET + LENGTH > 2^32` (R65, R251). -/
def addrWraps (c : Chunk) : Bool := Config.memSize < chunkEA c + c.length.toNat

/-- `ERR_BAD_VOLUME`: the lowest channel `c < C` whose gain is above `VOL_MAX` (R181, R251). -/
def badGain (v : Vector Word 32) (ch : Nat) : Option Nat :=
  (List.range ch).find? (fun c => Config.volMax.toNat < (gainAt v c).toNat)

end Sys2Proof.Machine
end

