-- ==== Sys2Proof/Machine/Flags.lean ====
section
/-! DEFINITION. STATUS (10_state.md R34, R40): what accepting, completing and faulting do to it, and the interrupt
output it drives (60_exceptions.md R260). There are no arithmetic flags (R34). -/

namespace Sys2Proof.Machine

/-- `STATUS.BUSY` (R34, R40). -/
def statusBusy (s : State) : Bool :=
  match s.phase with
  | .busy _ => true
  | _ => false

/-- `STATUS.ERR` (R34, R40). -/
def statusErr (s : State) : Bool :=
  match s.phase with
  | .fault => true
  | _ => false

/-- The interrupt output `IRQ` (R260). -/
def irq (s : State) : Bool := (s.done && s.inten.doneIe) || (statusErr s && s.inten.errIe)

/-- Acceptance of a command word: `BUSY <- 1`, `DONE <- 0` (30_encoding.md R90). -/
def accept (w : Word) (s : State) : State := { s with done := false, phase := .busy (.accepted w) }

/-- Completion of a command: `BUSY <- 0`, `DONE <- 1` (R34, R90). -/
def complete (s : State) : State := { s with done := true, phase := .idle }

/-- Issue of a command, from its acceptance to its end: `body` makes the prechecks and gives the state with the
command's effect, or the first violation (R90, R254). Outside IDLE the CMD write is discarded without any effect
(R35). -/
def issue (w : Word) (body : State → Except Violation State) (s : State) : State :=
  match s.phase with
  | .idle =>
    match body s with
    | .ok t => complete t
    | .error v => raise w v s
  | _ => s

end Sys2Proof.Machine
end

