-- ==== Sys2Proof/Machine/Codec.lean ====
section
/-! DEFINITION. The commands DEC and ENC (40_format_registry.md R140, R141). -/

namespace Sys2Proof.Machine

/-- What DEC leaves in `CANON`: `u_32(dec_f(bs))`, or the binary32 pattern (R140, 10_state.md R23). -/
def decodedCanon (f : Fmt) (smp : Word) : Word :=
  match f with
  | .int f => BitVec.ofInt 32 (decInt f (wordBytes smp (intWidth f)))
  | .flt f => decFlt f (wordBytes smp 4)

/-- What ENC leaves in `SMP`: the encoded bytes, the bytes above `W(f)-1` being 0 (R141). -/
def encodedSmp (f : Fmt) (canon : Word) : Word :=
  match f with
  | .int f => BitVec.ofNat 32 (wordOfBytes (encSat f canon.toInt))
  | .flt f => BitVec.ofNat 32 (wordOfBytes (encFlt f canon))

/-- DEC past its acceptance (R140): the format tag is its one check. -/
def decBody (s : State) : Except Violation State :=
  match formatOf s.spec with
  | none => .error (plainErr .badFormat)
  | some f => .ok { s with canon := decodedCanon f s.smp }

/-- ENC past its acceptance (R141). -/
def encBody (s : State) : Except Violation State :=
  match formatOf s.spec with
  | none => .error (plainErr .badFormat)
  | some f => .ok { s with smp := encodedSmp f s.canon }

/-- DEC (R140). -/
def execDec (s : State) : Host.Outcome State Fault Refusal := .next (issue (encode .dec) decBody s)

/-- ENC (R141). -/
def execEnc (s : State) : Host.Outcome State Fault Refusal := .next (issue (encode .enc) encBody s)

end Sys2Proof.Machine
end

