-- ==== Sys2Proof/Machine/Mixer.lean ====
section
/-! DEFINITION. The command MIX (44_mixer.md). -/

namespace Sys2Proof.Machine

/-- Checks 7a to 7e of input `i` in their order; `none` when all pass (R221). -/
def inputCheck (f : Fmt) (s : State) (i : Nat) : Option Violation :=
  let x := inputAt s.inputs i
  if x.spec ≠ s.spec ∨ x.rate ≠ s.rate then some (inputErr .specMismatch i)
  else if x.vlen.toNat ≠ channelsOf s.spec then some (inputErr .volLen i)
  else
    match badGain x.vol (channelsOf s.spec) with
    | some c => some (inputVolumeErr i c)
    | none =>
      if badLength f (channelsOf s.spec) x.chunk then some (inputErr .badLength i)
      else if addrWraps x.chunk then some (inputErr .addrWrap i)
      else none

/-- The checks of all inputs, those of input `i` before any of input `i+1` (R221). -/
def inputsCheck (f : Fmt) (s : State) (nin : Nat) : Option Violation := (List.range nin).findSome? (inputCheck f s)

/-- The prechecks of MIX in their order, giving the format when all pass (R221, 60_exceptions.md R253). -/
def mixCheck (nin : Nat) (s : State) : Except Violation Fmt :=
  if Config.nMax < nin then .error (plainErr .badCount)
  else
    match formatOf s.spec with
    | none => .error (plainErr .badFormat)
    | some f =>
      if badChannels s.spec then .error (plainErr .badSpec)
      else if badLength f (channelsOf s.spec) s.dst then .error (plainErr .badLength)
      else if addrWraps s.dst then .error (plainErr .addrWrap)
      else if !s.excl then .error (plainErr .notExcl)
      else
        match inputsCheck f s nin with
        | some v => .error v
        | none => .ok f

/-- `contributes(i, k)`: the input still has bytes at sample `k` (R228). -/
def contributes (f : Fmt) (x : MixInput) (k : Nat) : Bool := k * fmtWidth f + fmtWidth f ≤ x.chunk.length.toNat

/-- The gain of input `i` at sample `k`: `IN[i].VOL[k mod C]` (R220). -/
def mixGain (s : State) (i k : Nat) : Word := gainAt (inputAt s.inputs i).vol (k % channelsOf s.spec)

/-- Is input `i` read at sample `k`: it contributes and its gain is not MUTED (R220)? -/
def mixReads (f : Fmt) (s : State) (i k : Nat) : Bool :=
  contributes f (inputAt s.inputs i) k && mixGain s i k ≠ Config.volMuted

/-- The accumulators of output sample `k` after inputs `0 .. n-1`, in ascending index, over memory `m` (R220, R223,
R226, R229). -/
def mixAccs (f : Fmt) (s : State) (m : List Host.Cell) (k : Nat) : Nat → Accs
  | 0 => accsZero
  | i + 1 =>
    if mixReads f s i k then
      accumulate f (mixGain s i k) (memRead m (sampleAddr f (inputAt s.inputs i).chunk k) (fmtWidth f)) (mixAccs f s m k i)
    else mixAccs f s m k i

/-- Output sample `k` on memory: the inputs are read and summed, then the sample is written (R220, 20_memory.md R71). -/
def mixSample (f : Fmt) (nin : Nat) (s : State) (k : Nat) (m : List Host.Cell) : List Host.Cell :=
  memWrite m (sampleAddr f s.dst k) (mixOut f (mixAccs f s m k nin))

/-- Memory after the first `n` output samples, in ascending sample index (R220, R229). -/
def mixMem (f : Fmt) (nin : Nat) (s : State) : Nat → List Host.Cell
  | 0 => s.mem
  | k + 1 => mixSample f nin s k (mixMem f nin s k)

/-- MIX past its acceptance (R220). -/
def mixBody (nin : Nat) (s : State) : Except Violation State :=
  match mixCheck nin s with
  | .error v => .error v
  | .ok f => .ok { s with mem := mixMem f nin s (sampleCount f s.dst) }

/-- MIX (R220). -/
def execMix (nin : Nat) (s : State) : Host.Outcome State Fault Refusal :=
  .next (issue (encode (.mix nin)) (mixBody nin) s)

end Sys2Proof.Machine
end

