-- ==== Sys2Proof/Machine/Scaler.lean ====
section
/-! DEFINITION. The command VOL (43_volume_scaler.md). -/

namespace Sys2Proof.Machine

/-- The prechecks of VOL in their order, giving the format when all pass (R201, 60_exceptions.md R253). -/
def volCheck (s : State) : Except Violation Fmt :=
  match formatOf s.spec with
  | none => .error (plainErr .badFormat)
  | some f =>
    if badChannels s.spec then .error (plainErr .badSpec)
    else if s.volLen.toNat ≠ channelsOf s.spec then .error (plainErr .volLen)
    else
      match badGain s.vol (channelsOf s.spec) with
      | some c => .error (volumeErr c)
      | none =>
        if badLength f (channelsOf s.spec) s.dst then .error (plainErr .badLength)
        else if addrWraps s.dst then .error (plainErr .addrWrap)
        else if !s.excl then .error (plainErr .notExcl)
        else .ok f

/-- The gain of sample `k`: `VOL[k mod C]` (R203). -/
def volGain (s : State) (k : Nat) : Word := gainAt s.vol (k % channelsOf s.spec)

/-- `vol_sample(f, a, g)` on memory (R202): NORM touches nothing, MUTED writes the zero code without reading, any other
gain reads, scales and writes. -/
def volSample (f : Fmt) (a : Nat) (g : Word) (m : List Host.Cell) : List Host.Cell :=
  if g = Config.volNorm then m
  else if g = Config.volMuted then memWrite m a (zeroCode f)
  else memWrite m a (scaleSample f g (memRead m a (fmtWidth f)))

/-- Memory after the first `n` samples, in ascending sample index (R200, R203, 20_memory.md R70). -/
def volMem (f : Fmt) (s : State) : Nat → List Host.Cell
  | 0 => s.mem
  | k + 1 => volSample f (sampleAddr f s.dst k) (volGain s k) (volMem f s k)

/-- VOL past its acceptance (R200). -/
def volBody (s : State) : Except Violation State :=
  match volCheck s with
  | .error v => .error v
  | .ok f => .ok { s with mem := volMem f s (sampleCount f s.dst) }

/-- VOL (R200). -/
def execVol (s : State) : Host.Outcome State Fault Refusal := .next (issue (encode .vol) volBody s)

end Sys2Proof.Machine
end

