-- ==== Sys2Proof/Machine/Dispatch.lean ====
section
/-! DEFINITION. One arm per command. -/

namespace Sys2Proof.Machine

def exec (i : Instr) (s : State) : Host.Outcome State Fault Refusal :=
  match i with
  | .dec => Sys2Proof.Machine.execDec s
  | .enc => Sys2Proof.Machine.execEnc s
  | .vol => Sys2Proof.Machine.execVol s
  | .mix nin => Sys2Proof.Machine.execMix nin s

end Sys2Proof.Machine
end

