-- ==== Sys2Proof/Machine/Port.lean ====
section
/-! DEFINITION. The register port: the window of 10_state.md R44, reads, and writes in every STATE (R21, R34 to R39;
60_exceptions.md R256; 70_reset_and_hazards.md R291, R296). A write to CMD is in Busy.lean, which issues commands. -/

namespace Sys2Proof.Machine

/-- A register of an input bank `IN[i]` (R44). -/
inductive BankReg where
  | base | offset | length | spec | rate | vlen
  | vol (c : Nat)
  deriving DecidableEq, Repr

/-- What stands at an offset of the window (R44). -/
inductive PortReg where
  | cmd | status | ctrl | inten | errCode | errInfo | smp | canon | spec | rate | dstBase | dstOffset | dstLength
  | dstAttr | volLen | errCmd
  | vol (c : Nat)
  | input (i : Nat) (r : BankReg)
  | reserved
  deriving DecidableEq, Repr

/-- The register at offset `0x1000 + 0x100*i + off` of bank `i` (R44). -/
def bankRegAt (off : Nat) : Option BankReg :=
  match off with
  | 0x00 => some .base
  | 0x04 => some .offset
  | 0x08 => some .length
  | 0x0C => some .spec
  | 0x10 => some .rate
  | 0x14 => some .vlen
  | _ => if 0x80 ≤ off then some (.vol ((off - 0x80) / 4)) else none

/-- The register at an offset below `0x80` of the global page (R44). -/
def globalRegAt (off : Nat) : PortReg :=
  match off with
  | 0x00 => .cmd
  | 0x04 => .status
  | 0x08 => .ctrl
  | 0x0C => .inten
  | 0x10 => .errCode
  | 0x14 => .errInfo
  | 0x18 => .smp
  | 0x1C => .canon
  | 0x20 => .spec
  | 0x24 => .rate
  | 0x28 => .dstBase
  | 0x2C => .dstOffset
  | 0x30 => .dstLength
  | 0x34 => .dstAttr
  | 0x38 => .volLen
  | 0x3C => .errCmd
  | _ => .reserved

/-- The register map (R44). `none`: no access to PA-CORE (20_memory.md R62, 93_implementation_defined.md U3). -/
def regAt (off : Nat) : Option PortReg :=
  if off % 4 ≠ 0 ∨ Config.regWindow ≤ off then none
  else if off < 0x80 then some (globalRegAt off)
  else if off < 0x100 then some (.vol ((off - 0x80) / 4))
  else if off < 0x1000 then some .reserved
  else if off < 0x3000 then
    match bankRegAt (off % 0x100) with
    | some r => some (.input ((off - 0x1000) / 0x100) r)
    | none => some .reserved
  else some .reserved

/-! ### Words of the registers with fields: the bits outside a field read 0 (R21) -/

/-- One bit as a number. -/
def bit (b : Bool) : Nat := if b then 1 else 0

/-- `STATUS` (R34). -/
def statusWord (s : State) : Word :=
  BitVec.ofNat 32 (bit (statusBusy s) + 2 * bit s.done + 4 * bit (statusErr s))

/-- `SPEC`, `IN[i].SPEC` (R24, R31). -/
def specWord (sp : SpecReg) : Word := BitVec.ofNat 32 (sp.format.toNat + 256 * sp.channels.toNat)

/-- `INTEN` (R37). -/
def intenWord (e : IntEnable) : Word := BitVec.ofNat 32 (bit e.doneIe + 2 * bit e.errIe)

/-- `ERRINFO` (R39). -/
def errInfoWord (e : ErrInfo) : Word := BitVec.ofNat 32 (e.ch.toNat + 256 * e.idx.toNat + 65536 * bit e.inp)

/-- The fields of a word written to `SPEC` or `IN[i].SPEC` (R24, R31). -/
def specOfWord (w : Word) : SpecReg := { format := w.extractLsb' 0 4, channels := w.extractLsb' 8 6 }

/-- The fields of a word written to `INTEN` (R37). -/
def intenOfWord (w : Word) : IntEnable := { doneIe := w.getLsbD 0, errIe := w.getLsbD 1 }

/-! ### Reads (R44, R21): every register, in every STATE; a write-only register and a reserved offset read 0 -/

/-- A register of an input bank. -/
def readBank (x : MixInput) : BankReg → Word
  | .base => x.chunk.base
  | .offset => x.chunk.offset
  | .length => x.chunk.length
  | .spec => specWord x.spec
  | .rate => x.rate
  | .vlen => x.vlen.setWidth 32
  | .vol c => gainAt x.vol c

/-- The word a register read is answered with. -/
def readReg (s : State) : PortReg → Word
  | .cmd => 0
  | .status => statusWord s
  | .ctrl => 0
  | .inten => intenWord s.inten
  | .errCode => s.errCode.setWidth 32
  | .errInfo => errInfoWord s.errInfo
  | .smp => s.smp
  | .canon => s.canon
  | .spec => specWord s.spec
  | .rate => s.rate
  | .dstBase => s.dst.base
  | .dstOffset => s.dst.offset
  | .dstLength => s.dst.length
  | .dstAttr => BitVec.ofNat 32 (bit s.excl)
  | .volLen => s.volLen.setWidth 32
  | .errCmd => s.errCmd
  | .vol c => gainAt s.vol c
  | .input i r => readBank (inputAt s.inputs i) r
  | .reserved => 0

/-! ### Writes of the operand and control registers (R21, R22 to R32, R34, R37) -/

/-- `VOL[c] <- w`. -/
def setGain (v : Vector Word 32) (c : Nat) (w : Word) : Vector Word 32 := v.setIfInBounds c w

/-- A write of a register of an input bank (R30 to R32). -/
def writeBank (x : MixInput) (r : BankReg) (w : Word) : MixInput :=
  match r with
  | .base => { x with chunk := { x.chunk with base := w } }
  | .offset => { x with chunk := { x.chunk with offset := w } }
  | .length => { x with chunk := { x.chunk with length := w } }
  | .spec => { x with spec := specOfWord w }
  | .rate => { x with rate := w }
  | .vlen => { x with vlen := w.extractLsb' 0 6 }
  | .vol c => { x with vol := setGain x.vol c w }

/-- A write that takes effect as in IDLE (R21, 60_exceptions.md R256). `STATUS` bit 1 clears DONE (R34); a read-only
register and a reserved offset ignore the write; `CMD` and `CTRL` are not stored. -/
def writeReg (s : State) (r : PortReg) (w : Word) : State :=
  match r with
  | .cmd => s
  | .status => if w.getLsbD 1 then { s with done := false } else s
  | .ctrl => s
  | .inten => { s with inten := intenOfWord w }
  | .errCode => s
  | .errInfo => s
  | .smp => { s with smp := w }
  | .canon => { s with canon := w }
  | .spec => { s with spec := specOfWord w }
  | .rate => { s with rate := w }
  | .dstBase => { s with dst := { s.dst with base := w } }
  | .dstOffset => { s with dst := { s.dst with offset := w } }
  | .dstLength => { s with dst := { s.dst with length := w } }
  | .dstAttr => { s with excl := w.getLsbD 0 }
  | .volLen => { s with volLen := w.extractLsb' 0 6 }
  | .errCmd => s
  | .vol c => { s with vol := setGain s.vol c w }
  | .input i b => { s with inputs := s.inputs.setIfInBounds i (writeBank (inputAt s.inputs i) b w) }
  | .reserved => s

/-- A write to any register but `CMD`: `CTRL` works in every STATE (R36, R291); every other write is discarded while
BUSY (R296) and takes effect in IDLE and in FAULT (R256). -/
def storeReg (s : State) (r : PortReg) (w : Word) : State :=
  match r with
  | .ctrl => if w.getLsbD 0 then softReset s else s
  | r => if statusBusy s then s else writeReg s r w

end Sys2Proof.Machine
end

