-- ==== Sys2Proof/Machine/Busy.lean ====
section
/-! DEFINITION. A command that runs over time: the BUSY window, one byte access at a time in the order of 20_memory.md
R70 and R71 with the loop counters of 10_state.md R33, and the acts of the host on the block and on memory. -/

namespace Sys2Proof.Machine

/-- The state with its running command at `job`. -/
def withJob (s : State) (job : Job) : State := { s with phase := .busy job }

/-- One byte read of a running command (R60, R64); an address at or above `2^32` does not exist (R10). -/
def readAccess (s : State) (a : Nat) (job : Byte → Job) : Host.Outcome State Fault Refusal :=
  if a < Config.memSize then .next (withJob s (job (readByte s.mem a))) else .fault (.noSuchAddress a)

/-- One byte write of a running command (R60, R64). -/
def writeAccess (s : State) (a : Nat) (b : Byte) (job : Job) : Host.Outcome State Fault Refusal :=
  if a < Config.memSize then .next (withJob { s with mem := writeByte s.mem a b } job) else .fault (.noSuchAddress a)

/-- The tick after acceptance: decode of the word, prechecks, and for DEC and ENC the whole effect (30_encoding.md R90
to R93, 60_exceptions.md R253 to R255). -/
def tickAccepted (s : State) (w : Word) : State :=
  match decode w with
  | .error _ => raise w (plainErr .badCmd) s
  | .ok .dec =>
    match decBody s with
    | .error v => raise w v s
    | .ok t => complete t
  | .ok .enc =>
    match encBody s with
    | .error v => raise w v s
    | .ok t => complete t
  | .ok .vol =>
    match volCheck s with
    | .error v => raise w v s
    | .ok f => withJob s (.vol f 0 (.reading 0 []))
  | .ok (.mix nin) =>
    match mixCheck nin s with
    | .error v => raise w v s
    | .ok f => withJob s (.mix f nin 0 0 accsZero.acc accsZero.facc (.reading 0 []))

/-- One tick of VOL at sample `k` (R70, 43_volume_scaler.md R202): at most one byte access. -/
def tickVol (s : State) (f : Fmt) (k : Nat) (stage : Stage) : Host.Outcome State Fault Refusal :=
  let a := sampleAddr f s.dst k
  let g := volGain s k
  if sampleCount f s.dst ≤ k then .next (complete s)
  else
    match stage with
    | .reading j got =>
      if g = Config.volNorm then .next (withJob s (.vol f (k + 1) (.reading 0 [])))
      else if g = Config.volMuted then .next (withJob s (.vol f k (.writing 0 (zeroCode f))))
      else if j < fmtWidth f then readAccess s (a + j) (fun b => .vol f k (.reading (j + 1) (got ++ [b])))
      else .next (withJob s (.vol f k (.writing 0 (scaleSample f g got))))
    | .writing j out =>
      if j < fmtWidth f then writeAccess s (a + j) (byteAt out j) (.vol f k (.writing (j + 1) out))
      else .next (withJob s (.vol f (k + 1) (.reading 0 [])))

/-- One tick of MIX at output sample `k` and input `i` (R71, 44_mixer.md R220): at most one byte access. -/
def tickMix (s : State) (f : Fmt) (nin k i : Nat) (a : Accs) (stage : Stage) : Host.Outcome State Fault Refusal :=
  if sampleCount f s.dst ≤ k then .next (complete s)
  else
    match stage with
    | .reading j got =>
      if nin ≤ i then .next (withJob s (.mix f nin k i a.acc a.facc (.writing 0 (mixOut f a))))
      else if mixReads f s i k then
        if j < fmtWidth f then
          readAccess s (sampleAddr f (inputAt s.inputs i).chunk k + j)
            (fun b => .mix f nin k i a.acc a.facc (.reading (j + 1) (got ++ [b])))
        else
          let a' := accumulate f (mixGain s i k) got a
          .next (withJob s (.mix f nin k (i + 1) a'.acc a'.facc (.reading 0 [])))
      else .next (withJob s (.mix f nin k (i + 1) a.acc a.facc (.reading 0 [])))
    | .writing j out =>
      if j < fmtWidth f then
        writeAccess s (sampleAddr f s.dst k + j) (byteAt out j) (.mix f nin k i a.acc a.facc (.writing (j + 1) out))
      else .next (withJob s (.mix f nin (k + 1) 0 accsZero.acc accsZero.facc (.reading 0 [])))

/-- The block is given the time of one byte access: a running command advances, an idle or faulted block waits
(60_exceptions.md R256, R264). -/
def tick (s : State) : Host.Outcome State Fault Refusal :=
  match s.phase with
  | .busy (.accepted w) => .next (tickAccepted s w)
  | .busy (.vol f k stage) => tickVol s f k stage
  | .busy (.mix f nin k i acc facc stage) => tickMix s f nin k i { acc := acc, facc := facc } stage
  | .idle => .next s
  | .fault => .next s

/-! ### The host's acts -/

/-- A word written to `CMD` (R35): in IDLE it is a command, run to its end within the write or accepted only, as the
pace says (70_reset_and_hazards.md R297); in BUSY and FAULT it is discarded. An illegal word faults with `ERR_BAD_CMD`
(30_encoding.md R93). -/
def writeCmd (w : Word) (s : State) : Host.Outcome State Fault Refusal :=
  match s.pace with
  | .atOnce =>
    match decode w with
    | .ok i => exec i s
    | .error _ => .next (issue w (fun _ => .error (plainErr .badCmd)) s)
  | .stepwise =>
    match s.phase with
    | .idle => .next (accept w s)
    | _ => .next s

/-- A write through the register port (20_memory.md R62, 30_encoding.md R97). -/
def portWrite (off : Nat) (w : Word) (s : State) : Host.Outcome State Fault Refusal :=
  match regAt off with
  | none => .refused (.notAPortAccess off)
  | some .cmd => writeCmd w s
  | some r => .next (storeReg s r w)

/-- A read through the register port; the answer stands in `rdata`. Reads have no effect on the block (R296). -/
def portRead (off : Nat) (s : State) : Host.Outcome State Fault Refusal :=
  match regAt off with
  | none => .refused (.notAPortAccess off)
  | some r => .next { s with rdata := readReg s r }

/-- Does the running command own `a` against any write (20_memory.md R73, 70_reset_and_hazards.md R294)? -/
def writeGuarded (s : State) (a : Nat) : Bool :=
  let chunksOf (i : Instr) : Bool :=
    match i with
    | .dec => false
    | .enc => false
    | .vol => inChunk s.dst a
    | .mix nin => inChunk s.dst a || (List.range nin).any (fun i => inChunk (inputAt s.inputs i).chunk a)
  match s.phase with
  | .busy (.accepted w) =>
    match decode w with
    | .ok i => chunksOf i
    | .error _ => false
  | .busy (.vol _ _ _) => chunksOf .vol
  | .busy (.mix _ nin _ _ _ _ _) => chunksOf (.mix nin)
  | _ => false

/-- Does the running command own `a` against a read? The destination only: "Reading input chunks during the window is
harmless" (R294). -/
def readGuarded (s : State) (a : Nat) : Bool :=
  match s.phase with
  | .busy (.accepted w) =>
    match decode w with
    | .ok .vol => inChunk s.dst a
    | .ok (.mix _) => inChunk s.dst a
    | _ => false
  | .busy (.vol _ _ _) => inChunk s.dst a
  | .busy (.mix _ _ _ _ _ _ _) => inChunk s.dst a
  | _ => false

/-- The host writes a byte of sample memory (20_memory.md R76), outside a running command's chunks
(93_implementation_defined.md U6). -/
def hostStore (addr : Word) (b : Byte) (s : State) : Host.Outcome State Fault Refusal :=
  if writeGuarded s addr.toNat then .refused (.chunkTouched addr.toNat)
  else .next { s with mem := writeByte s.mem addr.toNat b }

/-- The host reads a byte of sample memory, outside a running command's destination. -/
def hostLoad (addr : Word) (s : State) : Host.Outcome State Fault Refusal :=
  if readGuarded s addr.toNat then .refused (.chunkTouched addr.toNat)
  else .next { s with rdata := (readByte s.mem addr.toNat).setWidth 32 }

/-- `WAIT` (30_encoding.md R97): the host reads `STATUS`; while BUSY is 1 the block goes on and the host waits again
(log 25). -/
def hostWait (s : State) : Host.Outcome State Fault Refusal :=
  let t := { s with rdata := statusWord s }
  if statusBusy s then tick { t with pending := .wait :: s.pending } else .next t

/-- One act of the outside world. -/
def serve (act : HostAct) (s : State) : Host.Outcome State Fault Refusal :=
  match act with
  | .write off w => portWrite off w s
  | .read off => portRead off s
  | .store addr b => hostStore addr b s
  | .load addr => hostLoad addr s
  | .hardReset => .next (hardReset s)
  | .run => tick s
  | .wait => hostWait s

end Sys2Proof.Machine
end

