-- ==== Sys2Proof/Machine/Step.lean ====
section
/-! DEFINITION. One step: the next act of the host is served; with none left a running command goes on and an idle block
waits (60_exceptions.md R264: "an idle block simply waits for the next `CMD` write"). -/

namespace Sys2Proof.Machine

/-- One step of the machine (log 4). -/
def step (s : State) : Host.Outcome State Fault Refusal :=
  match s.pending with
  | [] => tick s
  | act :: rest => serve act { s with pending := rest }

/-- `s` with the command whose bits are `w` as the host's next act, a write to `CMD` that completes within the write,
the block being in IDLE, where a CMD write is accepted (10_state.md R35): all it takes for the very next step to run
it (log 1). -/
def State.withFetchWord (s : State) (nbits w : Nat) : State :=
  { s with
    phase := .idle
    pace := .atOnce
    pending := .write 0x0000 (BitVec.ofNat 32 (w % 2 ^ nbits)) :: s.pending }

end Sys2Proof.Machine
end

