-- ==== Sys2Proof/Machine/Lines.lean ====
section
/-! DEFINITION. The host notation of 30_encoding.md R97 and R98: each line as the acts of the host it stands for. -/

namespace Sys2Proof.Machine

/-- The offset of a register of an input bank within its bank (10_state.md R44). -/
def bankOffset : BankReg → Nat
  | .base => 0x00
  | .offset => 0x04
  | .length => 0x08
  | .spec => 0x0C
  | .rate => 0x10
  | .vlen => 0x14
  | .vol c => 0x80 + 4 * c

/-- The offset of a named register (10_state.md R44); for `reserved`, which names no register, the first reserved
offset. -/
def offsetOf : PortReg → Nat
  | .cmd => 0x00
  | .status => 0x04
  | .ctrl => 0x08
  | .inten => 0x0C
  | .errCode => 0x10
  | .errInfo => 0x14
  | .smp => 0x18
  | .canon => 0x1C
  | .spec => 0x20
  | .rate => 0x24
  | .dstBase => 0x28
  | .dstOffset => 0x2C
  | .dstLength => 0x30
  | .dstAttr => 0x34
  | .volLen => 0x38
  | .errCmd => 0x3C
  | .vol c => 0x80 + 4 * c
  | .input i r => 0x1000 + 0x100 * i + bankOffset r
  | .reserved => 0x40

/-- The tag number a format name stands for (R95, R97). -/
def tagOf : Fmt → Nat
  | .int .u8 => 0
  | .int .alaw => 1
  | .int .ulaw => 2
  | .int .s16le => 3
  | .int .s16be => 4
  | .int .s24le => 5
  | .int .s24be => 6
  | .int .s24in32le => 7
  | .int .s24in32be => 8
  | .int .s32le => 9
  | .int .s32be => 10
  | .flt .float32le => 11
  | .flt .float32be => 12

/-- A line of a host program (R97), a pseudo-line included (R98). DESIGN CHOICE (log 28): the `<fmt>` of `SETSPEC` and
`SETIN` is one of the thirteen format names; that it may be a plain number, the spec does not say. -/
inductive HostLine where
  | wr (r : PortReg) (v : Word)
  | rd (r : PortReg)
  | issue (i : Instr)
  | wait
  | setSpec (f : Fmt) (ch : Nat) (rate : Word)
  | setDst (base off len : Word)
  | setVol (gains : List Word)
  | setIn (i : Nat) (f : Fmt) (ch : Nat) (rate base off len : Word)
  | setInVol (i : Nat) (gains : List Word)
  | ack
  | reset
  deriving DecidableEq, Repr

/-- A `WR` line: one write through the register port. -/
def wrAct (r : PortReg) (v : Word) : HostAct := .write (offsetOf r) v

/-- `WR` of gains to consecutive entries of a vector, in ascending order from entry `c` on. -/
def wrGains (reg : Nat → PortReg) : Nat → List Word → List HostAct
  | _, [] => []
  | c, g :: gs => wrAct (reg c) g :: wrGains reg (c + 1) gs

/-- The word `<fmt> + (<ch> << 8)` of `SETSPEC` and `SETIN`. -/
def specLineWord (f : Fmt) (ch : Nat) : Word := BitVec.ofNat 32 (tagOf f + ch * 256)

/-- The word a line that issues a command writes (R97): for `MIX <n>` the number `0x00000004 + (n << 8)`. DESIGN
CHOICE (log 27): the formula holds also for an `n` of 64 or more, whose word is illegal (`MIX 64` writes `0x4004`), and
of a number past 32 bits the low 32 are written. -/
def issueLineWord : Instr → Word
  | .dec => 0x00000001#32
  | .enc => 0x00000002#32
  | .vol => 0x00000003#32
  | .mix n => BitVec.ofNat 32 (4 + n * 256)

/-- The acts a line stands for, in order (R97, R98). Channel, input and gain counts beyond the registers follow the same
formulas (log 27). -/
def expand : HostLine → List HostAct
  | .wr r v => [wrAct r v]
  | .rd r => [.read (offsetOf r)]
  | .issue i => [wrAct .cmd (issueLineWord i)]
  | .wait => [.wait]
  | .setSpec f ch rate => [wrAct .spec (specLineWord f ch), wrAct .rate rate]
  | .setDst base off len =>
    [wrAct .dstBase base, wrAct .dstOffset off, wrAct .dstLength len, wrAct .dstAttr 1]
  | .setVol gains => wrAct .volLen (BitVec.ofNat 32 gains.length) :: wrGains .vol 0 gains
  | .setIn i f ch rate base off len =>
    [wrAct (.input i .base) base, wrAct (.input i .offset) off, wrAct (.input i .length) len,
      wrAct (.input i .spec) (specLineWord f ch), wrAct (.input i .rate) rate]
  | .setInVol i gains =>
    wrAct (.input i .vlen) (BitVec.ofNat 32 gains.length) :: wrGains (fun c => .input i (.vol c)) 0 gains
  | .ack => [wrAct .status 2]
  | .reset => [wrAct .ctrl 1]

/-- The state whose host runs a program, a list of lines, next (log 1). -/
def State.withProgram (s : State) (lines : List HostLine) : State := { s with pending := lines.flatMap expand }

end Sys2Proof.Machine
end

