-- ==== Sys2Proof/Safety.lean ====
section
/-! DEFINITION. What a sound state of PA-CORE is, runs of a busy machine, and the bound on how long a command stays
busy, in the terms the statements use. -/

namespace Sys2Proof.Machine

/-- A stage of a sample of format `f`: the byte index and the bytes in flight fit the sample. -/
def StageOk (f : Fmt) : Stage → Prop
  | .reading j got => j ≤ fmtWidth f ∧ got.length = j
  | .writing j out => j ≤ fmtWidth f ∧ out.length = fmtWidth f

/-- A running command stands where its rules put it: past its prechecks, its counters in range (10_state.md R33). -/
def JobOk (s : State) : Job → Prop
  | .accepted _ => True
  | .vol f k stage => volCheck s = .ok f ∧ k ≤ sampleCount f s.dst ∧ StageOk f stage
  | .mix f nin k i _ _ stage => mixCheck nin s = .ok f ∧ k ≤ sampleCount f s.dst ∧ i ≤ nin ∧ StageOk f stage

/-- The invariant of the machine. -/
structure StateInv (s : State) : Prop where
  /-- memory keeps its canonical form (20_memory.md R60) -/
  memOk : memWf s.mem = true
  /-- `DONE` is 1 only in IDLE (10_state.md R34, 60_exceptions.md R261) -/
  doneOnlyIdle : s.done = true → s.phase = .idle
  /-- "0 when `STATUS.ERR = 0`" (10_state.md R38, R39) -/
  noErrorRecorded : s.phase ≠ .fault → s.errCode = 0 ∧ s.errInfo = ErrInfo.zero ∧ s.errCmd = 0
  /-- in FAULT the code is one of 1 to 10 (60_exceptions.md R251) -/
  errorRecorded : s.phase = .fault → 1 ≤ s.errCode.toNat ∧ s.errCode.toNat ≤ 10
  /-- a running command is sound -/
  jobOk : ∀ job, s.phase = .busy job → JobOk s job

/-- `n` ticks in a row, stopping at the first stop. -/
def tickN : Nat → State → Host.Outcome State Fault Refusal
  | 0, s => .next s
  | n + 1, s =>
    match tick s with
    | .next t => tickN n t
    | o => o

/-- How many ticks a command stays busy at most: one for decode and prechecks, one for completion, and per sample the
accesses of 20_memory.md R70 and R71 with a tick at each change of stage (70_reset_and_hazards.md R299). -/
def tickBound (s : State) (i : Instr) : Nat :=
  match formatOf s.spec with
  | none => 1
  | some f =>
    match i with
    | .dec => 1
    | .enc => 1
    | .vol => 2 + sampleCount f s.dst * (2 * fmtWidth f + 2)
    | .mix nin => 2 + sampleCount f s.dst * ((nin + 1) * (fmtWidth f + 1) + 1)

end Sys2Proof.Machine
end

