-- ==== Sys2Proof/Certificates/Slice0/Obligations.lean ====
section
/-! DEFINITION. The statements for the provers. Rules are cited as R<n> of spec/. -/

namespace Sys2Proof.Machine

/-! ### Words the statements use -/

/-- `sext_N(v)` as 00_scope.md R8 writes it. -/
def sext (n v : Nat) : Int := if v < 2 ^ (n - 1) then (v : Int) else (v : Int) - 2 ^ n

/-- `u_N(s) = s mod 2^N` as R8 writes it. -/
def uN (n : Nat) (s : Int) : Nat := (s % 2 ^ n).toNat

/-- The integer formats that keep every integer of their range (R110, `Rep(f)`). -/
def LinearFmt (f : IntFmt) : Prop := f ≠ .u8 ∧ f ≠ .alaw ∧ f ≠ .ulaw

/-- `v` lies in `[LO(f), HI(f)]`. -/
def InRange (f : IntFmt) (v : Int) : Prop := intLo f ≤ v ∧ v ≤ intHi f

/-- The rational number `(-1)^neg * m * 2^e`. -/
def ratOf (neg : Bool) (m : Nat) (e : Int) : Rat := (if neg then -1 else 1) * (m : Rat) * (2 : Rat) ^ e

/-- A binary32 pattern that is neither an infinity nor a NaN. -/
def Finite32 (x : Word) : Prop := x.toNat / 2 ^ 23 % 2 ^ 8 ≠ 255

/-- The state `s` after fault entry with a code, detail and command word (R254), nothing else changed. -/
def faulted (s : State) (code : BitVec 4) (info : ErrInfo) (w : Word) : State :=
  { s with errCode := code, errInfo := info, errCmd := w, done := false, phase := .fault }

/-- No check of R201 fails: VOL under format `f`. -/
def VolOk (f : Fmt) (s : State) : Prop :=
  formatOf s.spec = some f ∧ 1 ≤ s.spec.channels.toNat ∧ s.spec.channels.toNat ≤ 32 ∧
  s.volLen = s.spec.channels ∧
  (∀ c < s.spec.channels.toNat, (gainAt s.vol c).toNat ≤ 0x7FFFFFFF) ∧
  s.dst.length.toNat % (fmtWidth f * s.spec.channels.toNat) = 0 ∧
  s.dst.base.toNat + s.dst.offset.toNat + s.dst.length.toNat ≤ 2 ^ 32 ∧ s.excl = true

/-- No check of R221 before the inputs fails: MIX under format `f`. -/
def MixDstOk (f : Fmt) (nin : Nat) (s : State) : Prop :=
  nin ≤ 32 ∧ formatOf s.spec = some f ∧ 1 ≤ s.spec.channels.toNat ∧ s.spec.channels.toNat ≤ 32 ∧
  s.dst.length.toNat % (fmtWidth f * s.spec.channels.toNat) = 0 ∧
  s.dst.base.toNat + s.dst.offset.toNat + s.dst.length.toNat ≤ 2 ^ 32 ∧ s.excl = true

/-- No check 7a to 7e of R221 fails for input `i`. -/
def InputOk (f : Fmt) (s : State) (i : Nat) : Prop :=
  let x := inputAt s.inputs i
  x.spec = s.spec ∧ x.rate = s.rate ∧ x.vlen = s.spec.channels ∧
  (∀ c < s.spec.channels.toNat, (gainAt x.vol c).toNat ≤ 0x7FFFFFFF) ∧
  x.chunk.length.toNat % (fmtWidth f * s.spec.channels.toNat) = 0 ∧
  x.chunk.base.toNat + x.chunk.offset.toNat + x.chunk.length.toNat ≤ 2 ^ 32

/-- No check of R221 fails. -/
def MixOk (f : Fmt) (nin : Nat) (s : State) : Prop := MixDstOk f nin s ∧ ∀ i < nin, InputOk f s i

/-- Input `i` starts at or above the destination, or its chunk ends at or below the destination's first byte: no byte
of it is overwritten before it is read (20_memory.md R78). -/
def ReadBeforeOverwritten (s : State) (i : Nat) : Prop :=
  chunkEA s.dst ≤ chunkEA (inputAt s.inputs i).chunk ∨
  chunkEA (inputAt s.inputs i).chunk + (inputAt s.inputs i).chunk.length.toNat ≤ chunkEA s.dst

/-- The table `dec_ULAW` of 41_g711_companding.md R165, by code. -/
def ulawTable : List Int :=
  [-32124, -31100, -30076, -29052, -28028, -27004, -25980, -24956, -23932, -22908, -21884, -20860, -19836, -18812, -17788, -16764] ++
  [-15996, -15484, -14972, -14460, -13948, -13436, -12924, -12412, -11900, -11388, -10876, -10364, -9852, -9340, -8828, -8316] ++
  [-7932, -7676, -7420, -7164, -6908, -6652, -6396, -6140, -5884, -5628, -5372, -5116, -4860, -4604, -4348, -4092] ++
  [-3900, -3772, -3644, -3516, -3388, -3260, -3132, -3004, -2876, -2748, -2620, -2492, -2364, -2236, -2108, -1980] ++
  [-1884, -1820, -1756, -1692, -1628, -1564, -1500, -1436, -1372, -1308, -1244, -1180, -1116, -1052, -988, -924] ++
  [-876, -844, -812, -780, -748, -716, -684, -652, -620, -588, -556, -524, -492, -460, -428, -396] ++
  [-372, -356, -340, -324, -308, -292, -276, -260, -244, -228, -212, -196, -180, -164, -148, -132] ++
  [-120, -112, -104, -96, -88, -80, -72, -64, -56, -48, -40, -32, -24, -16, -8, 0] ++
  [32124, 31100, 30076, 29052, 28028, 27004, 25980, 24956, 23932, 22908, 21884, 20860, 19836, 18812, 17788, 16764] ++
  [15996, 15484, 14972, 14460, 13948, 13436, 12924, 12412, 11900, 11388, 10876, 10364, 9852, 9340, 8828, 8316] ++
  [7932, 7676, 7420, 7164, 6908, 6652, 6396, 6140, 5884, 5628, 5372, 5116, 4860, 4604, 4348, 4092] ++
  [3900, 3772, 3644, 3516, 3388, 3260, 3132, 3004, 2876, 2748, 2620, 2492, 2364, 2236, 2108, 1980] ++
  [1884, 1820, 1756, 1692, 1628, 1564, 1500, 1436, 1372, 1308, 1244, 1180, 1116, 1052, 988, 924] ++
  [876, 844, 812, 780, 748, 716, 684, 652, 620, 588, 556, 524, 492, 460, 428, 396] ++
  [372, 356, 340, 324, 308, 292, 276, 260, 244, 228, 212, 196, 180, 164, 148, 132] ++
  [120, 112, 104, 96, 88, 80, 72, 64, 56, 48, 40, 32, 24, 16, 8, 0]

/-- The table `dec_ALAW` of 41_g711_companding.md R165, by code. -/
def alawTable : List Int :=
  [-5504, -5248, -6016, -5760, -4480, -4224, -4992, -4736, -7552, -7296, -8064, -7808, -6528, -6272, -7040, -6784] ++
  [-2752, -2624, -3008, -2880, -2240, -2112, -2496, -2368, -3776, -3648, -4032, -3904, -3264, -3136, -3520, -3392] ++
  [-22016, -20992, -24064, -23040, -17920, -16896, -19968, -18944, -30208, -29184, -32256, -31232, -26112, -25088, -28160, -27136] ++
  [-11008, -10496, -12032, -11520, -8960, -8448, -9984, -9472, -15104, -14592, -16128, -15616, -13056, -12544, -14080, -13568] ++
  [-344, -328, -376, -360, -280, -264, -312, -296, -472, -456, -504, -488, -408, -392, -440, -424] ++
  [-88, -72, -120, -104, -24, -8, -56, -40, -216, -200, -248, -232, -152, -136, -184, -168] ++
  [-1376, -1312, -1504, -1440, -1120, -1056, -1248, -1184, -1888, -1824, -2016, -1952, -1632, -1568, -1760, -1696] ++
  [-688, -656, -752, -720, -560, -528, -624, -592, -944, -912, -1008, -976, -816, -784, -880, -848] ++
  [5504, 5248, 6016, 5760, 4480, 4224, 4992, 4736, 7552, 7296, 8064, 7808, 6528, 6272, 7040, 6784] ++
  [2752, 2624, 3008, 2880, 2240, 2112, 2496, 2368, 3776, 3648, 4032, 3904, 3264, 3136, 3520, 3392] ++
  [22016, 20992, 24064, 23040, 17920, 16896, 19968, 18944, 30208, 29184, 32256, 31232, 26112, 25088, 28160, 27136] ++
  [11008, 10496, 12032, 11520, 8960, 8448, 9984, 9472, 15104, 14592, 16128, 15616, 13056, 12544, 14080, 13568] ++
  [344, 328, 376, 360, 280, 264, 312, 296, 472, 456, 504, 488, 408, 392, 440, 424] ++
  [88, 72, 120, 104, 24, 8, 56, 40, 216, 200, 248, 232, 152, 136, 184, 168] ++
  [1376, 1312, 1504, 1440, 1120, 1056, 1248, 1184, 1888, 1824, 2016, 1952, 1632, 1568, 1760, 1696] ++
  [688, 656, 752, 720, 560, 528, 624, 592, 944, 912, 1008, 976, 816, 784, 880, 848]

/-- `s` is `search(p, T)` of 41_g711_companding.md R160: the least index in `0 .. 7` with `p <= T[s]`, or 8. -/
def IsSegment (T : List Nat) (p s : Nat) : Prop :=
  (∀ r < s, T.getD r 0 < p) ∧ (s = 8 ∨ s < 8 ∧ p ≤ T.getD s 0)

/-- The pattern `x` denotes a finite number of sign `neg` at least as near to `v` as every finite number of its format,
and where another is equally near, `x` is even (00_scope.md R12, `RNE`). -/
def NearestFinite {α : Type} (value : α → FVal) (x : α) (even : Prop) (neg : Bool) (v : Rat) : Prop :=
  ∃ (m' : Nat) (e' : Int), value x = .fin neg m' e' ∧
    ∀ (y : α) (neg2 : Bool) (m2 : Nat) (e2 : Int), value y = .fin neg2 m2 e2 →
      |ratOf neg m' e' - v| ≤ |ratOf neg2 m2 e2 - v| ∧
      (|ratOf neg m' e' - v| = |ratOf neg2 m2 e2 - v| → ratOf neg m' e' = ratOf neg2 m2 e2 ∨ even)

/-- The command that a busy block runs, or has accepted and is about to decode. -/
def Runs (s : State) (i : Instr) : Prop :=
  match s.phase with
  | .busy (.accepted w) => decode w = .ok i
  | .busy (.vol _ _ _) => i = .vol
  | .busy (.mix _ nin _ _ _ _ _) => i = .mix nin
  | _ => False

/-- The bits of a word that a write to a readable and writable register keeps (R21 to R32, R37); `none` for the
registers that are not. -/
def keptBits : PortReg → Option Word
  | .inten => some 0x00000003
  | .smp => some 0xFFFFFFFF
  | .canon => some 0xFFFFFFFF
  | .spec => some 0x00003F0F
  | .rate => some 0xFFFFFFFF
  | .dstBase => some 0xFFFFFFFF
  | .dstOffset => some 0xFFFFFFFF
  | .dstLength => some 0xFFFFFFFF
  | .dstAttr => some 0x00000001
  | .volLen => some 0x0000003F
  | .vol _ => some 0xFFFFFFFF
  | .input _ .spec => some 0x00003F0F
  | .input _ .vlen => some 0x0000003F
  | .input _ _ => some 0xFFFFFFFF
  | _ => none

end Sys2Proof.Machine

open Sys2Proof Sys2Proof.Machine

/-! ### Encoding -/

/-- R90 to R94: decoding and encoding are inverse. A word decodes to `i` exactly when `i` is well-formed and the word
is its encoding, so every well-formed command decodes from its own word and no bit of a word is dropped. -/
def Obligations.DecodeInvertsEncode : Prop :=
  ∀ (w : Word) (i : Instr), decode w = .ok i ↔ i.WellFormed ∧ encode i = w

/-- R91: the four match/mask pairs, and `NIN = w[13:8]`. -/
def Obligations.DecodeMatchesTable : Prop :=
  ∀ w : Word,
    (decode w = .ok .dec ↔ w &&& 0xFFFFFFFF = 0x00000001) ∧
    (decode w = .ok .enc ↔ w &&& 0xFFFFFFFF = 0x00000002) ∧
    (decode w = .ok .vol ↔ w &&& 0xFFFFFFFF = 0x00000003) ∧
    (∀ n, decode w = .ok (.mix n) ↔ w &&& 0xFFFFC0FF = 0x00000004 ∧ n = (w.extractLsb' 8 6).toNat)

/-- R91, R92, R93: words written out from the encoding decode as the spec's table of words says. -/
def Obligations.SpecWordsDecode : Prop :=
  decode 0x00000001 = .ok .dec ∧ decode 0x00000002 = .ok .enc ∧ decode 0x00000003 = .ok .vol ∧
  decode 0x00000004 = .ok (.mix 0) ∧ decode 0x00000104 = .ok (.mix 1) ∧ decode 0x00002004 = .ok (.mix 32) ∧
  decode 0x00003F04 = .ok (.mix 63) ∧ decode 0x00000000 = .error .opcode ∧ decode 0x00000101 = .error .ninNotZero ∧
  decode 0x00004004 = .error .reservedBits

/-! ### Issue of commands -/

/-- R35, R90: the step that serves a `CMD` write whose word decodes to `i` is `exec i` on the state with the act taken
off, in every STATE, when commands complete within the write. The list of acts and the pace are the model's (log 1, 2). -/
def Obligations.StepRunsDecodedCommand : Prop :=
  ∀ (s : State) (w : Word) (i : Instr) (rest : List HostAct),
    s.pending = .write 0 w :: rest → s.pace = .atOnce → decode w = .ok i →
    step s = exec i { s with pending := rest }

/-- R90, R35: a `CMD` write is accepted in IDLE only (`BUSY <- 1`, `DONE <- 0`, nothing else), and discarded without any
effect in BUSY and FAULT; a read of `CMD` gives 0. That acceptance shows as a step of its own at the stepwise pace, and
that the answer stands in `rdata`, are the model's choices (log 2, 3). -/
def Obligations.CmdAcceptedOnlyInIdle : Prop :=
  ∀ (s : State) (w : Word) (rest : List HostAct),
    (s.pending = .write 0 w :: rest → s.pace = .stepwise → s.phase = .idle →
      step s = .next { s with pending := rest, done := false, phase := .busy (.accepted w) }) ∧
    (s.pending = .write 0 w :: rest → s.phase ≠ .idle → step s = .next { s with pending := rest }) ∧
    (s.pending = .read 0 :: rest → step s = .next { s with pending := rest, rdata := 0 })

/-- R93, R254: a word that matches none of the four patterns faults with `ERR_BAD_CMD`, at either pace. The pace and the
tick are the model's choice (log 2), and that an illegal word is accepted and faults at the decode tick is the model's
inference (log 24). -/
def Obligations.IllegalWordFaults : Prop :=
  ∀ (s : State) (w : Word) (rest : List HostAct),
    s.phase = .idle → s.pending = .write 0 w :: rest →
    ¬ (w = 1 ∨ w = 2 ∨ w = 3 ∨ w &&& 0xFFFFC0FF = 4) →
    (s.pace = .atOnce → step s = .next (faulted { s with pending := rest } 1 ErrInfo.zero w)) ∧
    tick (accept w s) = .next (faulted s 1 ErrInfo.zero w)

/-! ### DEC and ENC -/

/-- R140: DEC, in IDLE. -/
def Obligations.DecWritesCanon : Prop :=
  ∀ s : State, s.phase = .idle →
    (12 < s.spec.format.toNat → exec .dec s = .next (faulted s 2 ErrInfo.zero 1)) ∧
    (∀ f, formatOf s.spec = some (.int f) →
      exec .dec s = .next { s with
        canon := BitVec.ofInt 32 (decInt f ((List.range (intWidth f)).map (fun j => s.smp.extractLsb' (8 * j) 8)))
        done := true }) ∧
    (formatOf s.spec = some (.flt .float32le) → exec .dec s = .next { s with canon := s.smp, done := true }) ∧
    (formatOf s.spec = some (.flt .float32be) →
      exec .dec s = .next { s with
        canon := s.smp.extractLsb' 0 8 ++ s.smp.extractLsb' 8 8 ++ s.smp.extractLsb' 16 8 ++ s.smp.extractLsb' 24 8
        done := true })

/-- R141: ENC, in IDLE; saturating for integer formats, bytes above `W(f)-1` cleared. -/
def Obligations.EncWritesSmp : Prop :=
  ∀ s : State, s.phase = .idle →
    (12 < s.spec.format.toNat → exec .enc s = .next (faulted s 2 ErrInfo.zero 2)) ∧
    (∀ f, formatOf s.spec = some (.int f) →
      ∃ smp : Word, exec .enc s = .next { s with smp := smp, done := true } ∧
        (∀ j < intWidth f, smp.extractLsb' (8 * j) 8 = (encInt f (clamp (intLo f) (intHi f) s.canon.toInt)).getD j 0) ∧
        smp.toNat < 2 ^ (8 * intWidth f)) ∧
    (formatOf s.spec = some (.flt .float32le) → exec .enc s = .next { s with smp := s.canon, done := true }) ∧
    (formatOf s.spec = some (.flt .float32be) →
      exec .enc s = .next { s with
        smp := s.canon.extractLsb' 0 8 ++ s.canon.extractLsb' 8 8 ++ s.canon.extractLsb' 16 8 ++
          s.canon.extractLsb' 24 8
        done := true })

/-! ### The formats -/

/-- R113, R115, R117, R119, R121, R123, R125, R127, R129: the decode of each linear integer format as the spec writes
it, over numbers; R161, R163, R165: that of the two companded ones, by the spec's tables, which the spec takes from
general knowledge (log 16). -/
def Obligations.IntegerDecodeFormulas : Prop :=
  ∀ b0 b1 b2 b3 : Byte,
    decInt .u8 [b0] = ((b0.toNat : Int) - 128) * 256 ∧
    decInt .s16le [b0, b1] = sext 16 (b0.toNat + b1.toNat * 2 ^ 8) ∧
    decInt .s16be [b0, b1] = sext 16 (b0.toNat * 2 ^ 8 + b1.toNat) ∧
    decInt .s24le [b0, b1, b2] = sext 24 (b0.toNat + b1.toNat * 2 ^ 8 + b2.toNat * 2 ^ 16) ∧
    decInt .s24be [b0, b1, b2] = sext 24 (b0.toNat * 2 ^ 16 + b1.toNat * 2 ^ 8 + b2.toNat) ∧
    decInt .s24in32le [b0, b1, b2, b3] = sext 24 (b0.toNat + b1.toNat * 2 ^ 8 + b2.toNat * 2 ^ 16) ∧
    decInt .s24in32be [b0, b1, b2, b3] = sext 24 (b1.toNat * 2 ^ 16 + b2.toNat * 2 ^ 8 + b3.toNat) ∧
    decInt .s32le [b0, b1, b2, b3] =
      sext 32 (b0.toNat + b1.toNat * 2 ^ 8 + b2.toNat * 2 ^ 16 + b3.toNat * 2 ^ 24) ∧
    decInt .s32be [b0, b1, b2, b3] =
      sext 32 (b0.toNat * 2 ^ 24 + b1.toNat * 2 ^ 16 + b2.toNat * 2 ^ 8 + b3.toNat) ∧
    some (decInt .ulaw [b0]) = ulawTable[b0.toNat]? ∧
    some (decInt .alaw [b0]) = alawTable[b0.toNat]?

/-- R114, R116, R118, R120, R122, R124, R126, R128, R130: the bytes each linear integer encode gives, over numbers, for
every value of the format's range; R160, R162, R164: the byte each companding encode gives, by the spec's procedure with
its segment tables, which the spec takes from general knowledge (log 16). -/
def Obligations.IntegerEncodeFormulas : Prop :=
  ∀ v : Int,
    (InRange .u8 v → (encInt .u8 v).map BitVec.toNat = [(v / 256 + 128).toNat]) ∧
    (InRange .s16le v →
      (encInt .s16le v).map BitVec.toNat = [uN 16 v % 256, uN 16 v / 2 ^ 8] ∧
      (encInt .s16be v).map BitVec.toNat = [uN 16 v / 2 ^ 8, uN 16 v % 256]) ∧
    (InRange .s24le v →
      (encInt .s24le v).map BitVec.toNat = [uN 24 v % 256, uN 24 v / 2 ^ 8 % 256, uN 24 v / 2 ^ 16] ∧
      (encInt .s24be v).map BitVec.toNat = [uN 24 v / 2 ^ 16, uN 24 v / 2 ^ 8 % 256, uN 24 v % 256] ∧
      (encInt .s24in32le v).map BitVec.toNat =
        [uN 24 v % 256, uN 24 v / 2 ^ 8 % 256, uN 24 v / 2 ^ 16, if v < 0 then 255 else 0] ∧
      (encInt .s24in32be v).map BitVec.toNat =
        [if v < 0 then 255 else 0, uN 24 v / 2 ^ 16, uN 24 v / 2 ^ 8 % 256, uN 24 v % 256]) ∧
    (InRange .s32le v →
      (encInt .s32le v).map BitVec.toNat =
        [uN 32 v % 256, uN 32 v / 2 ^ 8 % 256, uN 32 v / 2 ^ 16 % 256, uN 32 v / 2 ^ 24] ∧
      (encInt .s32be v).map BitVec.toNat =
        [uN 32 v / 2 ^ 24, uN 32 v / 2 ^ 16 % 256, uN 32 v / 2 ^ 8 % 256, uN 32 v % 256]) ∧
    (InRange .ulaw v → ∀ s : Nat,
      let p := min (v / 4).natAbs 8159 + 33
      let mask := if v / 4 < 0 then 0x7F else 0xFF
      IsSegment [0x3F, 0x7F, 0xFF, 0x1FF, 0x3FF, 0x7FF, 0xFFF, 0x1FFF] p s →
      (encInt .ulaw v).map BitVec.toNat = [(if s = 8 then 0x7F else 16 * s + p / 2 ^ (s + 1) % 16) ^^^ mask]) ∧
    (InRange .alaw v → ∀ s : Nat,
      let p := if 0 ≤ v / 8 then (v / 8).toNat else (-(v / 8) - 1).toNat
      let mask := if 0 ≤ v / 8 then 0xD5 else 0x55
      IsSegment [0x1F, 0x3F, 0x7F, 0xFF, 0x1FF, 0x3FF, 0x7FF, 0xFFF] p s →
      (encInt .alaw v).map BitVec.toNat =
        [(if s = 8 then 0x7F else 16 * s + (if s < 2 then p / 2 % 16 else p / 2 ^ s % 16)) ^^^ mask])

/-- R131 to R134: the float codecs move the pattern, change no bit and never clip. -/
def Obligations.FloatCodecIsExact : Prop :=
  (∀ b0 b1 b2 b3 : Byte,
    (decFlt .float32le [b0, b1, b2, b3]).toNat = b0.toNat + b1.toNat * 2 ^ 8 + b2.toNat * 2 ^ 16 + b3.toNat * 2 ^ 24 ∧
    (decFlt .float32be [b0, b1, b2, b3]).toNat = b0.toNat * 2 ^ 24 + b1.toNat * 2 ^ 16 + b2.toNat * 2 ^ 8 + b3.toNat ∧
    encFlt .float32le (decFlt .float32le [b0, b1, b2, b3]) = [b0, b1, b2, b3] ∧
    encFlt .float32be (decFlt .float32be [b0, b1, b2, b3]) = [b0, b1, b2, b3]) ∧
  (∀ (f : FltFmt) (u : Word), decFlt f (encFlt f u) = u)

/-- R137(a): value round trip, for every value a sample of the format can denote. -/
def Obligations.ValueRoundTrip : Prop :=
  (∀ (f : IntFmt) (bs : List Byte), bs.length = intWidth f → decInt f (encInt f (decInt f bs)) = decInt f bs) ∧
  (∀ (f : IntFmt) (v : Int), LinearFmt f → InRange f v → decInt f (encInt f v) = v) ∧
  (∀ n : Int, -128 ≤ n → n ≤ 127 → decInt .u8 (encInt .u8 (256 * n)) = 256 * n) ∧
  (∀ (f : FltFmt) (u : Word), decFlt f (encFlt f u) = u)

/-- R137(b): byte round trip, with exactly the exceptions the rule lists. -/
def Obligations.ByteRoundTrip : Prop :=
  (∀ (f : IntFmt) (bs : List Byte), bs.length = intWidth f → f ≠ .ulaw → f ≠ .s24in32le → f ≠ .s24in32be →
    encInt f (decInt f bs) = bs) ∧
  (∀ b : Byte, encInt .ulaw (decInt .ulaw [b]) = if b = 0x7F then [0xFF] else [b]) ∧
  (∀ b0 b1 b2 b3 : Byte,
    encInt .s24in32le (decInt .s24in32le [b0, b1, b2, b3]) = [b0, b1, b2, if b2.msb then 0xFF else 0x00] ∧
    encInt .s24in32be (decInt .s24in32be [b0, b1, b2, b3]) = [if b1.msb then 0xFF else 0x00, b1, b2, b3]) ∧
  (∀ (f : FltFmt) (bs : List Byte), bs.length = 4 → encFlt f (decFlt f bs) = bs)

/-- R135: an integer of any size is clipped, never wrapped: decoding what a linear format encodes gives the clamped
value, with the bounds of the table of R110 for all eleven integer formats. -/
def Obligations.SaturatedEncodeClips : Prop :=
  (∀ (f : IntFmt) (v : Int), LinearFmt f → decInt f (encSat f v) = clamp (intLo f) (intHi f) v) ∧
  (∀ v : Int, decInt .u8 (encSat .u8 v) = clamp (-32768) 32767 v / 256 * 256) ∧
  (∀ (f : IntFmt) (v : Int), (encSat f v).length = intWidth f) ∧
  (∀ f : IntFmt, f = .u8 ∨ f = .alaw ∨ f = .ulaw ∨ f = .s16le ∨ f = .s16be → intLo f = -32768 ∧ intHi f = 32767) ∧
  (∀ f : IntFmt, f = .s24le ∨ f = .s24be ∨ f = .s24in32le ∨ f = .s24in32be →
    intLo f = -8388608 ∧ intHi f = 8388607) ∧
  (∀ f : IntFmt, f = .s32le ∨ f = .s32be → intLo f = -2147483648 ∧ intHi f = 2147483647)

/-- R136: the zero code of every format, and what it decodes to. -/
def Obligations.ZeroCodes : Prop :=
  zeroCode (.int .u8) = [0x80] ∧ zeroCode (.int .alaw) = [0xD5] ∧ zeroCode (.int .ulaw) = [0xFF] ∧
  (∀ f, LinearFmt f → zeroCode (.int f) = List.replicate (intWidth f) 0) ∧
  (∀ f, zeroCode (.flt f) = [0, 0, 0, 0]) ∧
  (∀ f, f ≠ .alaw → decInt f (zeroCode (.int f)) = 0) ∧ decInt .alaw (zeroCode (.int .alaw)) = 8 ∧
  (∀ f, decFlt f (zeroCode (.flt f)) = 0)

/-- R166: the properties of the companding rules, (a) to (f). -/
def Obligations.CompandingProperties : Prop :=
  (∀ c d : Byte, decUlaw c = decUlaw d → c = d ∨ (c = 0xFF ∧ d = 0x7F) ∨ (c = 0x7F ∧ d = 0xFF)) ∧
  decUlaw 0xFF = 0 ∧ decUlaw 0x7F = 0 ∧
  (∀ c d : Byte, decAlaw c = decAlaw d → c = d) ∧
  (∀ c : Byte, decUlaw (encUlaw (decUlaw c)) = decUlaw c ∧ decAlaw (encAlaw (decAlaw c)) = decAlaw c) ∧
  (∀ c : Byte, encAlaw (decAlaw c) = c ∧ encUlaw (decUlaw c) = if c = 0x7F then 0xFF else c) ∧
  (∀ v v' : Int, -32768 ≤ v → v ≤ v' → v' ≤ 32767 →
    decUlaw (encUlaw v) ≤ decUlaw (encUlaw v') ∧ decAlaw (encAlaw v) ≤ decAlaw (encAlaw v')) ∧
  encUlaw 0 = 0xFF ∧ encAlaw 0 = 0xD5 ∧
  (∀ v : Int, -32768 ≤ v → v ≤ 32767 →
    |v - decUlaw (encUlaw v)| ≤ 644 ∧ |v - decAlaw (encAlaw v)| ≤ 512) ∧
  |(-32768) - decUlaw (encUlaw (-32768))| = 644 ∧ (∃ v : Int, -32768 ≤ v ∧ v ≤ 32767 ∧ |v - decAlaw (encAlaw v)| = 512)

/-! ### Gain arithmetic -/

/-- R183: `imul` is the exact product over `2^16` rounded to nearest, ties up, with the facts the rule lists. -/
def Obligations.GainMultiplyRounds : Prop :=
  (∀ (s : Int) (g : Word), 2 * (imul s g * 65536) ≤ 2 * (s * g.toNat) + 65536 ∧
    2 * (s * g.toNat) + 65536 < 2 * (imul s g * 65536) + 131072) ∧
  (∀ s : Int, imul s Config.volNorm = s) ∧ (∀ s : Int, imul s 0 = 0) ∧ (∀ g : Word, imul 0 g = 0) ∧
  (∀ (s s' : Int) (g : Word), s ≤ s' → imul s g ≤ imul s' g) ∧
  (∀ (s : Int) (g g' : Word), 0 ≤ s → g.toNat ≤ g'.toNat → imul s g ≤ imul s g') ∧
  (∀ (s : Int) (g : Word), |s| ≤ 2 ^ 31 → g.toNat ≤ 0x7FFFFFFF → |imul s g| ≤ 2 ^ 46)

/-- R190: VOL gives the ten bytes of the document's golden fixture exactly for the gains `0xE602 .. 0xE6DA`. -/
def Obligations.GoldenFixtureGains : Prop :=
  ∀ s : State, s.phase = .idle → memWf s.mem = true → VolOk (.int .u8) s → s.spec.channels = 1 → s.dst.length = 10 →
    memRead s.mem (chunkEA s.dst) 10 = [0x00, 0xFF, 0x7F, 0x80, 0x9F, 0x3F, 0x01, 0xF0, 0x20, 0x21] →
    ∃ m, exec .vol s = .next { s with mem := m, done := true } ∧
      (memRead m (chunkEA s.dst) 10 = [0x0C, 0xF2, 0x7F, 0x80, 0x9B, 0x45, 0x0D, 0xE4, 0x29, 0x2A] ↔
        0xE602 ≤ (gainAt s.vol 0).toNat ∧ (gainAt s.vol 0).toNat ≤ 0xE6DA)

/-- R189, R190: the spec's reference instance of `LinToVol` obeys the laws every instance must satisfy, is the formula of
the rule on `[0, 1]`, and gives `0xE666` for 0.9; outside `[0, 1]` it refuses (93_implementation_defined.md U11). The
curve is the host's (log 13); that its argument is an exact rational, `9/10` for the amplitude 0.9, is the model's choice
(log 29). -/
def Obligations.ReferenceCurveMeetsLaws : Prop :=
  Config.LinToVolLaws Config.linToVolRef ∧
  (∀ l : Rat, 0 ≤ l → l ≤ 1 →
    ∃ g : Word, Config.linToVolRef l = some g ∧ (g.toNat : Int) = (l * 65536 + 1 / 2).floor) ∧
  Config.linToVolRef (9 / 10) = some 0xE666

/-- R184: the float multiplier of a gain. It is the conversion of the gain scaled by `2^-16` exactly; below `2^24` that
is `g / 2^16`; from `2^24` on `g` is first rounded to 24 significant bits, to nearest, ties to even (R186, log 17).
R191: the binary64 multiplier is exactly `g / 2^16`, and the contribution of a sample is `mul64` of the widened sample and
that multiplier: for a finite sample the exact product, rounded once. -/
def Obligations.FloatGainMultipliers : Prop :=
  ∀ g : Word,
    (∃ (m : Nat) (e : Int), value32 (gainF32 g) = .fin false m e ∧
      (∃ (m' : Nat) (e' : Int), value32 (cvtU32F32 g) = .fin false m' e' ∧
        ratOf false m e = ratOf false m' e' / 2 ^ 16) ∧
      (g.toNat < 2 ^ 24 → ratOf false m e = (g.toNat : Rat) / 2 ^ 16) ∧
      (∀ k : Nat, 2 ^ (23 + k) ≤ g.toNat → g.toNat < 2 ^ (24 + k) →
        ∃ n : Nat, 2 ^ 23 ≤ n ∧ n ≤ 2 ^ 24 ∧ ratOf false m e = (n : Rat) * 2 ^ k / 2 ^ 16 ∧
          2 * |(n : Rat) * 2 ^ k - g.toNat| ≤ 2 ^ k ∧ (2 * |(n : Rat) * 2 ^ k - g.toNat| = 2 ^ k → n % 2 = 0))) ∧
    (∃ (m : Nat) (e : Int), value64 (gainF64 g) = .fin false m e ∧ ratOf false m e = (g.toNat : Rat) / 2 ^ 16) ∧
    (∀ x : Word, fcontrib64 x g = mul64 (cvtF32F64 x) (gainF64 g)) ∧
    (∀ (x : Word) (neg : Bool) (m : Nat) (e : Int), value32 x = .fin neg m e →
      ∃ (p : Nat) (y : Int), ratOf neg p y = ratOf neg m e * ((g.toNat : Rat) / 2 ^ 16) ∧
        fcontrib64 x g = round64 (.fin neg p y))

/-- R185, R186: a scaled float sample. A NaN becomes `QNAN32`; every other sample is multiplied by the gain's multiplier
in binary32, for a finite sample the exact product of the two rounded once; none of them becomes a NaN, and an infinity
and a signed zero stay. IEEE-754 is general knowledge of the spec (log 17). -/
def Obligations.FloatSampleScaling : Prop :=
  ∀ (x g : Word), g ≠ 0 → g.toNat ≤ 0x7FFFFFFF →
    (isNaN32 x = true → fscale32 x g = 0x7FC00000) ∧
    (isNaN32 x = false →
      fscale32 x g = mul32 x (gainF32 g) ∧ isNaN32 (fscale32 x g) = false ∧ (fscale32 x g).msb = x.msb) ∧
    (∀ (neg : Bool) (m n : Nat) (e h : Int), value32 x = .fin neg m e → value32 (gainF32 g) = .fin false n h →
      ∃ (p : Nat) (y : Int), ratOf neg p y = ratOf neg m e * ratOf false n h ∧ fscale32 x g = round32 (.fin neg p y)) ∧
    (x = 0x7F800000 ∨ x = 0xFF800000 ∨ x = 0x00000000 ∨ x = 0x80000000 → fscale32 x g = x)

/-- R186, R191: widening binary32 to binary64 is always exact. A finite pattern keeps its sign and its value, an infinity
stays that infinity, and narrowing gives the sample back; a NaN stays a NaN, which in binary64 is one value of the model
(log 8). IEEE-754 is general knowledge of the spec (log 17). -/
def Obligations.WideningIsExact : Prop :=
  ∀ x : Word,
    (isNaN32 x = false →
      cvtF64F32 (cvtF32F64 x) = x ∧
      (∀ neg m e, value32 x = .fin neg m e →
        ∃ m' e', value64 (cvtF32F64 x) = .fin neg m' e' ∧ ratOf neg m' e' = ratOf neg m e) ∧
      (∀ neg, value32 x = .inf neg → value64 (cvtF32F64 x) = .inf neg)) ∧
    (isNaN32 x = true → cvtF32F64 x = .nan)

/-- R186, 00_scope.md R12: `round32` and `round64` round to nearest, ties to even. A magnitude below the overflow
threshold (`2^128 - 2^103`, `2^1024 - 2^970`) goes to a finite pattern of its sign that is at least as near as every
finite pattern, the even one of two equally near; any other goes to the infinity of its sign. IEEE-754 is general
knowledge of the spec (log 17). -/
def Obligations.RoundingIsNearestEven : Prop :=
  (∀ (neg : Bool) (m : Nat) (e : Int),
    (ratOf false m e < 2 ^ 128 - 2 ^ 103 →
      NearestFinite value32 (round32 (.fin neg m e)) ((round32 (.fin neg m e)).toNat % 2 = 0) neg (ratOf neg m e)) ∧
    (2 ^ 128 - 2 ^ 103 ≤ ratOf false m e →
      round32 (.fin neg m e) = if neg then 0xFF800000 else 0x7F800000)) ∧
  (∀ (neg : Bool) (m : Nat) (e : Int),
    (ratOf false m e < 2 ^ 1024 - 2 ^ 970 →
      ∃ d : BitVec 64, round64 (.fin neg m e) = .bits d ∧
        NearestFinite pattern64Value d (d.toNat % 2 = 0) neg (ratOf neg m e)) ∧
    (2 ^ 1024 - 2 ^ 970 ≤ ratOf false m e →
      round64 (.fin neg m e) = .bits (if neg then 0xFFF0000000000000 else 0x7FF0000000000000)))

/-- R227: the float final step. The result is always finite or `QNAN32`; in range it is the plain conversion, beyond
`FLT_MAX` the bound of its sign. -/
def Obligations.FloatFinalStep : Prop :=
  fsat32 .nan = 0x7FC00000 ∧
  (∀ d : F64, fsat32 d = 0x7FC00000 ∨ Finite32 (fsat32 d)) ∧
  (∀ (d : F64) (neg : Bool) (m : Nat) (e : Int), value64 d = .fin neg m e →
    (ratOf false m e ≤ (2 - 1 / 2 ^ 23) * 2 ^ 127 → fsat32 d = cvtF64F32 d) ∧
    ((2 - 1 / 2 ^ 23) * 2 ^ 127 < ratOf false m e → fsat32 d = if neg then 0xFF7FFFFF else 0x7F7FFFFF)) ∧
  (∀ (d : F64) (neg : Bool), value64 d = .inf neg → fsat32 d = if neg then 0xFF7FFFFF else 0x7F7FFFFF)

/-! ### VOL -/

/-- R201, R253: the prechecks of VOL in their order, the first that fails being the one reported; with none failing
VOL completes. -/
def Obligations.VolFaultOrder : Prop :=
  ∀ s : State, s.phase = .idle →
    (12 < s.spec.format.toNat → exec .vol s = .next (faulted s 2 ErrInfo.zero 3)) ∧
    ∀ f, formatOf s.spec = some f →
      (s.spec.channels.toNat = 0 ∨ 32 < s.spec.channels.toNat → exec .vol s = .next (faulted s 3 ErrInfo.zero 3)) ∧
      (1 ≤ s.spec.channels.toNat → s.spec.channels.toNat ≤ 32 →
        (s.volLen ≠ s.spec.channels → exec .vol s = .next (faulted s 5 ErrInfo.zero 3)) ∧
        (s.volLen = s.spec.channels →
          (∀ c < s.spec.channels.toNat, 0x7FFFFFFF < (gainAt s.vol c).toNat →
            (∀ c' < c, (gainAt s.vol c').toNat ≤ 0x7FFFFFFF) →
            exec .vol s = .next (faulted s 7 { ch := BitVec.ofNat 6 c, idx := 0, inp := false } 3)) ∧
          ((∀ c < s.spec.channels.toNat, (gainAt s.vol c).toNat ≤ 0x7FFFFFFF) →
            (s.dst.length.toNat % (fmtWidth f * s.spec.channels.toNat) ≠ 0 →
              exec .vol s = .next (faulted s 4 ErrInfo.zero 3)) ∧
            (s.dst.length.toNat % (fmtWidth f * s.spec.channels.toNat) = 0 →
              (2 ^ 32 < s.dst.base.toNat + s.dst.offset.toNat + s.dst.length.toNat →
                exec .vol s = .next (faulted s 10 ErrInfo.zero 3)) ∧
              (s.dst.base.toNat + s.dst.offset.toNat + s.dst.length.toNat ≤ 2 ^ 32 →
                (s.excl = false → exec .vol s = .next (faulted s 8 ErrInfo.zero 3)) ∧
                (s.excl = true → ∃ m, exec .vol s = .next { s with mem := m, done := true }))))))

/-- R200, R202, R203, R204, R66: VOL completes, and each sample of the destination chunk becomes the transform of its
OWN original bytes under its channel's gain; every byte outside the chunk and every register but STATUS stay. -/
def Obligations.VolTransformsEverySample : Prop :=
  ∀ (s : State) (f : Fmt), s.phase = .idle → memWf s.mem = true → VolOk f s →
    ∃ m, exec .vol s = .next { s with mem := m, done := true } ∧
      (∀ k < s.dst.length.toNat / fmtWidth f,
        let a := s.dst.base.toNat + s.dst.offset.toNat + k * fmtWidth f
        let g := gainAt s.vol (k % s.spec.channels.toNat)
        let bs := memRead s.mem a (fmtWidth f)
        memRead m a (fmtWidth f) =
          if g = 0x00010000 then bs
          else if g = 0 then zeroCode f
          else
            match f with
            | .int f => encInt f (clamp (intLo f) (intHi f) (imul (decInt f bs) g))
            | .flt f => encFlt f (fscale32 (decFlt f bs) g)) ∧
      (∀ a, (a < s.dst.base.toNat + s.dst.offset.toNat ∨
          s.dst.base.toNat + s.dst.offset.toNat + s.dst.length.toNat ≤ a) → readByte m a = readByte s.mem a)

/-- R187, R188, R206: under NORM on every channel VOL changes no byte of memory, whatever the bytes are; under MUTED on
every channel every sample becomes the zero code. -/
def Obligations.VolNormAndMutedLaws : Prop :=
  ∀ (s : State) (f : Fmt), s.phase = .idle → memWf s.mem = true → VolOk f s →
    ((∀ c < s.spec.channels.toNat, gainAt s.vol c = Config.volNorm) → exec .vol s = .next { s with done := true }) ∧
    ((∀ c < s.spec.channels.toNat, gainAt s.vol c = Config.volMuted) →
      ∃ m, exec .vol s = .next { s with mem := m, done := true } ∧
        ∀ k < sampleCount f s.dst, memRead m (sampleAddr f s.dst k) (fmtWidth f) = zeroCode f)

/-- R205: two VOL commands with equal SPEC, equal gains below `C` and equal chunk contents leave equal chunk contents,
wherever the chunks lie and whatever else differs. -/
def Obligations.VolDeterminism : Prop :=
  ∀ (s s' : State) (f : Fmt), s.phase = .idle → s'.phase = .idle → memWf s.mem = true → memWf s'.mem = true →
    VolOk f s → VolOk f s' → s.spec = s'.spec → s.dst.length = s'.dst.length →
    (∀ c < s.spec.channels.toNat, gainAt s.vol c = gainAt s'.vol c) →
    (∀ j < s.dst.length.toNat, readByte s.mem (chunkEA s.dst + j) = readByte s'.mem (chunkEA s'.dst + j)) →
    ∃ m m', exec .vol s = .next { s with mem := m, done := true } ∧
      exec .vol s' = .next { s' with mem := m', done := true } ∧
      ∀ j < s.dst.length.toNat, readByte m (chunkEA s.dst + j) = readByte m' (chunkEA s'.dst + j)

/-! ### MIX -/

/-- R221, R253: the prechecks of MIX in their order, those of input `i` before those of input `i+1`; with none failing
MIX completes. -/
def Obligations.MixFaultOrder : Prop :=
  ∀ (s : State) (nin : Nat), s.phase = .idle → nin < 64 →
    let bad (code : BitVec 4) (info : ErrInfo) : Prop :=
      exec (.mix nin) s = .next (faulted s code info (BitVec.ofNat 32 (4 + 256 * nin)))
    (32 < nin → bad 9 ErrInfo.zero) ∧
    (nin ≤ 32 →
      (12 < s.spec.format.toNat → bad 2 ErrInfo.zero) ∧
      ∀ f, formatOf s.spec = some f →
        (s.spec.channels.toNat = 0 ∨ 32 < s.spec.channels.toNat → bad 3 ErrInfo.zero) ∧
        (1 ≤ s.spec.channels.toNat → s.spec.channels.toNat ≤ 32 →
          (s.dst.length.toNat % (fmtWidth f * s.spec.channels.toNat) ≠ 0 → bad 4 ErrInfo.zero) ∧
          (s.dst.length.toNat % (fmtWidth f * s.spec.channels.toNat) = 0 →
            (2 ^ 32 < s.dst.base.toNat + s.dst.offset.toNat + s.dst.length.toNat → bad 10 ErrInfo.zero) ∧
            (s.dst.base.toNat + s.dst.offset.toNat + s.dst.length.toNat ≤ 2 ^ 32 →
              (s.excl = false → bad 8 ErrInfo.zero) ∧
              (s.excl = true →
                (∀ i < nin, (∀ i' < i, InputOk f s i') →
                  let x := inputAt s.inputs i
                  let on (ch : Nat) : ErrInfo := { ch := BitVec.ofNat 6 ch, idx := BitVec.ofNat 6 i, inp := true }
                  (x.spec ≠ s.spec ∨ x.rate ≠ s.rate → bad 6 (on 0)) ∧
                  (x.spec = s.spec → x.rate = s.rate →
                    (x.vlen ≠ s.spec.channels → bad 5 (on 0)) ∧
                    (x.vlen = s.spec.channels →
                      (∀ c < s.spec.channels.toNat, 0x7FFFFFFF < (gainAt x.vol c).toNat →
                        (∀ c' < c, (gainAt x.vol c').toNat ≤ 0x7FFFFFFF) → bad 7 (on c)) ∧
                      ((∀ c < s.spec.channels.toNat, (gainAt x.vol c).toNat ≤ 0x7FFFFFFF) →
                        (x.chunk.length.toNat % (fmtWidth f * s.spec.channels.toNat) ≠ 0 → bad 4 (on 0)) ∧
                        (x.chunk.length.toNat % (fmtWidth f * s.spec.channels.toNat) = 0 →
                          2 ^ 32 < x.chunk.base.toNat + x.chunk.offset.toNat + x.chunk.length.toNat →
                          bad 10 (on 0)))))) ∧
                ((∀ i < nin, InputOk f s i) →
                  ∃ m, exec (.mix nin) s = .next { s with mem := m, done := true }))))))

/-- R223, R225, R228, R230, R78: MIX on an integer format. Every output sample is the sum of the exact contributions of
the inputs that still have bytes, read from memory AS IT WAS, clipped once and encoded; every byte outside the
destination stays. For inputs no byte of which is overwritten before it is read. -/
def Obligations.MixIntegerSamples : Prop :=
  ∀ (s : State) (f : IntFmt) (nin : Nat), s.phase = .idle → memWf s.mem = true → MixOk (.int f) nin s →
    (∀ i < nin, ReadBeforeOverwritten s i) →
    ∃ m, exec (.mix nin) s = .next { s with mem := m, done := true } ∧
      (∀ k < s.dst.length.toNat / intWidth f,
        memRead m (chunkEA s.dst + k * intWidth f) (intWidth f) =
          encInt f (clamp (intLo f) (intHi f)
            (((List.range nin).map (fun i =>
              let x := inputAt s.inputs i
              if k * intWidth f + intWidth f ≤ x.chunk.length.toNat then
                imul (decInt f (memRead s.mem (chunkEA x.chunk + k * intWidth f) (intWidth f)))
                  (gainAt x.vol (k % s.spec.channels.toNat))
              else 0)).sum))) ∧
      (∀ a, (a < chunkEA s.dst ∨ chunkEA s.dst + s.dst.length.toNat ≤ a) → readByte m a = readByte s.mem a)

/-- R226, R227, R228, R229, R78: MIX on a float format, the contributions added in ascending input index from `+0.0`,
MUTED inputs skipped. -/
def Obligations.MixFloatSamples : Prop :=
  ∀ (s : State) (f : FltFmt) (nin : Nat), s.phase = .idle → memWf s.mem = true → MixOk (.flt f) nin s →
    (∀ i < nin, ReadBeforeOverwritten s i) →
    ∃ m, exec (.mix nin) s = .next { s with mem := m, done := true } ∧
      (∀ k < s.dst.length.toNat / 4,
        memRead m (chunkEA s.dst + k * 4) 4 =
          encFlt f (fsat32 ((List.range nin).foldl (fun acc i =>
            let x := inputAt s.inputs i
            let g := gainAt x.vol (k % s.spec.channels.toNat)
            if k * 4 + 4 ≤ x.chunk.length.toNat ∧ g ≠ 0 then
              add64 acc (fcontrib64 (decFlt f (memRead s.mem (chunkEA x.chunk + k * 4) 4)) g)
            else acc) (.bits 0)))) ∧
      (∀ a, (a < chunkEA s.dst ∨ chunkEA s.dst + s.dst.length.toNat ≤ a) → readByte m a = readByte s.mem a)

/-- R71, R78, R220: how MIX reads an input that overlaps the destination, in general. Output sample `k` is computed over
the memory in which the destination samples below `k` hold what this MIX wrote and every other byte is as it was. -/
def Obligations.MixReadsWhatItWrote : Prop :=
  ∀ (s : State) (f : Fmt) (nin : Nat), s.phase = .idle → memWf s.mem = true → MixOk f nin s →
    ∃ m, exec (.mix nin) s = .next { s with mem := m, done := true } ∧
      ∀ k < sampleCount f s.dst, ∃ mk : List Host.Cell,
        (∀ a, chunkEA s.dst ≤ a → a < sampleAddr f s.dst k → readByte mk a = readByte m a) ∧
        (∀ a, (a < chunkEA s.dst ∨ sampleAddr f s.dst k ≤ a) → readByte mk a = readByte s.mem a) ∧
        memRead m (sampleAddr f s.dst k) (fmtWidth f) = mixOut f (mixAccs f s mk k nin)

/-- R224: the 64-bit accumulator never saturates: after any number of inputs up to 32 with legal gains it holds the
exact sum of the contributions, at most `2^51` in magnitude. -/
def Obligations.AccumulatorIsExact : Prop :=
  ∀ (s : State) (f : IntFmt) (m : List Host.Cell) (k nin : Nat), nin ≤ 32 →
    (∀ i < nin, (mixGain s i k).toNat ≤ 0x7FFFFFFF) →
    (mixAccs (.int f) s m k nin).acc.toInt =
      ((List.range nin).map (fun i =>
        if k * intWidth f + intWidth f ≤ (inputAt s.inputs i).chunk.length.toNat then
          imul (decInt f (memRead m (sampleAddr (.int f) (inputAt s.inputs i).chunk k) (intWidth f))) (mixGain s i k)
        else 0)).sum ∧
    |(mixAccs (.int f) s m k nin).acc.toInt| ≤ 2 ^ 51

/-- R228, R231: an output sample to which no input contributes is the zero code, `NIN = 0` included. -/
def Obligations.MixSilenceWithoutInput : Prop :=
  ∀ (s : State) (f : Fmt) (nin : Nat), s.phase = .idle → memWf s.mem = true → MixOk f nin s →
    ∃ m, exec (.mix nin) s = .next { s with mem := m, done := true } ∧
      ∀ k < sampleCount f s.dst,
        (∀ i < nin, (inputAt s.inputs i).chunk.length.toNat < k * fmtWidth f + fmtWidth f) →
        memRead m (sampleAddr f s.dst k) (fmtWidth f) = zeroCode f

/-- R227, R230: whatever the inputs and however the chunks overlap, MIX on a float format leaves only finite samples
and `QNAN32` in the destination. -/
def Obligations.MixNeverWritesInfinity : Prop :=
  ∀ (s : State) (f : FltFmt) (nin : Nat), s.phase = .idle → memWf s.mem = true → MixOk (.flt f) nin s →
    ∃ m, exec (.mix nin) s = .next { s with mem := m, done := true } ∧
      ∀ k < sampleCount (.flt f) s.dst,
        decFlt f (memRead m (sampleAddr (.flt f) s.dst k) 4) = 0x7FC00000 ∨
        Finite32 (decFlt f (memRead m (sampleAddr (.flt f) s.dst k) 4))

/-- R231 with R227: a single float input at NORM is copied, a NaN becoming `QNAN32`, `-0.0` becoming `+0.0` and an
infinity the bound of its sign. -/
def Obligations.FloatNormCopy : Prop :=
  ∀ x : Word,
    fsat32 (add64 (.bits 0) (fcontrib64 x Config.volNorm)) =
      if isNaN32 x then 0x7FC00000
      else if x = 0x80000000 then 0x00000000
      else if x = 0x7F800000 then 0x7F7FFFFF
      else if x = 0xFF800000 then 0xFF7FFFFF
      else x

/-- R235: two complementary gains give the sample or the sample plus one unit. -/
def Obligations.HalfWeightWithinOneUnit : Prop :=
  ∀ s : Int,
    (∀ g g' : Word, g.toNat + g'.toNat = 0x10000 →
      imul s g + imul s g' = s ∨ imul s g + imul s g' = s + 1) ∧
    imul s 0x8000 + imul s 0x8000 = s + s % 2

/-- R236: the destination bytes of a completed MIX are a function of NIN, SPEC, DST_LENGTH, the inputs below NIN and the
bytes of the input chunks: what else memory and the registers hold has no influence. Where the two destinations are the
same chunk this holds however the chunks overlap; where they stand elsewhere, for inputs no byte of which is overwritten
before it is read (an overlap from below makes the result depend on where the destination stands, R78, R233). -/
def Obligations.MixPurity : Prop :=
  ∀ (s s' : State) (f : Fmt) (nin : Nat), s.phase = .idle → s'.phase = .idle → memWf s.mem = true →
    memWf s'.mem = true → MixOk f nin s → MixOk f nin s' → s.spec = s'.spec → s.dst.length = s'.dst.length →
    (s.dst = s'.dst ∨ ∀ i < nin, ReadBeforeOverwritten s i ∧ ReadBeforeOverwritten s' i) →
    (∀ i < nin, inputAt s.inputs i = inputAt s'.inputs i) →
    (∀ i < nin, ∀ j < (inputAt s.inputs i).chunk.length.toNat,
      readByte s.mem (chunkEA (inputAt s.inputs i).chunk + j) = readByte s'.mem (chunkEA (inputAt s.inputs i).chunk + j)) →
    ∃ m m', exec (.mix nin) s = .next { s with mem := m, done := true } ∧
      exec (.mix nin) s' = .next { s' with mem := m', done := true } ∧
      ∀ j < s.dst.length.toNat, readByte m (chunkEA s.dst + j) = readByte m' (chunkEA s'.dst + j)

/-! ### Faults, reset, the interrupt -/

/-- R254: a command that faults writes ERRCODE, ERRINFO and ERRCMD, leaves BUSY and DONE 0 and ERR 1, and changes
nothing else, whatever the command; the interrupt line then stands as `ERR_IE` says. -/
def Obligations.FaultHasNoOtherEffect : Prop :=
  ∀ (i : Instr) (s t : State), s.phase = .idle → i.WellFormed → exec i s = .next t → t.phase = .fault →
    t = faulted s t.errCode t.errInfo (encode i) ∧ 1 ≤ t.errCode.toNat ∧ t.errCode.toNat ≤ 10 ∧ irq t = s.inten.errIe

/-- R251: which codes a command can raise. -/
def Obligations.FaultCodesByCommand : Prop :=
  ∀ s t : State, s.phase = .idle → t.phase = .fault →
    (exec .dec s = .next t → t.errCode = 2) ∧ (exec .enc s = .next t → t.errCode = 2) ∧
    (exec .vol s = .next t →
      t.errCode = 2 ∨ t.errCode = 3 ∨ t.errCode = 4 ∨ t.errCode = 5 ∨ t.errCode = 7 ∨ t.errCode = 8 ∨ t.errCode = 10) ∧
    (∀ nin, exec (.mix nin) s = .next t → 2 ≤ t.errCode.toNat ∧ t.errCode.toNat ≤ 10)

/-- R47: what a completed or faulted command may change: DEC writes CANON, ENC writes SMP, VOL and MIX write bytes of
the destination chunk, a faulting command the error registers and nothing else; no other operand register, nor INTEN,
ever changes. The model's own fields `pending`, `pace` and `rdata` (log 1, 2, 3) stay too. -/
def Obligations.CommandFrame : Prop :=
  ∀ (i : Instr) (s t : State), exec i s = .next t →
    t.spec = s.spec ∧ t.rate = s.rate ∧ t.dst = s.dst ∧ t.excl = s.excl ∧ t.volLen = s.volLen ∧ t.vol = s.vol ∧
    t.inputs = s.inputs ∧ t.inten = s.inten ∧ t.pending = s.pending ∧ t.pace = s.pace ∧ t.rdata = s.rdata ∧
    (i ≠ .dec → t.canon = s.canon) ∧ (i ≠ .enc → t.smp = s.smp) ∧
    (i = .dec ∨ i = .enc → t.mem = s.mem) ∧
    (t.phase ≠ .fault → t.errCode = s.errCode ∧ t.errInfo = s.errInfo ∧ t.errCmd = s.errCmd) ∧
    (t.phase = .fault → t.mem = s.mem ∧ t.canon = s.canon ∧ t.smp = s.smp) ∧
    (∀ a, (a < chunkEA s.dst ∨ chunkEA s.dst + s.dst.length.toNat ≤ a) → readByte t.mem a = readByte s.mem a)

/-- R257 (with R256, R258): FAULT is left by the hardware reset and by a `CTRL` write with bit 0 set, which clear every
register, and by no other step; until then ERRCODE, ERRINFO and ERRCMD keep the first fault. -/
def Obligations.FaultLeftOnlyByReset : Prop :=
  ∀ s t : State, s.phase = .fault → step s = .next t →
    ((∃ rest, s.pending = .hardReset :: rest ∨
        ∃ w : Word, w.getLsbD 0 = true ∧ s.pending = .write 0x0008 w :: rest) ∧ t.phase = .idle ∧
      ∀ off r, regAt off = some r → readReg t r = 0) ∨
    (t.phase = .fault ∧ t.errCode = s.errCode ∧ t.errInfo = s.errInfo ∧ t.errCmd = s.errCmd)

/-- R46, R291, R292: a soft reset, in any STATE, leaves every register of the window reading 0, the block in IDLE, the
interrupt low and memory as it was; so does the hardware reset. -/
def Obligations.ResetClearsEveryRegister : Prop :=
  ∀ (s : State) (act : HostAct) (rest : List HostAct), s.pending = act :: rest →
    (act = .hardReset ∨ ∃ w : Word, w.getLsbD 0 = true ∧ act = .write 0x0008 w) →
    ∃ t, step s = .next t ∧ t.mem = s.mem ∧ t.phase = .idle ∧ irq t = false ∧
      ∀ off r, regAt off = some r → readReg t r = 0

/-- R46, R290: the machine right after reset. -/
def Obligations.ResetState : Prop :=
  State.reset.phase = .idle ∧ irq State.reset = false ∧ ∀ off r, regAt off = some r → readReg State.reset r = 0

/-- R260, R34: the interrupt equation over the registers a host reads, in every state; and the line after a command, as
the enables say. -/
def Obligations.InterruptFollowsOutcome : Prop :=
  (∀ s : State, irq s = (((readReg s .status).getLsbD 1 && (readReg s .inten).getLsbD 0) ||
    ((readReg s .status).getLsbD 2 && (readReg s .inten).getLsbD 1))) ∧
  ∀ (i : Instr) (s t : State), s.phase = .idle → exec i s = .next t →
    (t.phase = .idle ∧ t.done = true ∧ irq t = s.inten.doneIe) ∨
    (t.phase = .fault ∧ t.done = false ∧ irq t = s.inten.errIe)

/-- R264, R256: with no act of the host left, an idle or a faulted block waits unchanged; and between commands the host's
writes and reads of sample memory are served (R76). In BUSY a step with nothing pending, or with the act that gives the
block time, is a tick. What a step is when nothing is pending (log 4), the tick (log 2) and where a read's answer stands
(log 3, 23) are the model's choices. -/
def Obligations.IdleBlockWaitsBusyBlockTicks : Prop :=
  ∀ (s : State) (addr : Word) (b : Byte) (rest : List HostAct),
    ((∀ job, s.phase ≠ .busy job) →
      (s.pending = [] → step s = .next s) ∧
      (s.pending = .run :: rest → step s = .next { s with pending := rest }) ∧
      (s.pending = .store addr b :: rest →
        step s = .next { s with pending := rest, mem := writeByte s.mem addr.toNat b }) ∧
      (s.pending = .load addr :: rest →
        step s = .next { s with pending := rest, rdata := (readByte s.mem addr.toNat).setWidth 32 })) ∧
    (∀ job, s.phase = .busy job →
      (s.pending = [] → step s = tick s) ∧ (s.pending = .run :: rest → step s = tick { s with pending := rest }))

/-! ### The register port -/

/-- R44: the offsets of the global registers, of the Volume vector and of the input banks; what is listed nowhere is
reserved; a misaligned or outside offset is no access (20_memory.md R62). -/
def Obligations.RegisterMap : Prop :=
  ([0x00, 0x04, 0x08, 0x0C, 0x10, 0x14, 0x18, 0x1C, 0x20, 0x24, 0x28, 0x2C, 0x30, 0x34, 0x38, 0x3C].map regAt =
    [PortReg.cmd, .status, .ctrl, .inten, .errCode, .errInfo, .smp, .canon, .spec, .rate, .dstBase, .dstOffset,
      .dstLength, .dstAttr, .volLen, .errCmd].map some) ∧
  (∀ c < 32, regAt (0x80 + 4 * c) = some (.vol c)) ∧
  (∀ i < 32, regAt (0x1000 + 0x100 * i) = some (.input i .base) ∧
    regAt (0x1000 + 0x100 * i + 0x04) = some (.input i .offset) ∧
    regAt (0x1000 + 0x100 * i + 0x08) = some (.input i .length) ∧
    regAt (0x1000 + 0x100 * i + 0x0C) = some (.input i .spec) ∧
    regAt (0x1000 + 0x100 * i + 0x10) = some (.input i .rate) ∧
    regAt (0x1000 + 0x100 * i + 0x14) = some (.input i .vlen) ∧
    (∀ c < 32, regAt (0x1000 + 0x100 * i + 0x80 + 4 * c) = some (.input i (.vol c)))) ∧
  (∀ off, off % 4 = 0 → (0x40 ≤ off ∧ off < 0x80) ∨ (0x100 ≤ off ∧ off < 0x1000) ∨ (0x3000 ≤ off ∧ off < 0x4000) ∨
      (0x1000 ≤ off ∧ off < 0x3000 ∧ 0x18 ≤ off % 0x100 ∧ off % 0x100 < 0x80) →
    regAt off = some .reserved) ∧
  (∀ off, (off % 4 ≠ 0 ∨ 0x4000 ≤ off) ↔ regAt off = none)

/-- R97, R98, R44, R95: every line of the host notation as its register accesses. A register name stands for the one
offset of its register and a format name for its tag, tags 13 to 15 being no format; the lines that issue commands write words that decode to them. `WAIT`
outside BUSY is one read of `STATUS`; in BUSY it reads `STATUS`, stays, and the block goes on by one tick (how it does,
and where the answer stands, are the model's choices, log 25, 2, 3). That the formulas hold for numbers beyond the
registers too is the model's choice (log 27). -/
def Obligations.HostLinesAreAccesses : Prop :=
  (∀ off r, regAt off = some r → r ≠ .reserved → offsetOf r = off) ∧
  (∀ r v, expand (.wr r v) = [.write (offsetOf r) v]) ∧
  (∀ r, expand (.rd r) = [.read (offsetOf r)]) ∧
  (expand (.issue .dec) = [.write 0x0000 1] ∧ expand (.issue .enc) = [.write 0x0000 2] ∧
    expand (.issue .vol) = [.write 0x0000 3] ∧
    ∀ n : Nat, expand (.issue (.mix n)) = [.write 0x0000 (BitVec.ofNat 32 (4 + n * 2 ^ 8))]) ∧
  (∀ i : Instr, i.WellFormed → ∃ w : Word, expand (.issue i) = [.write 0x0000 w] ∧ decode w = .ok i) ∧
  expand .ack = [.write 0x0004 2] ∧ expand .reset = [.write 0x0008 1] ∧
  ((List.range 16).map (fun n => fmtOfTag (BitVec.ofNat 4 n)) =
    [some (.int .u8), some (.int .alaw), some (.int .ulaw), some (.int .s16le), some (.int .s16be), some (.int .s24le),
      some (.int .s24be), some (.int .s24in32le), some (.int .s24in32be), some (.int .s32le), some (.int .s32be),
      some (.flt .float32le), some (.flt .float32be), none, none, none]) ∧
  (∀ f : Fmt, ∃ tag : BitVec 4, tag.toNat = tagOf f ∧ fmtOfTag tag = some f) ∧
  (∀ f ch rate, expand (.setSpec f ch rate) =
    [.write 0x0020 (BitVec.ofNat 32 (tagOf f + ch * 2 ^ 8)), .write 0x0024 rate]) ∧
  (∀ base off len, expand (.setDst base off len) =
    [.write 0x0028 base, .write 0x002C off, .write 0x0030 len, .write 0x0034 1]) ∧
  (∀ gains : List Word, expand (.setVol gains) =
    .write 0x0038 (BitVec.ofNat 32 gains.length) ::
      (List.range gains.length).map (fun c => .write (0x0080 + 4 * c) (gains.getD c 0))) ∧
  (∀ i f ch rate base off len, expand (.setIn i f ch rate base off len) =
    [.write (0x1000 + 0x100 * i) base, .write (0x1000 + 0x100 * i + 0x04) off, .write (0x1000 + 0x100 * i + 0x08) len,
      .write (0x1000 + 0x100 * i + 0x0C) (BitVec.ofNat 32 (tagOf f + ch * 2 ^ 8)),
      .write (0x1000 + 0x100 * i + 0x10) rate]) ∧
  (∀ (i : Nat) (gains : List Word), expand (.setInVol i gains) =
    .write (0x1000 + 0x100 * i + 0x14) (BitVec.ofNat 32 gains.length) ::
      (List.range gains.length).map (fun c => .write (0x1000 + 0x100 * i + 0x80 + 4 * c) (gains.getD c 0))) ∧
  expand .wait = [.wait] ∧
  (∀ (s : State) (rest : List HostAct), s.pending = .wait :: rest →
    ((∀ job, s.phase ≠ .busy job) → step s = .next { s with pending := rest, rdata := readReg s .status }) ∧
    (∀ job, s.phase = .busy job → step s = tick { s with rdata := readReg s .status }) ∧
    (∀ job t, s.phase = .busy job → step s = .next t → t.pending = .wait :: rest))

/-- R21, R44: outside BUSY a write to a readable and writable register is read back without its reserved bits, and a
read of any other such register is unchanged. -/
def Obligations.RegisterReadBack : Prop :=
  ∀ (s : State) (off : Nat) (r : PortReg) (bits w : Word) (rest : List HostAct),
    regAt off = some r → keptBits r = some bits → (∀ job, s.phase ≠ .busy job) → s.pending = .write off w :: rest →
    ∃ t, step s = .next t ∧ readReg t r = w &&& bits ∧
      (∀ off' r', regAt off' = some r' → off' ≠ off → readReg t r' = readReg s r') ∧
      t.mem = s.mem ∧ t.phase = s.phase

/-- R34, R36, R256: outside BUSY a `STATUS` write clears DONE exactly when bit 1 is set and does nothing else; a `CTRL`
write with bit 0 clear, and a write to a read-only register or a reserved offset, does nothing. -/
def Obligations.StatusWriteClearsDone : Prop :=
  ∀ (s : State) (off : Nat) (w : Word) (rest : List HostAct), s.pending = .write off w :: rest →
    (∀ job, s.phase ≠ .busy job) →
    (off = 0x0004 → step s = .next { s with pending := rest, done := if w.getLsbD 1 then false else s.done }) ∧
    (off = 0x0008 → w.getLsbD 0 = false → step s = .next { s with pending := rest }) ∧
    (off = 0x0010 ∨ off = 0x0014 ∨ off = 0x003C ∨ regAt off = some .reserved →
      step s = .next { s with pending := rest })

/-- R296, R76, R36, R291: while BUSY every register write but one to `CTRL` is discarded, a `CTRL` write with bit 0 set
resets the block and one with bit 0 clear does nothing; reads answer in every STATE and change nothing of the block.
R21 to R40: the word each register reads as, over the fields of the state, every other bit 0; `CMD`, `CTRL` and a
reserved offset read 0. Where the answer stands (log 3) is the model's choice. -/
def Obligations.BusyDiscardsWrites : Prop :=
  (∀ (s : State) (off : Nat) (r : PortReg) (w : Word) (rest : List HostAct), regAt off = some r →
    (∀ job, s.phase = .busy job → s.pending = .write off w :: rest →
      (off ≠ 0x0008 → step s = .next { s with pending := rest }) ∧
      (off = 0x0008 → w.getLsbD 0 = false → step s = .next { s with pending := rest }) ∧
      (off = 0x0008 → w.getLsbD 0 = true → step s = .next (resetBlock { s with pending := rest }))) ∧
    (s.pending = .read off :: rest → step s = .next { s with pending := rest, rdata := readReg s r })) ∧
  ∀ s : State,
    (readReg s .status).toNat =
      (match s.phase with
        | .idle => 0
        | .busy _ => 1
        | .fault => 4) + (if s.done then 2 else 0) ∧
    (readReg s .errCode).toNat = s.errCode.toNat ∧
    (readReg s .errInfo).toNat =
      s.errInfo.ch.toNat + 2 ^ 8 * s.errInfo.idx.toNat + (if s.errInfo.inp then 2 ^ 16 else 0) ∧
    readReg s .errCmd = s.errCmd ∧
    readReg s .cmd = 0 ∧ readReg s .ctrl = 0 ∧ readReg s .reserved = 0 ∧
    (readReg s .inten).toNat = (if s.inten.doneIe then 1 else 0) + (if s.inten.errIe then 2 else 0) ∧
    readReg s .smp = s.smp ∧ readReg s .canon = s.canon ∧ readReg s .rate = s.rate ∧
    (readReg s .spec).toNat = s.spec.format.toNat + 2 ^ 8 * s.spec.channels.toNat ∧
    readReg s .dstBase = s.dst.base ∧ readReg s .dstOffset = s.dst.offset ∧ readReg s .dstLength = s.dst.length ∧
    (readReg s .dstAttr).toNat = (if s.excl then 1 else 0) ∧ (readReg s .volLen).toNat = s.volLen.toNat ∧
    (∀ (c : Nat) (h : c < 32), readReg s (.vol c) = s.vol[c]) ∧
    (∀ (i : Nat) (h : i < 32),
      readReg s (.input i .base) = s.inputs[i].chunk.base ∧ readReg s (.input i .offset) = s.inputs[i].chunk.offset ∧
      readReg s (.input i .length) = s.inputs[i].chunk.length ∧
      (readReg s (.input i .spec)).toNat = s.inputs[i].spec.format.toNat + 2 ^ 8 * s.inputs[i].spec.channels.toNat ∧
      readReg s (.input i .rate) = s.inputs[i].rate ∧ (readReg s (.input i .vlen)).toNat = s.inputs[i].vlen.toNat ∧
      (∀ (c : Nat) (h' : c < 32), readReg s (.input i (.vol c)) = s.inputs[i].vol[c]))

/-- R62, 93_implementation_defined.md U3: a misaligned or outside access is refused, in every STATE. The refusal is the
model's choice (log 10); the spec says only that it is no access to PA-CORE. -/
def Obligations.OutsideAccessRefused : Prop :=
  ∀ (s : State) (off : Nat) (w : Word) (rest : List HostAct), off % 4 ≠ 0 ∨ 0x4000 ≤ off →
    (s.pending = .write off w :: rest → step s = .refused (.notAPortAccess off)) ∧
    (s.pending = .read off :: rest → step s = .refused (.notAPortAccess off))

/-! ### The BUSY window -/

/-- R299, R70, R71, R76: a command accepted in IDLE and left to run by itself, one byte access at a time, reaches exactly
the state `exec` gives, within the bound, for every command and every operand. The tick is the model's (log 2). -/
def Obligations.StepwiseEqualsAtOnce : Prop :=
  ∀ (s : State) (w : Word) (i : Instr) (n : Nat), s.phase = .idle → decode w = .ok i → tickBound s i ≤ n →
    tickN n (accept w s) = exec i s

/-- R60, R64, R204: one tick (the model's, log 2) changes at most one byte of memory, inside the destination chunk, and
no operand register but SMP in the decode tick of ENC and CANON in that of DEC; the error registers change in the decode
tick only. -/
def Obligations.TickWritesOneByte : Prop :=
  ∀ s t : State, tick s = .next t →
    (t.mem = s.mem ∨ ∃ a b, inChunk s.dst a = true ∧ t.mem = writeByte s.mem a b) ∧
    (t.smp = s.smp ∨ ∃ w, s.phase = .busy (.accepted w) ∧ decode w = .ok .enc) ∧
    (t.canon = s.canon ∨ ∃ w, s.phase = .busy (.accepted w) ∧ decode w = .ok .dec) ∧
    ((t.errCode = s.errCode ∧ t.errInfo = s.errInfo ∧ t.errCmd = s.errCmd) ∨ ∃ w, s.phase = .busy (.accepted w)) ∧
    t.spec = s.spec ∧ t.rate = s.rate ∧ t.dst = s.dst ∧ t.excl = s.excl ∧ t.volLen = s.volLen ∧ t.vol = s.vol ∧
    t.inputs = s.inputs ∧ t.inten = s.inten ∧ t.pending = s.pending ∧ t.pace = s.pace ∧ t.rdata = s.rdata

/-- R290, R291, 93_implementation_defined.md U8: wherever a VOL or a MIX is abandoned, the samples below some index are
the command's result, those above are the old bytes, and the one at the boundary is written byte-wise ascending; the
reset that abandons it changes no byte. The tick is the model's (log 2). -/
def Obligations.AbandonedCommandLeavesPrefix : Prop :=
  ∀ (s t : State) (f : Fmt) (n : Nat), s.phase = .idle → memWf s.mem = true →
    (VolOk f s → tickN n (accept 3 s) = .next t →
      ∃ k j, j ≤ fmtWidth f ∧
        (∀ a, a < sampleAddr f s.dst k + j → readByte t.mem a = readByte (volMem f s (sampleCount f s.dst)) a) ∧
        (∀ a, sampleAddr f s.dst k + j ≤ a → readByte t.mem a = readByte s.mem a) ∧
        (resetBlock t).mem = t.mem) ∧
    (∀ nin : Nat, MixOk f nin s → tickN n (accept (encode (.mix nin)) s) = .next t →
      ∃ k j, j ≤ fmtWidth f ∧
        (∀ a, a < sampleAddr f s.dst k + j → readByte t.mem a = readByte (mixMem f nin s (sampleCount f s.dst)) a) ∧
        (∀ a, sampleAddr f s.dst k + j ≤ a → readByte t.mem a = readByte s.mem a) ∧
        (resetBlock t).mem = t.mem)

/-- R73, R294, 93_implementation_defined.md U6: from its acceptance on, while VOL or MIX runs, a host write to a byte of
its destination or of an input chunk is refused, and so is a read of a byte of its destination; every other host access
is served, a read of an input chunk among them ("harmless"), and so is every one while DEC, ENC or an illegal word is
about to be decoded. The refusal (log 11) and where a load's answer stands (log 3, 23) are the model's choices. -/
def Obligations.RunningChunkIsGuarded : Prop :=
  ∀ (s : State) (addr : Word) (b : Byte) (rest : List HostAct),
    let stored := step s = .next { s with pending := rest, mem := writeByte s.mem addr.toNat b }
    let loaded := step s = .next { s with pending := rest, rdata := (readByte s.mem addr.toNat).setWidth 32 }
    (∀ i : Instr, Runs s i →
      let inDst := (i = .vol ∨ ∃ nin, i = .mix nin) ∧ inChunk s.dst addr.toNat = true
      let inInput := ∃ nin, i = .mix nin ∧ ∃ k < nin, inChunk (inputAt s.inputs k).chunk addr.toNat = true
      (s.pending = .store addr b :: rest →
        (inDst ∨ inInput → step s = .refused (.chunkTouched addr.toNat)) ∧ (¬ inDst → ¬ inInput → stored)) ∧
      (s.pending = .load addr :: rest →
        (inDst → step s = .refused (.chunkTouched addr.toNat)) ∧ (¬ inDst → loaded))) ∧
    (∀ w why, s.phase = .busy (.accepted w) → decode w = .error why →
      (s.pending = .store addr b :: rest → stored) ∧ (s.pending = .load addr :: rest → loaded))

/-! ### The invariant -/

/-- Every step keeps the invariant, from every state that has it: memory in its canonical form (log 5), DONE in IDLE
only, the error registers 0 outside FAULT and a code of 1 to 10 in it, a running command past its prechecks with its
counters in range. -/
def Obligations.StepKeepsInvariant : Prop := ∀ s t : State, StateInv s → step s = .next t → StateInv t

/-- The invariant holds after reset. -/
def Obligations.ResetHasInvariant : Prop := StateInv State.reset

/-- R65, R255, R10: from a state with the invariant no step stops with a fault: no access of a running command ever
leaves the address space. The stop itself is the model's (log 12). -/
def Obligations.NoAccessLeavesMemory : Prop := ∀ (s : State) (r : Fault), StateInv s → step s ≠ .fault r

/-! ### The float operations -/

/-- R186: the float operations give the exact result, rounded once. A product or sum of finite operands is the rounding
of a pair that denotes the exact product or sum, with the sign of a zero by the IEEE rules; NaNs and infinities by their
rules. With RoundingIsNearestEven this fixes `mul32`, `mul64`, `add64` and the conversions on every operand. IEEE-754 is
general knowledge of the spec (log 17), and a binary64 NaN has no payload in the model (log 8). -/
def Obligations.FloatOperationsRoundExactResults : Prop :=
  (∀ (a b : Word) (s t : Bool) (m n : Nat) (e g : Int), value32 a = .fin s m e → value32 b = .fin t n g →
    ∃ (p : Nat) (x : Int), ratOf (s ^^ t) p x = ratOf s m e * ratOf t n g ∧ mul32 a b = round32 (.fin (s ^^ t) p x)) ∧
  (∀ (a b : F64) (s t : Bool) (m n : Nat) (e g : Int), value64 a = .fin s m e → value64 b = .fin t n g →
    (∃ (p : Nat) (x : Int), ratOf (s ^^ t) p x = ratOf s m e * ratOf t n g ∧ mul64 a b = round64 (.fin (s ^^ t) p x)) ∧
    (∃ (u : Bool) (p : Nat) (x : Int), ratOf u p x = ratOf s m e + ratOf t n g ∧ add64 a b = round64 (.fin u p x) ∧
      (p = 0 → u = (s && t)))) ∧
  (∀ (a b : Word) (s t : Bool) (m : Nat) (e : Int),
    (value32 a = .nan ∨ value32 b = .nan → mul32 a b = 0x7FC00000) ∧
    (value32 a = .inf s → value32 b = .inf t → value32 (mul32 a b) = .inf (s ^^ t)) ∧
    (value32 a = .inf s → value32 b = .fin t m e →
      mul32 a b = mul32 b a ∧ (m = 0 → mul32 a b = 0x7FC00000) ∧
      (m ≠ 0 → value32 (mul32 a b) = .inf (s ^^ t)))) ∧
  (∀ (a b : F64) (s t : Bool) (m : Nat) (e : Int),
    (value64 a = .nan ∨ value64 b = .nan → mul64 a b = .nan ∧ add64 a b = .nan) ∧
    (value64 a = .inf s → value64 b = .inf t →
      value64 (mul64 a b) = .inf (s ^^ t) ∧ (s = t → value64 (add64 a b) = .inf s) ∧ (s ≠ t → add64 a b = .nan)) ∧
    (value64 a = .inf s → value64 b = .fin t m e →
      mul64 a b = mul64 b a ∧ (m = 0 → mul64 a b = .nan) ∧ (m ≠ 0 → value64 (mul64 a b) = .inf (s ^^ t)) ∧
      value64 (add64 a b) = .inf s ∧ value64 (add64 b a) = .inf s)) ∧
  (∀ n : Word, cvtU32F32 n = round32 (.fin false n.toNat 0)) ∧
  (∀ d : F64, cvtF64F32 d = round32 (value64 d))
end

