-- ==== Sys2Proof/Laws/State.lean ====
section
/-! SUPPORT. One lemma per field per update of State, true by rfl: no later proof unfolds an update. -/

namespace Sys2Proof.Machine

@[simp] theorem accept_smp (w : Word) (s : State) : (accept w s).smp = s.smp := rfl
@[simp] theorem accept_canon (w : Word) (s : State) : (accept w s).canon = s.canon := rfl
@[simp] theorem accept_spec (w : Word) (s : State) : (accept w s).spec = s.spec := rfl
@[simp] theorem accept_rate (w : Word) (s : State) : (accept w s).rate = s.rate := rfl
@[simp] theorem accept_dst (w : Word) (s : State) : (accept w s).dst = s.dst := rfl
@[simp] theorem accept_excl (w : Word) (s : State) : (accept w s).excl = s.excl := rfl
@[simp] theorem accept_volLen (w : Word) (s : State) : (accept w s).volLen = s.volLen := rfl
@[simp] theorem accept_vol (w : Word) (s : State) : (accept w s).vol = s.vol := rfl
@[simp] theorem accept_inputs (w : Word) (s : State) : (accept w s).inputs = s.inputs := rfl
@[simp] theorem accept_inten (w : Word) (s : State) : (accept w s).inten = s.inten := rfl
@[simp] theorem accept_errCode (w : Word) (s : State) : (accept w s).errCode = s.errCode := rfl
@[simp] theorem accept_errInfo (w : Word) (s : State) : (accept w s).errInfo = s.errInfo := rfl
@[simp] theorem accept_errCmd (w : Word) (s : State) : (accept w s).errCmd = s.errCmd := rfl
@[simp] theorem accept_done (w : Word) (s : State) : (accept w s).done = false := rfl
@[simp] theorem accept_phase (w : Word) (s : State) : (accept w s).phase = .busy (.accepted w) := rfl
@[simp] theorem accept_mem (w : Word) (s : State) : (accept w s).mem = s.mem := rfl
@[simp] theorem accept_pending (w : Word) (s : State) : (accept w s).pending = s.pending := rfl
@[simp] theorem accept_pace (w : Word) (s : State) : (accept w s).pace = s.pace := rfl
@[simp] theorem accept_rdata (w : Word) (s : State) : (accept w s).rdata = s.rdata := rfl

@[simp] theorem complete_smp (s : State) : (complete s).smp = s.smp := rfl
@[simp] theorem complete_canon (s : State) : (complete s).canon = s.canon := rfl
@[simp] theorem complete_spec (s : State) : (complete s).spec = s.spec := rfl
@[simp] theorem complete_rate (s : State) : (complete s).rate = s.rate := rfl
@[simp] theorem complete_dst (s : State) : (complete s).dst = s.dst := rfl
@[simp] theorem complete_excl (s : State) : (complete s).excl = s.excl := rfl
@[simp] theorem complete_volLen (s : State) : (complete s).volLen = s.volLen := rfl
@[simp] theorem complete_vol (s : State) : (complete s).vol = s.vol := rfl
@[simp] theorem complete_inputs (s : State) : (complete s).inputs = s.inputs := rfl
@[simp] theorem complete_inten (s : State) : (complete s).inten = s.inten := rfl
@[simp] theorem complete_errCode (s : State) : (complete s).errCode = s.errCode := rfl
@[simp] theorem complete_errInfo (s : State) : (complete s).errInfo = s.errInfo := rfl
@[simp] theorem complete_errCmd (s : State) : (complete s).errCmd = s.errCmd := rfl
@[simp] theorem complete_done (s : State) : (complete s).done = true := rfl
@[simp] theorem complete_phase (s : State) : (complete s).phase = .idle := rfl
@[simp] theorem complete_mem (s : State) : (complete s).mem = s.mem := rfl
@[simp] theorem complete_pending (s : State) : (complete s).pending = s.pending := rfl
@[simp] theorem complete_pace (s : State) : (complete s).pace = s.pace := rfl
@[simp] theorem complete_rdata (s : State) : (complete s).rdata = s.rdata := rfl

@[simp] theorem raise_smp (w : Word) (v : Violation) (s : State) : (raise w v s).smp = s.smp := rfl
@[simp] theorem raise_canon (w : Word) (v : Violation) (s : State) : (raise w v s).canon = s.canon := rfl
@[simp] theorem raise_spec (w : Word) (v : Violation) (s : State) : (raise w v s).spec = s.spec := rfl
@[simp] theorem raise_rate (w : Word) (v : Violation) (s : State) : (raise w v s).rate = s.rate := rfl
@[simp] theorem raise_dst (w : Word) (v : Violation) (s : State) : (raise w v s).dst = s.dst := rfl
@[simp] theorem raise_excl (w : Word) (v : Violation) (s : State) : (raise w v s).excl = s.excl := rfl
@[simp] theorem raise_volLen (w : Word) (v : Violation) (s : State) : (raise w v s).volLen = s.volLen := rfl
@[simp] theorem raise_vol (w : Word) (v : Violation) (s : State) : (raise w v s).vol = s.vol := rfl
@[simp] theorem raise_inputs (w : Word) (v : Violation) (s : State) : (raise w v s).inputs = s.inputs := rfl
@[simp] theorem raise_inten (w : Word) (v : Violation) (s : State) : (raise w v s).inten = s.inten := rfl
@[simp] theorem raise_errCode (w : Word) (v : Violation) (s : State) : (raise w v s).errCode = errNum v.code := rfl
@[simp] theorem raise_errInfo (w : Word) (v : Violation) (s : State) : (raise w v s).errInfo = v.info := rfl
@[simp] theorem raise_errCmd (w : Word) (v : Violation) (s : State) : (raise w v s).errCmd = w := rfl
@[simp] theorem raise_done (w : Word) (v : Violation) (s : State) : (raise w v s).done = false := rfl
@[simp] theorem raise_phase (w : Word) (v : Violation) (s : State) : (raise w v s).phase = .fault := rfl
@[simp] theorem raise_mem (w : Word) (v : Violation) (s : State) : (raise w v s).mem = s.mem := rfl
@[simp] theorem raise_pending (w : Word) (v : Violation) (s : State) : (raise w v s).pending = s.pending := rfl
@[simp] theorem raise_pace (w : Word) (v : Violation) (s : State) : (raise w v s).pace = s.pace := rfl
@[simp] theorem raise_rdata (w : Word) (v : Violation) (s : State) : (raise w v s).rdata = s.rdata := rfl

@[simp] theorem withJob_smp (s : State) (job : Job) : (withJob s job).smp = s.smp := rfl
@[simp] theorem withJob_canon (s : State) (job : Job) : (withJob s job).canon = s.canon := rfl
@[simp] theorem withJob_spec (s : State) (job : Job) : (withJob s job).spec = s.spec := rfl
@[simp] theorem withJob_rate (s : State) (job : Job) : (withJob s job).rate = s.rate := rfl
@[simp] theorem withJob_dst (s : State) (job : Job) : (withJob s job).dst = s.dst := rfl
@[simp] theorem withJob_excl (s : State) (job : Job) : (withJob s job).excl = s.excl := rfl
@[simp] theorem withJob_volLen (s : State) (job : Job) : (withJob s job).volLen = s.volLen := rfl
@[simp] theorem withJob_vol (s : State) (job : Job) : (withJob s job).vol = s.vol := rfl
@[simp] theorem withJob_inputs (s : State) (job : Job) : (withJob s job).inputs = s.inputs := rfl
@[simp] theorem withJob_inten (s : State) (job : Job) : (withJob s job).inten = s.inten := rfl
@[simp] theorem withJob_errCode (s : State) (job : Job) : (withJob s job).errCode = s.errCode := rfl
@[simp] theorem withJob_errInfo (s : State) (job : Job) : (withJob s job).errInfo = s.errInfo := rfl
@[simp] theorem withJob_errCmd (s : State) (job : Job) : (withJob s job).errCmd = s.errCmd := rfl
@[simp] theorem withJob_done (s : State) (job : Job) : (withJob s job).done = s.done := rfl
@[simp] theorem withJob_phase (s : State) (job : Job) : (withJob s job).phase = .busy job := rfl
@[simp] theorem withJob_mem (s : State) (job : Job) : (withJob s job).mem = s.mem := rfl
@[simp] theorem withJob_pending (s : State) (job : Job) : (withJob s job).pending = s.pending := rfl
@[simp] theorem withJob_pace (s : State) (job : Job) : (withJob s job).pace = s.pace := rfl
@[simp] theorem withJob_rdata (s : State) (job : Job) : (withJob s job).rdata = s.rdata := rfl

@[simp] theorem resetBlock_smp (s : State) : (resetBlock s).smp = State.reset.smp := rfl
@[simp] theorem resetBlock_canon (s : State) : (resetBlock s).canon = State.reset.canon := rfl
@[simp] theorem resetBlock_spec (s : State) : (resetBlock s).spec = State.reset.spec := rfl
@[simp] theorem resetBlock_rate (s : State) : (resetBlock s).rate = State.reset.rate := rfl
@[simp] theorem resetBlock_dst (s : State) : (resetBlock s).dst = State.reset.dst := rfl
@[simp] theorem resetBlock_excl (s : State) : (resetBlock s).excl = State.reset.excl := rfl
@[simp] theorem resetBlock_volLen (s : State) : (resetBlock s).volLen = State.reset.volLen := rfl
@[simp] theorem resetBlock_vol (s : State) : (resetBlock s).vol = State.reset.vol := rfl
@[simp] theorem resetBlock_inputs (s : State) : (resetBlock s).inputs = State.reset.inputs := rfl
@[simp] theorem resetBlock_inten (s : State) : (resetBlock s).inten = State.reset.inten := rfl
@[simp] theorem resetBlock_errCode (s : State) : (resetBlock s).errCode = State.reset.errCode := rfl
@[simp] theorem resetBlock_errInfo (s : State) : (resetBlock s).errInfo = State.reset.errInfo := rfl
@[simp] theorem resetBlock_errCmd (s : State) : (resetBlock s).errCmd = State.reset.errCmd := rfl
@[simp] theorem resetBlock_done (s : State) : (resetBlock s).done = State.reset.done := rfl
@[simp] theorem resetBlock_phase (s : State) : (resetBlock s).phase = State.reset.phase := rfl
@[simp] theorem resetBlock_mem (s : State) : (resetBlock s).mem = s.mem := rfl
@[simp] theorem resetBlock_pending (s : State) : (resetBlock s).pending = s.pending := rfl
@[simp] theorem resetBlock_pace (s : State) : (resetBlock s).pace = s.pace := rfl
@[simp] theorem resetBlock_rdata (s : State) : (resetBlock s).rdata = s.rdata := rfl

@[simp] theorem hardReset_eq (s : State) : hardReset s = resetBlock s := rfl
@[simp] theorem softReset_eq (s : State) : softReset s = resetBlock s := rfl

end Sys2Proof.Machine
end

