-- ==== Sys2Proof/Laws/Memory.lean ====
section
/-! SUPPORT. The laws of memory: reading after writing, the canonical form, byte lists. -/

namespace Sys2Proof.Machine

/-- A write leaves every other byte as it was. -/
theorem readByte_writeByte_ne (m : List Host.Cell) {a x : Nat} (b : Byte) (h : x ≠ a) :
    readByte (writeByte m a b) x = readByte m x := by
  induction m with
  | nil => by_cases hb : b = Config.unwritten <;> simp [writeByte, readByte, hb, Ne.symm h]
  | cons c r ih =>
    obtain ⟨k, v⟩ := c
    unfold writeByte
    split
    · split
      · rfl
      · simp [readByte, Ne.symm h]
    · split
      · rename_i h2
        have hk : k ≠ x := by omega
        split <;> simp [readByte, hk, Ne.symm h]
      · simp only [readByte, ih]

/-- Below the first listed address memory reads as unwritten. -/
theorem readByte_of_wfFrom {lo a : Nat} (m : List Host.Cell) (h : memWfFrom lo m = true) (ha : a < lo) :
    readByte m a = Config.unwritten := by
  induction m generalizing lo with
  | nil => rfl
  | cons c r ih =>
    obtain ⟨k, v⟩ := c
    simp only [memWfFrom, Bool.and_eq_true, decide_eq_true_eq] at h
    have hk : k ≠ a := by omega
    simp only [readByte, hk, if_false]
    exact ih h.2 (by omega)

theorem memWfFrom_mono {lo lo' : Nat} (m : List Host.Cell) (h : memWfFrom lo m = true) (hl : lo' ≤ lo) :
    memWfFrom lo' m = true := by
  cases m with
  | nil => rfl
  | cons c r =>
    obtain ⟨k, v⟩ := c
    simp only [memWfFrom, Bool.and_eq_true, decide_eq_true_eq] at h ⊢
    exact ⟨⟨⟨by omega, h.1.1.2⟩, h.1.2⟩, h.2⟩

/-- A write keeps the canonical form. -/
theorem memWfFrom_writeByte {lo a : Nat} (m : List Host.Cell) (b : Byte) (h : memWfFrom lo m = true) (hl : lo ≤ a)
    (ha : a < Config.memSize) : memWfFrom lo (writeByte m a b) = true := by
  induction m generalizing lo with
  | nil => by_cases hb : b = Config.unwritten <;> simp [writeByte, memWfFrom, hb, hl, ha]
  | cons c r ih =>
    obtain ⟨k, v⟩ := c
    have h' := h
    simp only [memWfFrom, Bool.and_eq_true, decide_eq_true_eq] at h
    obtain ⟨⟨⟨h1, h2⟩, h3⟩, h4⟩ := h
    unfold writeByte
    split
    · split
      · exact h'
      · simp only [memWfFrom, Bool.and_eq_true, decide_eq_true_eq]
        exact ⟨⟨⟨hl, ha⟩, ‹_›⟩, ⟨⟨by omega, h2⟩, h3⟩, h4⟩
    · split
      · split
        · exact memWfFrom_mono r h4 (by omega)
        · simp only [memWfFrom, Bool.and_eq_true, decide_eq_true_eq]
          exact ⟨⟨⟨hl, ha⟩, ‹_›⟩, by subst a; exact h4⟩
      · simp only [memWfFrom, Bool.and_eq_true, decide_eq_true_eq]
        exact ⟨⟨⟨h1, h2⟩, h3⟩, ih h4 (by omega)⟩

theorem memWf_writeByte {a : Nat} {m : List Host.Cell} (b : Byte) (h : memWf m = true) (ha : a < Config.memSize) :
    memWf (writeByte m a b) = true := memWfFrom_writeByte m b h (Nat.zero_le _) ha

theorem readByte_writeByte_eq_from {lo : Nat} (m : List Host.Cell) (a : Nat) (b : Byte) (h : memWfFrom lo m = true) :
    readByte (writeByte m a b) a = b := by
  induction m generalizing lo with
  | nil => by_cases hb : b = Config.unwritten <;> simp [writeByte, readByte, hb]
  | cons c r ih =>
    obtain ⟨k, v⟩ := c
    have h' := h
    simp only [memWfFrom, Bool.and_eq_true, decide_eq_true_eq] at h
    unfold writeByte
    split
    · split
      · rename_i h1 hb
        have hk : k ≠ a := by omega
        simp only [readByte, hk, if_false, hb]
        exact readByte_of_wfFrom r h.2 (by omega)
      · simp [readByte]
    · split
      · split
        · rename_i hb; rw [hb]; exact readByte_of_wfFrom r h.2 (by omega)
        · simp [readByte]
      · rename_i h1 h2
        have hk : k ≠ a := fun e => h2 e.symm
        simp only [readByte, hk, if_false]
        exact ih h.2

/-- A read after a write to the same place gives the value written. -/
theorem readByte_writeByte_eq {m : List Host.Cell} (a : Nat) (b : Byte) (h : memWf m = true) :
    readByte (writeByte m a b) a = b := readByte_writeByte_eq_from m a b h

theorem readByte_cons_ne {k x : Nat} (v : Byte) (r : List Host.Cell) (h : k ≠ x) :
    readByte ((k, v) :: r) x = readByte r x := by simp [readByte, h]

theorem mem_ext_from (m : List Host.Cell) : ∀ {lo : Nat} (m' : List Host.Cell), memWfFrom lo m = true →
    memWfFrom lo m' = true → (∀ a, readByte m a = readByte m' a) → m = m' := by
  induction m with
  | nil =>
    intro lo m' _ h' e
    cases m' with
    | nil => rfl
    | cons c r =>
      obtain ⟨k, v⟩ := c
      simp only [memWfFrom, Bool.and_eq_true, decide_eq_true_eq] at h'
      exact absurd (by simpa [readByte] using (e k).symm) h'.1.2
  | cons c r ih =>
    obtain ⟨k, v⟩ := c
    intro lo m' h h' e
    simp only [memWfFrom, Bool.and_eq_true, decide_eq_true_eq] at h
    cases m' with
    | nil => exact absurd (by simpa [readByte] using e k) h.1.2
    | cons c' r' =>
      obtain ⟨k', v'⟩ := c'
      simp only [memWfFrom, Bool.and_eq_true, decide_eq_true_eq] at h'
      have hk : k = k' := by
        rcases Nat.lt_trichotomy k k' with hlt | heq | hgt
        · have := e k
          rw [readByte_cons_ne v' r' (by omega), readByte_of_wfFrom r' h'.2 (by omega)] at this
          exact absurd (by simpa [readByte] using this) h.1.2
        · exact heq
        · have := e k'
          rw [readByte_cons_ne v r (by omega), readByte_of_wfFrom r h.2 (by omega)] at this
          exact absurd (by simpa [readByte] using this.symm) h'.1.2
      subst hk
      have hv : v = v' := by simpa [readByte] using e k
      subst hv
      have := ih r' h.2 h'.2 (fun a => by
        by_cases ha : k = a
        · subst ha
          rw [readByte_of_wfFrom r h.2 (by omega), readByte_of_wfFrom r' h'.2 (by omega)]
        · simpa [readByte, ha] using e a)
      rw [this]

/-- Memories in canonical form that read alike are the same data. -/
theorem mem_ext {m m' : List Host.Cell} (h : memWf m = true) (h' : memWf m' = true)
    (e : ∀ a, readByte m a = readByte m' a) : m = m' := mem_ext_from m m' h h' e

/-! ### Byte lists -/

theorem memWf_memWrite (bs : List Byte) : ∀ {m : List Host.Cell} {a : Nat}, memWf m = true →
    a + bs.length ≤ Config.memSize → memWf (memWrite m a bs) = true := by
  induction bs with
  | nil => intro m a h _; exact h
  | cons b bs ih =>
    intro m a h ha
    simp only [List.length_cons] at ha
    exact ih (memWf_writeByte b h (by omega)) (by omega)

/-- A list write leaves every byte outside it as it was. -/
theorem readByte_memWrite_outside (bs : List Byte) : ∀ (m : List Host.Cell) {a x : Nat},
    (x < a ∨ a + bs.length ≤ x) → readByte (memWrite m a bs) x = readByte m x := by
  induction bs with
  | nil => intro m a x _; rfl
  | cons b bs ih =>
    intro m a x h
    simp only [List.length_cons] at h
    rw [memWrite, ih _ (by omega), readByte_writeByte_ne _ _ (by omega)]

/-- A list write puts byte `j` of the list at `a + j`. -/
theorem readByte_memWrite_inside (bs : List Byte) : ∀ {m : List Host.Cell} {a : Nat} (j : Nat), memWf m = true →
    a + bs.length ≤ Config.memSize → j < bs.length → readByte (memWrite m a bs) (a + j) = bs.getD j 0 := by
  induction bs with
  | nil => intro m a j _ _ hj; simp at hj
  | cons b bs ih =>
    intro m a j h ha hj
    simp only [List.length_cons] at ha hj
    cases j with
    | zero =>
      rw [memWrite, readByte_memWrite_outside _ _ (by omega)]
      simpa using readByte_writeByte_eq a b h
    | succ j =>
      rw [memWrite, show a + (j + 1) = (a + 1) + j by omega, ih j (memWf_writeByte b h (by omega)) (by omega) (by omega)]
      simp

@[simp] theorem memRead_length (m : List Host.Cell) (a n : Nat) : (memRead m a n).length = n := by simp [memRead]

/-- `memRead` depends only on the bytes it reads. -/
theorem memRead_congr {m m' : List Host.Cell} {a n : Nat}
    (h : ∀ j < n, readByte m (a + j) = readByte m' (a + j)) : memRead m a n = memRead m' a n := by
  simp only [memRead]
  exact List.map_congr_left (fun j hj => h j (List.mem_range.mp hj))

theorem memRead_eq_iff {m m' : List Host.Cell} {a a' n : Nat} :
    memRead m a n = memRead m' a' n ↔ ∀ j < n, readByte m (a + j) = readByte m' (a' + j) := by
  simp only [memRead, List.map_inj_left, List.mem_range]

/-- Reading back what was just written. -/
theorem memRead_memWrite_same {m : List Host.Cell} {a : Nat} {bs : List Byte} (h : memWf m = true)
    (ha : a + bs.length ≤ Config.memSize) : memRead (memWrite m a bs) a bs.length = bs := by
  apply List.ext_getElem (by simp)
  intro j h1 h2
  simp only [memRead, List.getElem_map, List.getElem_range]
  rw [readByte_memWrite_inside bs j h ha h2]
  simp [h2]

/-- Reading elsewhere. -/
theorem memRead_memWrite_disjoint (m : List Host.Cell) {a x n : Nat} (bs : List Byte)
    (h : x + n ≤ a ∨ a + bs.length ≤ x) : memRead (memWrite m a bs) x n = memRead m x n :=
  memRead_congr (fun j hj => readByte_memWrite_outside bs m (by omega))

/-- Writing a list in two parts: bytes `0 .. j-1`, then byte `j`. -/
theorem memWrite_append (bs cs : List Byte) : ∀ (m : List Host.Cell) (a : Nat),
    memWrite m a (bs ++ cs) = memWrite (memWrite m a bs) (a + bs.length) cs := by
  induction bs with
  | nil => intro m a; rfl
  | cons b bs ih =>
    intro m a
    simp only [List.cons_append, memWrite, List.length_cons]
    rw [ih]
    congr 1
    omega

theorem memRead_succ (m : List Host.Cell) (a n : Nat) : memRead m a (n + 1) = memRead m a n ++ [readByte m (a + n)] := by
  simp [memRead, List.range_succ]

theorem memWrite_take_succ (m : List Host.Cell) (a j : Nat) {out : List Byte} (h : j < out.length) :
    memWrite m a (out.take (j + 1)) = writeByte (memWrite m a (out.take j)) (a + j) (byteAt out j) := by
  rw [List.take_succ_eq_append_getElem h, memWrite_append]
  simp [memWrite, byteAt, h, Nat.min_eq_left (Nat.le_of_lt h)]

/-- Reset's memory is in canonical form. -/
theorem reset_memWf : memWf State.reset.mem = true := rfl

end Sys2Proof.Machine
end

