-- ==== Sys2Proof/Laws/Codec.lean ====
section
/-! SUPPORT. Lengths of encoded samples, the words of the commands, and what issuing a command does. -/

namespace Sys2Proof.Machine

@[simp] theorem encInt_length (f : IntFmt) (v : Int) : (encInt f v).length = intWidth f := by cases f <;> rfl

@[simp] theorem encFlt_length (f : FltFmt) (u : Word) : (encFlt f u).length = 4 := by cases f <;> rfl

@[simp] theorem encSat_length (f : IntFmt) (v : Int) : (encSat f v).length = intWidth f := encInt_length f _

@[simp] theorem zeroCode_length (f : Fmt) : (zeroCode f).length = fmtWidth f := by
  cases f <;> simp [zeroCode, fmtWidth]

@[simp] theorem scaleSample_length (f : Fmt) (g : Word) (bs : List Byte) : (scaleSample f g bs).length = fmtWidth f := by
  cases f <;> simp [scaleSample, fmtWidth]

@[simp] theorem mixOut_length (f : Fmt) (a : Accs) : (mixOut f a).length = fmtWidth f := by
  cases f <;> simp [mixOut, fmtWidth]

theorem fmtWidth_pos (f : Fmt) : 0 < fmtWidth f := by
  cases f with
  | int f => cases f <;> decide
  | flt f => simp [fmtWidth]

theorem fmtWidth_le (f : Fmt) : fmtWidth f ≤ 4 := by
  cases f with
  | int f => cases f <;> decide
  | flt f => simp [fmtWidth]

/-- A tag is a format's exactly when it is at most 12 (R95). -/
theorem formatOf_eq_none_iff (sp : SpecReg) : formatOf sp = none ↔ 12 < sp.format.toNat := by
  have : ∀ t : BitVec 4, fmtOfTag t = none ↔ 12 < t.toNat := by decide
  exact this sp.format

theorem formatOf_le {sp : SpecReg} {f : Fmt} (h : formatOf sp = some f) : sp.format.toNat ≤ 12 := by
  by_contra hc
  rw [(formatOf_eq_none_iff sp).mpr (by omega)] at h
  cases h

/-- What issuing a command does, in one place. -/
theorem issue_idle_ok {w : Word} {body : State → Except Violation State} {s t : State} (hs : s.phase = .idle)
    (hb : body s = .ok t) : issue w body s = complete t := by simp [issue, hs, hb]

theorem issue_idle_error {w : Word} {body : State → Except Violation State} {s : State} {v : Violation}
    (hs : s.phase = .idle) (hb : body s = .error v) : issue w body s = raise w v s := by simp [issue, hs, hb]

theorem issue_not_idle {w : Word} {body : State → Except Violation State} {s : State} (hs : s.phase ≠ .idle) :
    issue w body s = s := by
  unfold issue
  split
  · contradiction
  · rfl

/-- Every outcome of issuing a command: discarded, completed or faulted. -/
theorem issue_cases (w : Word) (body : State → Except Violation State) (s : State) :
    (s.phase ≠ .idle ∧ issue w body s = s) ∨
    (s.phase = .idle ∧ ∃ t, body s = .ok t ∧ issue w body s = complete t) ∨
    (s.phase = .idle ∧ ∃ v, body s = .error v ∧ issue w body s = raise w v s) := by
  by_cases hs : s.phase = .idle
  · cases hb : body s with
    | ok t => exact .inr (.inl ⟨hs, t, rfl, issue_idle_ok hs hb⟩)
    | error v => exact .inr (.inr ⟨hs, v, rfl, issue_idle_error hs hb⟩)
  · exact .inl ⟨hs, issue_not_idle hs⟩

/-- The body of each command. -/
def bodyOf : Instr → State → Except Violation State
  | .dec => decBody
  | .enc => encBody
  | .vol => volBody
  | .mix nin => mixBody nin

/-- `exec` never stops: it issues the command. -/
theorem exec_eq_issue (i : Instr) (s : State) : exec i s = .next (issue (encode i) (bodyOf i) s) := by cases i <;> rfl

/-- What a command's body can do: write `CANON`, write `SMP`, or write memory. -/
theorem body_cases {i : Instr} {s t : State} (h : bodyOf i s = .ok t) :
    (∃ f, i = .dec ∧ formatOf s.spec = some f ∧ t = { s with canon := decodedCanon f s.smp }) ∨
    (∃ f, i = .enc ∧ formatOf s.spec = some f ∧ t = { s with smp := encodedSmp f s.canon }) ∨
    (∃ f, i = .vol ∧ volCheck s = .ok f ∧ t = { s with mem := volMem f s (sampleCount f s.dst) }) ∨
    (∃ f nin, i = .mix nin ∧ mixCheck nin s = .ok f ∧ t = { s with mem := mixMem f nin s (sampleCount f s.dst) }) := by
  cases i with
  | dec =>
    simp only [bodyOf, decBody] at h
    split at h
    · cases h
    · exact .inl ⟨_, rfl, ‹_›, by simpa using h.symm⟩
  | enc =>
    simp only [bodyOf, encBody] at h
    split at h
    · cases h
    · exact .inr (.inl ⟨_, rfl, ‹_›, by simpa using h.symm⟩)
  | vol =>
    simp only [bodyOf, volBody] at h
    split at h
    · cases h
    · exact .inr (.inr (.inl ⟨_, rfl, ‹_›, by simpa using h.symm⟩))
  | mix nin =>
    simp only [bodyOf, mixBody] at h
    split at h
    · cases h
    · exact .inr (.inr (.inr ⟨_, nin, rfl, ‹_›, by simpa using h.symm⟩))

end Sys2Proof.Machine
end

