-- ==== Sys2Proof/Laws/Checks.lean ====
section
/-! SUPPORT. What the prechecks of VOL and MIX say: one lemma for a pass and one per check. -/

namespace Sys2Proof.Machine

theorem badGain_eq_none_iff (v : Vector Word 32) (n : Nat) :
    badGain v n = none ↔ ∀ c < n, (gainAt v c).toNat ≤ 0x7FFFFFFF := by
  simp [badGain, List.find?_eq_none, Config.volMax]

theorem badGain_eq_some {v : Vector Word 32} {n c : Nat} (hc : c < n) (hb : 0x7FFFFFFF < (gainAt v c).toNat)
    (hlow : ∀ c' < c, (gainAt v c').toNat ≤ 0x7FFFFFFF) : badGain v n = some c := by
  simp only [badGain, Config.volMax]
  rw [List.find?_range_eq_some]
  refine ⟨by simpa using hb, by simpa using hc, fun j hj => ?_⟩
  simpa using hlow j hj

theorem badGain_some_spec {v : Vector Word 32} {n c : Nat} (h : badGain v n = some c) :
    c < n ∧ 0x7FFFFFFF < (gainAt v c).toNat := by
  have h1 := List.find?_some h
  have h2 := List.mem_of_find?_eq_some h
  exact ⟨by simpa using h2, by simpa [Config.volMax] using h1⟩

theorem badChannels_iff (sp : SpecReg) :
    badChannels sp = true ↔ sp.channels.toNat = 0 ∨ 32 < sp.channels.toNat := by
  unfold badChannels
  rw [Bool.or_eq_true, decide_eq_true_eq, decide_eq_true_eq]
  exact Iff.rfl

theorem badLength_iff (f : Fmt) (n : Nat) (c : Chunk) :
    badLength f n c = true ↔ c.length.toNat % (fmtWidth f * n) ≠ 0 := by
  unfold badLength
  rw [decide_eq_true_eq]
  exact Iff.rfl

theorem addrWraps_iff (c : Chunk) :
    addrWraps c = true ↔ 2 ^ 32 < c.base.toNat + c.offset.toNat + c.length.toNat := by
  unfold addrWraps
  rw [decide_eq_true_eq]
  exact Iff.rfl

/-- A pass of VOL's prechecks, check by check (R201). -/
theorem volCheck_eq_ok_iff (s : State) (f : Fmt) :
    volCheck s = .ok f ↔
      formatOf s.spec = some f ∧ badChannels s.spec = false ∧ s.volLen.toNat = channelsOf s.spec ∧
      badGain s.vol (channelsOf s.spec) = none ∧ badLength f (channelsOf s.spec) s.dst = false ∧
      addrWraps s.dst = false ∧ s.excl = true := by
  constructor
  · intro h
    cases hf : formatOf s.spec with
    | none => simp [volCheck, hf] at h
    | some g =>
      by_cases h3 : s.volLen.toNat = channelsOf s.spec <;> cases h1 : badChannels s.spec <;>
        cases h4 : badGain s.vol (channelsOf s.spec) <;> cases h5 : badLength g (channelsOf s.spec) s.dst <;>
        cases h6 : addrWraps s.dst <;> cases h7 : s.excl <;> simp_all [volCheck]
  · rintro ⟨h1, h2, h3, h4, h5, h6, h7⟩
    simp [volCheck, h1, h2, h3, h4, h5, h6, h7]

/-- No check of input `i` fails (R221). -/
theorem inputCheck_eq_none_iff (f : Fmt) (s : State) (i : Nat) :
    inputCheck f s i = none ↔
      (inputAt s.inputs i).spec = s.spec ∧ (inputAt s.inputs i).rate = s.rate ∧
      (inputAt s.inputs i).vlen.toNat = channelsOf s.spec ∧
      badGain (inputAt s.inputs i).vol (channelsOf s.spec) = none ∧
      badLength f (channelsOf s.spec) (inputAt s.inputs i).chunk = false ∧
      addrWraps (inputAt s.inputs i).chunk = false := by
  constructor
  · intro h
    by_cases h1 : (inputAt s.inputs i).spec = s.spec <;> by_cases h2 : (inputAt s.inputs i).rate = s.rate <;>
      by_cases h3 : (inputAt s.inputs i).vlen.toNat = channelsOf s.spec <;>
      cases h4 : badGain (inputAt s.inputs i).vol (channelsOf s.spec) <;>
      cases h5 : badLength f (channelsOf s.spec) (inputAt s.inputs i).chunk <;>
      cases h6 : addrWraps (inputAt s.inputs i).chunk <;> simp_all [inputCheck]
  · rintro ⟨h1, h2, h3, h4, h5, h6⟩
    simp [inputCheck, h1, h2, h3, h4, h5, h6]

theorem inputsCheck_eq_none_iff (f : Fmt) (s : State) (nin : Nat) :
    inputsCheck f s nin = none ↔ ∀ i < nin, inputCheck f s i = none := by
  simp [inputsCheck, List.findSome?_eq_none_iff]

/-- The first input with a failing check is the one reported (R221). -/
theorem inputsCheck_eq_some {f : Fmt} {s : State} {nin i : Nat} {v : Violation} (hi : i < nin)
    (hv : inputCheck f s i = some v) (hlow : ∀ i' < i, inputCheck f s i' = none) : inputsCheck f s nin = some v := by
  have : List.range nin = List.range i ++ i :: (List.range (nin - i - 1)).map (fun x => i + 1 + x) := by
    apply List.ext_getElem
    · simp; omega
    · intro n h1 h2
      simp only [List.getElem_range, List.getElem_append, List.length_range, List.getElem_cons, List.getElem_map]
      split
      · rfl
      · split <;> omega
  rw [inputsCheck, this, List.findSome?_append]
  have h0 : List.findSome? (inputCheck f s) (List.range i) = none := by
    simp only [List.findSome?_eq_none_iff, List.mem_range]
    exact hlow
  simp [h0, hv]

/-- A pass of MIX's prechecks, check by check (R221). -/
theorem mixCheck_eq_ok_iff (nin : Nat) (s : State) (f : Fmt) :
    mixCheck nin s = .ok f ↔
      nin ≤ 32 ∧ formatOf s.spec = some f ∧ badChannels s.spec = false ∧
      badLength f (channelsOf s.spec) s.dst = false ∧ addrWraps s.dst = false ∧ s.excl = true ∧
      ∀ i < nin, inputCheck f s i = none := by
  rw [← inputsCheck_eq_none_iff]
  constructor
  · intro h
    by_cases h0 : 32 < nin
    · simp [mixCheck, Config.nMax, h0] at h
    · cases hf : formatOf s.spec with
      | none => simp [mixCheck, Config.nMax, h0, hf] at h
      | some g =>
        cases h1 : badChannels s.spec <;> cases h5 : badLength g (channelsOf s.spec) s.dst <;>
          cases h6 : addrWraps s.dst <;> cases h7 : s.excl <;> cases h8 : inputsCheck g s nin <;>
          simp_all [mixCheck, Config.nMax]
  · rintro ⟨h1, h2, h3, h4, h5, h6, h7⟩
    have : ¬ 32 < nin := by omega
    simp [mixCheck, Config.nMax, this, h2, h3, h4, h5, h6, h7]

/-- The samples of a checked chunk fill it exactly (20_memory.md R66). -/
theorem samples_fill {f : Fmt} {n : Nat} {c : Chunk} (h : badLength f n c = false) :
    sampleCount f c * fmtWidth f = c.length.toNat := by
  have h' : c.length.toNat % (fmtWidth f * n) = 0 := by
    by_contra hc
    rw [(badLength_iff f n c).mpr hc] at h
    cases h
  exact Nat.div_mul_cancel (Nat.dvd_of_mod_eq_zero (Nat.mod_mul_right_mod _ _ _ ▸ by rw [h']; simp))

/-- A checked chunk ends inside memory (20_memory.md R65). -/
theorem chunk_in_memory {c : Chunk} (h : addrWraps c = false) : chunkEA c + c.length.toNat ≤ Config.memSize := by
  simpa [addrWraps] using h

/-- Sample `k` of a chunk lies inside the chunk. -/
theorem sample_in_chunk {f : Fmt} {c : Chunk} {k : Nat} (hk : k < sampleCount f c) :
    sampleAddr f c k + fmtWidth f ≤ chunkEA c + c.length.toNat := by
  have h1 : (k + 1) * fmtWidth f ≤ sampleCount f c * fmtWidth f := Nat.mul_le_mul_right _ hk
  have h2 : sampleCount f c * fmtWidth f ≤ c.length.toNat := Nat.div_mul_le_self _ _
  rw [Nat.add_mul] at h1
  simp only [sampleAddr]
  omega

theorem sampleAddr_succ (f : Fmt) (c : Chunk) (k : Nat) :
    sampleAddr f c (k + 1) = sampleAddr f c k + fmtWidth f := by
  simp [sampleAddr, Nat.add_mul, Nat.add_assoc]

theorem sampleAddr_mono {f : Fmt} {c : Chunk} {k l : Nat} (h : k < l) :
    sampleAddr f c k + fmtWidth f ≤ sampleAddr f c l := by
  rw [← sampleAddr_succ]
  simp only [sampleAddr]
  have := Nat.mul_le_mul_right (fmtWidth f) (show k + 1 ≤ l from h)
  omega

end Sys2Proof.Machine
end

