-- ==== Sys2Proof/Laws/Scaler.lean ====
section
/-! SUPPORT. What VOL does to memory: one sample, the first `n` samples, the whole chunk. -/

namespace Sys2Proof.Machine

/-- The bytes VOL leaves of one sample with bytes `bs` under gain `g` (43_volume_scaler.md R202). -/
def volBytes (f : Fmt) (g : Word) (bs : List Byte) : List Byte :=
  if g = Config.volNorm then bs else if g = Config.volMuted then zeroCode f else scaleSample f g bs

theorem volBytes_length {f : Fmt} {g : Word} {bs : List Byte} (h : bs.length = fmtWidth f) :
    (volBytes f g bs).length = fmtWidth f := by
  unfold volBytes
  split
  · exact h
  · split <;> simp

/-- Outside its sample `volSample` changes nothing. -/
theorem readByte_volSample_outside (f : Fmt) {a x : Nat} (g : Word) (m : List Host.Cell)
    (h : x < a ∨ a + fmtWidth f ≤ x) : readByte (volSample f a g m) x = readByte m x := by
  unfold volSample
  split
  · rfl
  · split
    · exact readByte_memWrite_outside _ _ (by simpa using h)
    · exact readByte_memWrite_outside _ _ (by simpa using h)

theorem memWf_volSample {f : Fmt} {a : Nat} (g : Word) {m : List Host.Cell} (h : memWf m = true)
    (ha : a + fmtWidth f ≤ Config.memSize) : memWf (volSample f a g m) = true := by
  unfold volSample
  split
  · exact h
  · split
    · exact memWf_memWrite _ h (by simpa using ha)
    · exact memWf_memWrite _ h (by simpa using ha)

/-- The sample itself becomes `volBytes` of its own bytes. -/
theorem memRead_volSample {f : Fmt} {a : Nat} (g : Word) {m : List Host.Cell} (h : memWf m = true)
    (ha : a + fmtWidth f ≤ Config.memSize) :
    memRead (volSample f a g m) a (fmtWidth f) = volBytes f g (memRead m a (fmtWidth f)) := by
  unfold volSample volBytes
  split
  · rfl
  · split
    · simpa using memRead_memWrite_same (bs := zeroCode f) h (by simpa using ha)
    · simpa using memRead_memWrite_same (bs := scaleSample f g (memRead m a (fmtWidth f))) h (by simpa using ha)

/-- Past the first `n` samples memory is as it was. -/
theorem readByte_volMem_above (f : Fmt) (s : State) {a : Nat} : ∀ n, sampleAddr f s.dst n ≤ a →
    readByte (volMem f s n) a = readByte s.mem a
  | 0, _ => rfl
  | n + 1, h => by
    rw [sampleAddr_succ] at h
    rw [volMem, readByte_volSample_outside _ _ _ (.inr (by omega))]
    exact readByte_volMem_above f s n (by omega)

/-- Below the chunk memory is as it was. -/
theorem readByte_volMem_below (f : Fmt) (s : State) {a : Nat} (h : a < chunkEA s.dst) : ∀ n,
    readByte (volMem f s n) a = readByte s.mem a
  | 0 => rfl
  | n + 1 => by
    rw [volMem, readByte_volSample_outside _ _ _ (.inl (by simp only [sampleAddr]; omega))]
    exact readByte_volMem_below f s h n

/-- A later sample does not disturb what lies below it. -/
theorem readByte_volMem_stable (f : Fmt) (s : State) {a n : Nat} (h : a < sampleAddr f s.dst n) : ∀ d,
    readByte (volMem f s (n + d)) a = readByte (volMem f s n) a
  | 0 => rfl
  | d + 1 => by
    have hs : sampleAddr f s.dst n ≤ sampleAddr f s.dst (n + d) :=
      Nat.add_le_add_left (Nat.mul_le_mul_right _ (Nat.le_add_right n d)) _
    rw [← Nat.add_assoc, volMem, readByte_volSample_outside _ _ _ (.inl (by omega))]
    exact readByte_volMem_stable f s h d

theorem memWf_volMem {f : Fmt} {s : State} (hm : memWf s.mem = true) (hw : addrWraps s.dst = false) :
    ∀ n ≤ sampleCount f s.dst, memWf (volMem f s n) = true
  | 0, _ => hm
  | n + 1, h => by
    have h1 := sample_in_chunk (f := f) (c := s.dst) (k := n) h
    have h2 := chunk_in_memory hw
    exact memWf_volSample _ (memWf_volMem hm hw n (by omega)) (by omega)

/-- Sample `k`, once done, is `volBytes` of what memory held there at the start. -/
theorem memRead_volMem {f : Fmt} {s : State} (hm : memWf s.mem = true) (hw : addrWraps s.dst = false) {k n : Nat}
    (hk : k < n) (hn : n ≤ sampleCount f s.dst) :
    memRead (volMem f s n) (sampleAddr f s.dst k) (fmtWidth f) =
      volBytes f (volGain s k) (memRead s.mem (sampleAddr f s.dst k) (fmtWidth f)) := by
  obtain ⟨d, rfl⟩ : ∃ d, n = k + 1 + d := ⟨n - (k + 1), by omega⟩
  have h1 := sample_in_chunk (f := f) (c := s.dst) (k := k) (by omega)
  have h2 := chunk_in_memory hw
  rw [memRead_congr (m' := volMem f s (k + 1)) (fun j hj =>
    readByte_volMem_stable f s (by rw [sampleAddr_succ]; omega) d)]
  rw [volMem, memRead_volSample _ (memWf_volMem hm hw k (by omega)) (by omega)]
  rw [memRead_congr (fun j hj => readByte_volMem_above f s k (by omega))]

/-- Outside the chunk VOL changes no byte. -/
theorem readByte_volMem_outside (f : Fmt) (s : State) {a : Nat}
    (h : a < chunkEA s.dst ∨ chunkEA s.dst + s.dst.length.toNat ≤ a) :
    readByte (volMem f s (sampleCount f s.dst)) a = readByte s.mem a := by
  rcases h with h | h
  · exact readByte_volMem_below f s h _
  · refine readByte_volMem_above f s _ ?_
    have : sampleCount f s.dst * fmtWidth f ≤ s.dst.length.toNat := Nat.div_mul_le_self _ _
    simp only [sampleAddr]
    omega

end Sys2Proof.Machine
end

