-- ==== Sys2Proof/Laws/BusyVol.lean ====
section
/-! SUPPORT. A VOL that runs one byte access at a time: where it can stand, what a tick does there, and how many ticks
are left. -/

namespace Sys2Proof.Machine

theorem tickN_zero (s : State) : tickN 0 s = .next s := rfl

theorem tickN_succ {s t : State} (n : Nat) (h : tick s = .next t) : tickN (n + 1) s = tickN n t := by
  rw [tickN, h]

theorem tick_idle {s : State} (h : s.phase = .idle) : tick s = .next s := by simp [tick, h]

theorem tick_fault {s : State} (h : s.phase = .fault) : tick s = .next s := by simp [tick, h]

/-- An idle block stays as it is. -/
theorem tickN_idle {s : State} (h : s.phase = .idle) : ∀ n, tickN n s = .next s
  | 0 => rfl
  | n + 1 => by rw [tickN_succ n (tick_idle h), tickN_idle h n]

/-- A faulted block stays as it is. -/
theorem tickN_fault {s : State} (h : s.phase = .fault) : ∀ n, tickN n s = .next s
  | 0 => rfl
  | n + 1 => by rw [tickN_succ n (tick_fault h), tickN_fault h n]

theorem readAccess_eq {s : State} {a : Nat} (job : Byte → Job) (h : a < Config.memSize) :
    readAccess s a job = .next (withJob s (job (readByte s.mem a))) := if_pos h

theorem writeAccess_eq {s : State} {a : Nat} (b : Byte) (job : Job) (h : a < Config.memSize) :
    writeAccess s a b job = .next (withJob { s with mem := writeByte s.mem a b } job) := if_pos h

/-- The state of a running command: `s` after acceptance, with its memory and its place. -/
def runAt (s : State) (m : List Host.Cell) (job : Job) : State := { s with mem := m, done := false, phase := .busy job }

@[simp] theorem runAt_mem (s : State) (m : List Host.Cell) (job : Job) : (runAt s m job).mem = m := rfl
@[simp] theorem runAt_phase (s : State) (m : List Host.Cell) (job : Job) : (runAt s m job).phase = .busy job := rfl
@[simp] theorem runAt_dst (s : State) (m : List Host.Cell) (job : Job) : (runAt s m job).dst = s.dst := rfl
@[simp] theorem runAt_inputs (s : State) (m : List Host.Cell) (job : Job) : (runAt s m job).inputs = s.inputs := rfl
@[simp] theorem volGain_runAt (s : State) (m : List Host.Cell) (job : Job) (k : Nat) :
    volGain (runAt s m job) k = volGain s k := rfl
@[simp] theorem withJob_runAt (s : State) (m : List Host.Cell) (job job' : Job) :
    withJob (runAt s m job) job' = runAt s m job' := rfl
@[simp] theorem complete_runAt (s : State) (m : List Host.Cell) (job : Job) :
    complete (runAt s m job) = complete { s with mem := m } := rfl

theorem withJob_runAt_mem (s : State) (m m' : List Host.Cell) (job job' : Job) :
    withJob { runAt s m job with mem := m' } job' = runAt s m' job' := rfl

/-- The bytes VOL writes at sample `k`, its gain not being NORM. -/
def volOut (f : Fmt) (s : State) (k : Nat) : List Byte :=
  if volGain s k = Config.volMuted then zeroCode f
  else scaleSample f (volGain s k) (memRead (volMem f s k) (sampleAddr f s.dst k) (fmtWidth f))

@[simp] theorem volOut_length (f : Fmt) (s : State) (k : Nat) : (volOut f s k).length = fmtWidth f := by
  unfold volOut
  split <;> simp

theorem volMem_succ_norm {f : Fmt} {s : State} {k : Nat} (h : volGain s k = Config.volNorm) :
    volMem f s (k + 1) = volMem f s k := by
  rw [volMem, volSample, if_pos h]

theorem volMem_succ_write {f : Fmt} {s : State} {k : Nat} (h : volGain s k ≠ Config.volNorm) :
    volMem f s (k + 1) = memWrite (volMem f s k) (sampleAddr f s.dst k) (volOut f s k) := by
  rw [volMem, volSample, if_neg h, volOut]
  split <;> rfl

/-- Where a VOL accepted in `s` can stand, past its prechecks. -/
inductive VolAt (f : Fmt) (s : State) : State → Prop where
  /-- before byte `j` of sample `k` is read, or at the end of the sample's bytes -/
  | reading (k j : Nat) (hk : k ≤ sampleCount f s.dst) (hj : j ≤ fmtWidth f) :
      VolAt f s (runAt s (volMem f s k) (.vol f k (.reading j (memRead (volMem f s k) (sampleAddr f s.dst k) j))))
  /-- before byte `j` of sample `k` is written, or at the end of the sample's bytes -/
  | writing (k j : Nat) (hk : k < sampleCount f s.dst) (hj : j ≤ fmtWidth f) (hg : volGain s k ≠ Config.volNorm) :
      VolAt f s (runAt s (memWrite (volMem f s k) (sampleAddr f s.dst k) ((volOut f s k).take j))
        (.vol f k (.writing j (volOut f s k))))
  /-- completed -/
  | done : VolAt f s (complete { s with mem := volMem f s (sampleCount f s.dst) })

/-- A bound on the ticks left. -/
def volLeft (f : Fmt) (s t : State) : Nat :=
  match t.phase with
  | .busy (.vol _ k (.reading j _)) => (sampleCount f s.dst - k) * (2 * fmtWidth f + 2) + 1 - (if k < sampleCount f s.dst then j else 0)
  | .busy (.vol _ k (.writing j _)) => (sampleCount f s.dst - k) * (2 * fmtWidth f + 2) - fmtWidth f - j
  | _ => 0

/-- One tick of a VOL past its prechecks. -/
theorem volAt_tick {f : Fmt} {s t : State} (hw : addrWraps s.dst = false) (h : VolAt f s t) :
    ∃ t', tick t = .next t' ∧ VolAt f s t' ∧ (volLeft f s t' < volLeft f s t ∨ t = t' ∧ t.phase = .idle) := by
  have hmem := chunk_in_memory hw
  have hN : ∀ k < sampleCount f s.dst, (sampleCount f s.dst - k) * (2 * fmtWidth f + 2) =
      (sampleCount f s.dst - (k + 1)) * (2 * fmtWidth f + 2) + (2 * fmtWidth f + 2) := by
    intro k hk
    rw [← Nat.succ_mul]
    congr 1
    omega
  cases h with
  | reading k j hk hj =>
    by_cases hkk : k < sampleCount f s.dst
    · have hin := sample_in_chunk (f := f) (c := s.dst) (k := k) hkk
      have hnot : ¬ sampleCount f s.dst ≤ k := by omega
      by_cases hg1 : volGain s k = Config.volNorm
      · refine ⟨runAt s (volMem f s (k + 1)) (.vol f (k + 1) (.reading 0 [])), ?_, VolAt.reading (k + 1) 0 hkk (by omega),
          .inl ?_⟩
        · simp [tick, tickVol, hnot, hg1, volMem_succ_norm hg1]
        · simp only [volLeft, runAt_phase]
          rw [hN k hkk]
          split <;> simp <;> omega
      · by_cases hg2 : volGain s k = Config.volMuted
        · have hout : volOut f s k = zeroCode f := by simp [volOut, hg2]
          have hmn : Config.volMuted ≠ Config.volNorm := by decide
          refine ⟨_, ?_, VolAt.writing k 0 hkk (by omega) hg1, .inl ?_⟩
          · simp [tick, tickVol, hnot, hg2, hmn, hout, memWrite]
          · simp only [volLeft, runAt_phase, if_pos hkk]
            rw [hN k hkk]
            omega
        · by_cases hjw : j < fmtWidth f
          · refine ⟨_, ?_, VolAt.reading k (j + 1) hk (by omega), .inl ?_⟩
            · simp [tick, tickVol, hnot, hg1, hg2, hjw, memRead_succ]
              rw [readAccess_eq _ (by omega)]
              rfl
            · simp only [volLeft, runAt_phase, if_pos hkk]
              rw [hN k hkk]
              omega
          · obtain rfl : j = fmtWidth f := by omega
            have hout : volOut f s k =
                scaleSample f (volGain s k) (memRead (volMem f s k) (sampleAddr f s.dst k) (fmtWidth f)) := by
              simp [volOut, hg2]
            refine ⟨_, ?_, VolAt.writing k 0 hkk (by omega) hg1, .inl ?_⟩
            · simp [tick, tickVol, hnot, hg1, hg2, hout, memWrite]
            · simp only [volLeft, runAt_phase, if_pos hkk]
              rw [hN k hkk]
              omega
    · obtain rfl : k = sampleCount f s.dst := by omega
      refine ⟨_, ?_, VolAt.done, .inl ?_⟩
      · simp [tick, tickVol]
      · simp [volLeft]
  | writing k j hk hj hg =>
    have hin := sample_in_chunk (f := f) (c := s.dst) (k := k) hk
    have hnot : ¬ sampleCount f s.dst ≤ k := by omega
    by_cases hjw : j < fmtWidth f
    · refine ⟨_, ?_, VolAt.writing k (j + 1) hk (by omega) hg, .inl ?_⟩
      · simp only [tick, runAt_phase, tickVol, runAt_dst, hnot, if_false, hjw, if_true]
        rw [writeAccess_eq _ _ (by omega), memWrite_take_succ _ _ _ (by simpa using hjw)]
        rfl
      · simp only [volLeft, runAt_phase]
        rw [hN k hk]
        omega
    · obtain rfl : j = fmtWidth f := by omega
      have htake : (volOut f s k).take (fmtWidth f) = volOut f s k := List.take_of_length_le (by simp)
      refine ⟨runAt s (volMem f s (k + 1)) (.vol f (k + 1) (.reading 0 [])), ?_, VolAt.reading (k + 1) 0 hk (by omega),
        .inl ?_⟩
      · simp [tick, tickVol, hnot, htake, volMem_succ_write hg]
      · simp only [volLeft, runAt_phase]
        rw [hN k hk]
        split <;> omega
  | done => exact ⟨_, tick_idle rfl, VolAt.done, .inr ⟨rfl, rfl⟩⟩

/-- Wherever a VOL is left after `n` ticks, it stands at one of its places. -/
theorem volAt_tickN {f : Fmt} {s : State} (hw : addrWraps s.dst = false) : ∀ (n : Nat) {t : State}, VolAt f s t →
    ∃ t', tickN n t = .next t' ∧ VolAt f s t' ∧ (volLeft f s t ≤ n → t'.phase = .idle)
  | 0, t, h => by
    refine ⟨t, rfl, h, fun hl => ?_⟩
    obtain ⟨t', _, _, hlt | ⟨_, hi⟩⟩ := volAt_tick hw h
    · omega
    · exact hi
  | n + 1, t, h => by
    obtain ⟨u, hu, hau, hl⟩ := volAt_tick hw h
    rcases hl with hl | ⟨rfl, hi⟩
    · obtain ⟨t', h1, h2, h3⟩ := volAt_tickN hw n hau
      exact ⟨t', by rw [tickN_succ n hu, h1], h2, fun hle => h3 (by omega)⟩
    · exact ⟨t, tickN_idle hi _, h, fun _ => hi⟩

/-- A VOL that stands at one of its places and is not busy is done. -/
theorem volAt_idle {f : Fmt} {s t : State} (h : VolAt f s t) (hi : t.phase = .idle) :
    t = complete { s with mem := volMem f s (sampleCount f s.dst) } := by
  cases h with
  | reading k j hk hj => cases hi
  | writing k j hk hj hg => cases hi
  | done => rfl

end Sys2Proof.Machine
end

