-- ==== Sys2Proof/Laws/Mixer.lean ====
section
/-! SUPPORT. What MIX does to memory: one output sample, the first `n` samples, and what its accumulators depend on. -/

namespace Sys2Proof.Machine

theorem readByte_mixSample_outside (f : Fmt) (nin : Nat) (s : State) (k : Nat) {x : Nat} (m : List Host.Cell)
    (h : x < sampleAddr f s.dst k ∨ sampleAddr f s.dst k + fmtWidth f ≤ x) :
    readByte (mixSample f nin s k m) x = readByte m x :=
  readByte_memWrite_outside _ _ (by simpa using h)

theorem memWf_mixSample {f : Fmt} {nin : Nat} {s : State} {k : Nat} {m : List Host.Cell} (h : memWf m = true)
    (ha : sampleAddr f s.dst k + fmtWidth f ≤ Config.memSize) : memWf (mixSample f nin s k m) = true :=
  memWf_memWrite _ h (by simpa using ha)

/-- The output sample is what the accumulators give. -/
theorem memRead_mixSample {f : Fmt} {nin : Nat} {s : State} {k : Nat} {m : List Host.Cell} (h : memWf m = true)
    (ha : sampleAddr f s.dst k + fmtWidth f ≤ Config.memSize) :
    memRead (mixSample f nin s k m) (sampleAddr f s.dst k) (fmtWidth f) = mixOut f (mixAccs f s m k nin) := by
  simpa [mixSample] using memRead_memWrite_same (bs := mixOut f (mixAccs f s m k nin)) h (by simpa using ha)

/-- Past the first `n` samples memory is as it was. -/
theorem readByte_mixMem_above (f : Fmt) (nin : Nat) (s : State) {a : Nat} : ∀ n, sampleAddr f s.dst n ≤ a →
    readByte (mixMem f nin s n) a = readByte s.mem a
  | 0, _ => rfl
  | n + 1, h => by
    rw [sampleAddr_succ] at h
    rw [mixMem, readByte_mixSample_outside _ _ _ _ _ (.inr (by omega))]
    exact readByte_mixMem_above f nin s n (by omega)

/-- Below the destination memory is as it was. -/
theorem readByte_mixMem_below (f : Fmt) (nin : Nat) (s : State) {a : Nat} (h : a < chunkEA s.dst) : ∀ n,
    readByte (mixMem f nin s n) a = readByte s.mem a
  | 0 => rfl
  | n + 1 => by
    rw [mixMem, readByte_mixSample_outside _ _ _ _ _ (.inl (by simp only [sampleAddr]; omega))]
    exact readByte_mixMem_below f nin s h n

/-- A later sample does not disturb what lies below it. -/
theorem readByte_mixMem_stable (f : Fmt) (nin : Nat) (s : State) {a n : Nat} (h : a < sampleAddr f s.dst n) : ∀ d,
    readByte (mixMem f nin s (n + d)) a = readByte (mixMem f nin s n) a
  | 0 => rfl
  | d + 1 => by
    have hs : sampleAddr f s.dst n ≤ sampleAddr f s.dst (n + d) :=
      Nat.add_le_add_left (Nat.mul_le_mul_right _ (Nat.le_add_right n d)) _
    rw [← Nat.add_assoc, mixMem, readByte_mixSample_outside _ _ _ _ _ (.inl (by omega))]
    exact readByte_mixMem_stable f nin s h d

theorem memWf_mixMem {f : Fmt} {nin : Nat} {s : State} (hm : memWf s.mem = true) (hw : addrWraps s.dst = false) :
    ∀ n ≤ sampleCount f s.dst, memWf (mixMem f nin s n) = true
  | 0, _ => hm
  | n + 1, h => by
    have h1 := sample_in_chunk (f := f) (c := s.dst) (k := n) h
    have h2 := chunk_in_memory hw
    exact memWf_mixSample (memWf_mixMem hm hw n (by omega)) (by omega)

/-- Output sample `k`, once done: what the accumulators give over memory as sample `k` finds it. -/
theorem memRead_mixMem {f : Fmt} {nin : Nat} {s : State} (hm : memWf s.mem = true) (hw : addrWraps s.dst = false)
    {k n : Nat} (hk : k < n) (hn : n ≤ sampleCount f s.dst) :
    memRead (mixMem f nin s n) (sampleAddr f s.dst k) (fmtWidth f) =
      mixOut f (mixAccs f s (mixMem f nin s k) k nin) := by
  obtain ⟨d, rfl⟩ : ∃ d, n = k + 1 + d := ⟨n - (k + 1), by omega⟩
  have h1 := sample_in_chunk (f := f) (c := s.dst) (k := k) (by omega)
  have h2 := chunk_in_memory hw
  rw [memRead_congr (m' := mixMem f nin s (k + 1)) (fun j hj =>
    readByte_mixMem_stable f nin s (by rw [sampleAddr_succ]; omega) d)]
  exact memRead_mixSample (memWf_mixMem hm hw k (by omega)) (by omega)

/-- Outside the destination MIX changes no byte. -/
theorem readByte_mixMem_outside (f : Fmt) (nin : Nat) (s : State) {a : Nat}
    (h : a < chunkEA s.dst ∨ chunkEA s.dst + s.dst.length.toNat ≤ a) :
    readByte (mixMem f nin s (sampleCount f s.dst)) a = readByte s.mem a := by
  rcases h with h | h
  · exact readByte_mixMem_below f nin s h _
  · refine readByte_mixMem_above f nin s _ ?_
    have : sampleCount f s.dst * fmtWidth f ≤ s.dst.length.toNat := Nat.div_mul_le_self _ _
    simp only [sampleAddr]
    omega

theorem contributes_iff (f : Fmt) (x : MixInput) (k : Nat) :
    contributes f x k = true ↔ k * fmtWidth f + fmtWidth f ≤ x.chunk.length.toNat := by
  unfold contributes
  rw [decide_eq_true_eq]

/-- The accumulators depend on memory only at the contributing samples of the inputs. -/
theorem mixAccs_congr (f : Fmt) (s : State) {m m' : List Host.Cell} (k : Nat) : ∀ n,
    (∀ i < n, contributes f (inputAt s.inputs i) k = true → ∀ j < fmtWidth f,
      readByte m (sampleAddr f (inputAt s.inputs i).chunk k + j) =
        readByte m' (sampleAddr f (inputAt s.inputs i).chunk k + j)) →
    mixAccs f s m k n = mixAccs f s m' k n
  | 0, _ => rfl
  | n + 1, h => by
    have ih := mixAccs_congr f s k n (fun i hi => h i (by omega))
    unfold mixAccs
    by_cases hr : mixReads f s n k = true
    · have hc : contributes f (inputAt s.inputs n) k = true := by
        unfold mixReads at hr
        simp only [Bool.and_eq_true] at hr
        exact hr.1
      rw [if_pos hr, if_pos hr, ih, memRead_congr (h n (by omega) hc)]
    · rw [if_neg hr, if_neg hr, ih]

/-- The accumulators depend on SPEC, the inputs and memory, and on nothing else of the state. -/
theorem mixAccs_congr_state (f : Fmt) {s s' : State} (hs : s.spec = s'.spec) (m : List Host.Cell) (k : Nat) : ∀ n,
    (∀ i < n, inputAt s.inputs i = inputAt s'.inputs i) → mixAccs f s m k n = mixAccs f s' m k n
  | 0, _ => rfl
  | n + 1, h => by
    have hn := h n (by omega)
    have hg : mixGain s n k = mixGain s' n k := by simp [mixGain, hn, hs]
    simp only [mixAccs, mixReads, hn, hg, mixAccs_congr_state f hs m k n (fun i hi => h i (by omega))]
    congr

/-- A sample of an input that starts at or above the destination, or ends at or below it, is read as it was (R78). -/
theorem readByte_mixMem_input (f : Fmt) (nin : Nat) (s : State) {c : Chunk} {k j : Nat} (hj : j < fmtWidth f)
    (hc : k * fmtWidth f + fmtWidth f ≤ c.length.toNat)
    (h : chunkEA s.dst ≤ chunkEA c ∨ chunkEA c + c.length.toNat ≤ chunkEA s.dst) :
    readByte (mixMem f nin s k) (sampleAddr f c k + j) = readByte s.mem (sampleAddr f c k + j) := by
  rcases h with h | h
  · exact readByte_mixMem_above f nin s k (by simp only [sampleAddr]; omega)
  · exact readByte_mixMem_below f nin s (by simp only [sampleAddr]; omega) k

/-- The accumulators when no input contributes. -/
theorem mixAccs_silent (f : Fmt) (s : State) (m : List Host.Cell) (k : Nat) : ∀ n,
    (∀ i < n, contributes f (inputAt s.inputs i) k = false) → mixAccs f s m k n = accsZero
  | 0, _ => rfl
  | n + 1, h => by
    have hr : mixReads f s n k = false := by simp [mixReads, h n (by omega)]
    simp [mixAccs, hr, mixAccs_silent f s m k n (fun i hi => h i (by omega))]

end Sys2Proof.Machine
end

