-- ==== Sys2Proof/Laws/BusyMix.lean ====
section
/-! SUPPORT. A MIX that runs one byte access at a time: where it can stand, what a tick does there, and how many ticks
are left. -/

namespace Sys2Proof.Machine

@[simp] theorem mixReads_runAt (f : Fmt) (s : State) (m : List Host.Cell) (job : Job) (i k : Nat) :
    mixReads f (runAt s m job) i k = mixReads f s i k := rfl
@[simp] theorem mixGain_runAt (s : State) (m : List Host.Cell) (job : Job) (i k : Nat) :
    mixGain (runAt s m job) i k = mixGain s i k := rfl

/-- The bytes MIX writes at output sample `k`. -/
def mixBytes (f : Fmt) (nin : Nat) (s : State) (k : Nat) : List Byte :=
  mixOut f (mixAccs f s (mixMem f nin s k) k nin)

@[simp] theorem mixBytes_length (f : Fmt) (nin : Nat) (s : State) (k : Nat) :
    (mixBytes f nin s k).length = fmtWidth f := by simp [mixBytes]

theorem mixMem_succ (f : Fmt) (nin : Nat) (s : State) (k : Nat) :
    mixMem f nin s (k + 1) = memWrite (mixMem f nin s k) (sampleAddr f s.dst k) (mixBytes f nin s k) := rfl

/-- Where a MIX accepted in `s` can stand, past its prechecks. -/
inductive MixAt (f : Fmt) (nin : Nat) (s : State) : State → Prop where
  /-- before byte `j` of input `i`'s sample `k` is read, or past the last input -/
  | reading (k i j : Nat) (hk : k ≤ sampleCount f s.dst) (hi : i ≤ nin) (hj : j ≤ fmtWidth f)
      (hr : 0 < j → i < nin ∧ mixReads f s i k = true) :
      MixAt f nin s (runAt s (mixMem f nin s k) (.mix f nin k i (mixAccs f s (mixMem f nin s k) k i).acc
        (mixAccs f s (mixMem f nin s k) k i).facc
        (.reading j (memRead (mixMem f nin s k) (sampleAddr f (inputAt s.inputs i).chunk k) j))))
  /-- before byte `j` of output sample `k` is written, or at the end of the sample's bytes -/
  | writing (k j : Nat) (hk : k < sampleCount f s.dst) (hj : j ≤ fmtWidth f) :
      MixAt f nin s (runAt s (memWrite (mixMem f nin s k) (sampleAddr f s.dst k) ((mixBytes f nin s k).take j))
        (.mix f nin k nin (mixAccs f s (mixMem f nin s k) k nin).acc (mixAccs f s (mixMem f nin s k) k nin).facc
          (.writing j (mixBytes f nin s k))))
  /-- completed -/
  | done : MixAt f nin s (complete { s with mem := mixMem f nin s (sampleCount f s.dst) })

/-- A bound on the ticks left. -/
def mixLeft (f : Fmt) (nin : Nat) (s t : State) : Nat :=
  match t.phase with
  | .busy (.mix _ _ k i _ _ (.reading j _)) =>
    (sampleCount f s.dst - k) * ((nin + 1) * (fmtWidth f + 1) + 1) + 1 -
      (if k < sampleCount f s.dst then i * (fmtWidth f + 1) + j else 0)
  | .busy (.mix _ _ k _ _ _ (.writing j _)) =>
    (sampleCount f s.dst - k) * ((nin + 1) * (fmtWidth f + 1) + 1) - nin * (fmtWidth f + 1) - j
  | _ => 0

/-- One tick of a MIX past its prechecks. -/
theorem mixAt_tick {f : Fmt} {nin : Nat} {s t : State} (hw : addrWraps s.dst = false)
    (hin : ∀ i < nin, addrWraps (inputAt s.inputs i).chunk = false) (h : MixAt f nin s t) :
    ∃ t', tick t = .next t' ∧ MixAt f nin s t' ∧ (mixLeft f nin s t' < mixLeft f nin s t ∨ t = t' ∧ t.phase = .idle) := by
  have hmem := chunk_in_memory hw
  have hN : ∀ k < sampleCount f s.dst, (sampleCount f s.dst - k) * ((nin + 1) * (fmtWidth f + 1) + 1) =
      (sampleCount f s.dst - (k + 1)) * ((nin + 1) * (fmtWidth f + 1) + 1) + nin * (fmtWidth f + 1) + fmtWidth f + 2 := by
    intro k hk
    have : sampleCount f s.dst - k = (sampleCount f s.dst - (k + 1)) + 1 := by omega
    rw [this]
    ring
  have hI : ∀ i < nin, (i + 1) * (fmtWidth f + 1) ≤ nin * (fmtWidth f + 1) := fun i hi => Nat.mul_le_mul_right _ hi
  cases h with
  | reading k i j hk hi hj hr =>
    by_cases hkk : k < sampleCount f s.dst
    · have hnot : ¬ sampleCount f s.dst ≤ k := by omega
      by_cases hii : i < nin
      · have hni : ¬ nin ≤ i := by omega
        have hI' := hI i hii
        rw [Nat.add_mul i 1] at hI'
        by_cases hrd : mixReads f s i k = true
        · by_cases hjw : j < fmtWidth f
          · have hc : k * fmtWidth f + fmtWidth f ≤ (inputAt s.inputs i).chunk.length.toNat := by
              unfold mixReads at hrd
              rw [Bool.and_eq_true] at hrd
              exact (contributes_iff _ _ _).mp hrd.1
            have hcm := chunk_in_memory (hin i hii)
            refine ⟨_, ?_, MixAt.reading k i (j + 1) hk hi (by omega) (fun _ => ⟨hii, hrd⟩), .inl ?_⟩
            · simp only [tick, runAt_phase, tickMix, runAt_dst, hnot, if_false, hni, mixReads_runAt, hrd, if_true, hjw,
                runAt_inputs]
              rw [readAccess_eq _ (by simp only [sampleAddr]; omega), memRead_succ]
              rfl
            · simp only [mixLeft, runAt_phase, if_pos hkk]
              rw [hN k hkk]
              omega
          · obtain rfl : j = fmtWidth f := by omega
            refine ⟨runAt s (mixMem f nin s k) (.mix f nin k (i + 1) (mixAccs f s (mixMem f nin s k) k (i + 1)).acc
              (mixAccs f s (mixMem f nin s k) k (i + 1)).facc (.reading 0 [])), ?_,
              MixAt.reading k (i + 1) 0 hk hii (by omega) (fun h => absurd h (by omega)), .inl ?_⟩
            · simp [tick, tickMix, hnot, hni, hrd, mixAccs]
            · simp only [mixLeft, runAt_phase, if_pos hkk]
              rw [hN k hkk, Nat.add_mul i 1]
              omega
        · obtain rfl : j = 0 := by
            by_contra hc
            exact hrd (hr (by omega)).2
          have hacc : mixAccs f s (mixMem f nin s k) k (i + 1) = mixAccs f s (mixMem f nin s k) k i := by
            simp [mixAccs, hrd]
          refine ⟨runAt s (mixMem f nin s k) (.mix f nin k (i + 1) (mixAccs f s (mixMem f nin s k) k (i + 1)).acc
            (mixAccs f s (mixMem f nin s k) k (i + 1)).facc (.reading 0 [])), ?_,
            MixAt.reading k (i + 1) 0 hk hii (by omega) (fun h => absurd h (by omega)), .inl ?_⟩
          · simp [tick, tickMix, hnot, hni, hrd, hacc]
          · simp only [mixLeft, runAt_phase, if_pos hkk]
            rw [hN k hkk, Nat.add_mul i 1]
            omega
      · obtain rfl : i = nin := by omega
        obtain rfl : j = 0 := by
          by_contra hc
          exact hii (hr (by omega)).1
        refine ⟨_, ?_, MixAt.writing k 0 hkk (by omega), .inl ?_⟩
        · simp [tick, tickMix, hnot, mixBytes, memWrite]
        · simp only [mixLeft, runAt_phase, if_pos hkk]
          rw [hN k hkk]
          omega
    · obtain rfl : k = sampleCount f s.dst := by omega
      refine ⟨_, ?_, MixAt.done, .inl ?_⟩
      · simp [tick, tickMix]
      · simp [mixLeft]
  | writing k j hk hj =>
    have hsin := sample_in_chunk (f := f) (c := s.dst) (k := k) hk
    have hnot : ¬ sampleCount f s.dst ≤ k := by omega
    by_cases hjw : j < fmtWidth f
    · refine ⟨_, ?_, MixAt.writing k (j + 1) hk (by omega), .inl ?_⟩
      · simp only [tick, runAt_phase, tickMix, runAt_dst, hnot, if_false, hjw, if_true]
        rw [writeAccess_eq _ _ (by omega), memWrite_take_succ _ _ _ (by simpa using hjw)]
        rfl
      · simp only [mixLeft, runAt_phase]
        rw [hN k hk]
        omega
    · obtain rfl : j = fmtWidth f := by omega
      have htake : (mixBytes f nin s k).take (fmtWidth f) = mixBytes f nin s k := List.take_of_length_le (by simp)
      refine ⟨runAt s (mixMem f nin s (k + 1)) (.mix f nin (k + 1) 0 accsZero.acc accsZero.facc (.reading 0 [])), ?_,
        MixAt.reading (k + 1) 0 0 hk (by omega) (by omega) (fun h => absurd h (by omega)), .inl ?_⟩
      · simp [tick, tickMix, hnot, htake, mixMem_succ]
      · simp only [mixLeft, runAt_phase]
        rw [hN k hk]
        split <;> omega
  | done => exact ⟨_, tick_idle rfl, MixAt.done, .inr ⟨rfl, rfl⟩⟩

/-- Wherever a MIX is left after `n` ticks, it stands at one of its places. -/
theorem mixAt_tickN {f : Fmt} {nin : Nat} {s : State} (hw : addrWraps s.dst = false)
    (hin : ∀ i < nin, addrWraps (inputAt s.inputs i).chunk = false) : ∀ (n : Nat) {t : State}, MixAt f nin s t →
    ∃ t', tickN n t = .next t' ∧ MixAt f nin s t' ∧ (mixLeft f nin s t ≤ n → t'.phase = .idle)
  | 0, t, h => by
    refine ⟨t, rfl, h, fun hl => ?_⟩
    obtain ⟨t', _, _, hlt | ⟨_, hi⟩⟩ := mixAt_tick hw hin h
    · omega
    · exact hi
  | n + 1, t, h => by
    obtain ⟨u, hu, hau, hl⟩ := mixAt_tick hw hin h
    rcases hl with hl | ⟨rfl, hi⟩
    · obtain ⟨t', h1, h2, h3⟩ := mixAt_tickN hw hin n hau
      exact ⟨t', by rw [tickN_succ n hu, h1], h2, fun hle => h3 (by omega)⟩
    · exact ⟨t, tickN_idle hi _, h, fun _ => hi⟩

/-- A MIX that stands at one of its places and is not busy is done. -/
theorem mixAt_idle {f : Fmt} {nin : Nat} {s t : State} (h : MixAt f nin s t) (hi : t.phase = .idle) :
    t = complete { s with mem := mixMem f nin s (sampleCount f s.dst) } := by
  cases h with
  | reading k i j hk hi' hj hr => cases hi
  | writing k j hk hj => cases hi
  | done => rfl

end Sys2Proof.Machine
end

