-- ==== Sys2Proof/Laws/Encoding.lean ====
section
/-! SUPPORT. The fields of a command word as numbers. -/

namespace Sys2Proof

theorem opcodeOf_lt (w : Word) : opcodeOf w < 256 := Nat.mod_lt _ (by decide)

theorem ninOf_lt (w : Word) : ninOf w < 64 := Nat.mod_lt _ (by decide)

/-- A word is its three fields (30_encoding.md R90). -/
theorem word_fields (w : Word) : w.toNat = opcodeOf w + 256 * ninOf w + 16384 * reservedOf w := by
  unfold opcodeOf ninOf reservedOf
  omega

theorem commandWord_toNat {opcode nin : Nat} (ho : opcode < 256) (hn : nin < 64) :
    (commandWord opcode nin).toNat = opcode + 256 * nin := by
  unfold commandWord
  rw [BitVec.toNat_ofNat, Nat.mod_eq_of_lt hn]
  omega

/-- The fields of an encoded command. -/
theorem commandWord_fields {opcode nin : Nat} (ho : opcode < 256) (hn : nin < 64) :
    opcodeOf (commandWord opcode nin) = opcode ∧ ninOf (commandWord opcode nin) = nin ∧
    reservedOf (commandWord opcode nin) = 0 := by
  unfold opcodeOf ninOf reservedOf
  rw [commandWord_toNat ho hn]
  omega

/-- A command word with no operand field but `NIN` is equal to another exactly when its fields are. -/
theorem eq_commandWord_iff {opcode nin : Nat} (ho : opcode < 256) (hn : nin < 64) (w : Word) :
    commandWord opcode nin = w ↔ opcodeOf w = opcode ∧ ninOf w = nin ∧ reservedOf w = 0 := by
  constructor
  · rintro rfl
    exact commandWord_fields ho hn
  · rintro ⟨h1, h2, h3⟩
    apply BitVec.eq_of_toNat_eq
    rw [commandWord_toNat ho hn, word_fields w, h1, h2, h3]
    omega

end Sys2Proof
end

