-- ==== Sys2Proof/Laws/Float.lean ====
section
/-! SUPPORT. The laws of the binary formats: fields and patterns, rounding of what is representable, the value alone
deciding the result of a rounding. -/

namespace Sys2Proof.Machine

/-! ### Rounding a quotient by a power of two -/

/-- `shiftRNE` is the quotient or the quotient plus one. -/
theorem shiftRNE_cases (m n : Nat) : shiftRNE m n = m / 2 ^ n ∨ shiftRNE m n = m / 2 ^ n + 1 := by
  unfold shiftRNE
  simp only
  split
  · exact .inr rfl
  · exact .inl rfl

/-- The rounded quotient is within half a unit, and even where two are equally near. -/
theorem shiftRNE_near (m n : Nat) :
    2 * (shiftRNE m n * 2 ^ n) ≤ 2 * m + 2 ^ n ∧ 2 * m ≤ 2 * (shiftRNE m n * 2 ^ n) + 2 ^ n ∧
    ((2 * (shiftRNE m n * 2 ^ n) = 2 * m + 2 ^ n ∨ 2 * m = 2 * (shiftRNE m n * 2 ^ n) + 2 ^ n) →
      shiftRNE m n % 2 = 0) := by
  have h := Nat.div_add_mod m (2 ^ n)
  have h2 := Nat.mod_lt m (Nat.two_pow_pos n)
  unfold shiftRNE
  simp only
  generalize m / 2 ^ n = d at *
  generalize m % 2 ^ n = r at *
  generalize 2 ^ n = P at *
  have e2 : (d + 1) * P = P * d + P := by ring
  have e3 : d * P = P * d := Nat.mul_comm _ _
  split
  · rw [e2]
    refine ⟨?_, ?_, ?_⟩ <;> omega
  · rw [e3]
    refine ⟨?_, ?_, ?_⟩ <;> omega

/-- A multiple of `2^n` is divided exactly. -/
theorem shiftRNE_mul (m n k : Nat) : shiftRNE (m * 2 ^ (n + k)) n = m * 2 ^ k := by
  have hp := Nat.two_pow_pos n
  have e : m * 2 ^ (n + k) = m * 2 ^ k * 2 ^ n := by rw [Nat.pow_add]; ring
  have h1 : m * 2 ^ (n + k) / 2 ^ n = m * 2 ^ k := by rw [e]; exact Nat.mul_div_cancel _ hp
  have h2 : m * 2 ^ (n + k) % 2 ^ n = 0 := by rw [e]; exact Nat.mul_mod_left _ _
  unfold shiftRNE
  simp only [h1, h2]
  split <;> omega

/-- Common powers of two cancel. -/
theorem shiftRNE_scale (m n k : Nat) : shiftRNE (m * 2 ^ k) (n + k) = shiftRNE m n := by
  have hk := Nat.two_pow_pos k
  have h1 : m * 2 ^ k / 2 ^ (n + k) = m / 2 ^ n := by rw [Nat.pow_add, Nat.mul_div_mul_right _ _ hk]
  have h2 : m * 2 ^ k % 2 ^ (n + k) = m % 2 ^ n * 2 ^ k := by rw [Nat.pow_add, Nat.mul_mod_mul_right]
  unfold shiftRNE
  rw [h1, h2, Nat.pow_add]
  have e1 : 2 ^ n * 2 ^ k < 2 * (m % 2 ^ n * 2 ^ k) ↔ 2 ^ n < 2 * (m % 2 ^ n) := by
    rw [← Nat.mul_assoc]; exact Nat.mul_lt_mul_right hk
  have e2 : 2 * (m % 2 ^ n * 2 ^ k) = 2 ^ n * 2 ^ k ↔ 2 * (m % 2 ^ n) = 2 ^ n := by
    rw [← Nat.mul_assoc]; exact Nat.mul_left_inj (by omega)
  simp only [e1, e2]

/-! ### Rounding sees the value only -/

/-- A factor `2^k` of the magnitude may stand in the exponent instead. -/
theorem roundFields_scale (p : FParams) (m k : Nat) (e : Int) :
    roundFields p (m * 2 ^ k) e = roundFields p m (e + k) := by
  by_cases hm : m = 0
  · simp [roundFields, hm]
  have hk := Nat.two_pow_pos k
  have hlog : Nat.log2 (m * 2 ^ k) = Nat.log2 m + k := by
    rw [Nat.log2_eq_iff (by positivity), Nat.add_right_comm, Nat.pow_add, Nat.pow_add _ (Nat.log2 m + 1)]
    exact ⟨Nat.mul_le_mul_right _ (Nat.log2_self_le hm), Nat.mul_lt_mul_of_pos_right Nat.lt_log2_self hk⟩
  have hne : m * 2 ^ k ≠ 0 := by positivity
  have hsig : ∀ q : Int, (if q ≤ e then m * 2 ^ k * 2 ^ (e - q).toNat else shiftRNE (m * 2 ^ k) (q - e).toNat) =
      (if q ≤ e + k then m * 2 ^ (e + k - q).toNat else shiftRNE m (q - (e + k)).toNat) := by
    intro q
    by_cases h1 : q ≤ e
    · rw [if_pos h1, if_pos (by omega), Nat.mul_assoc, ← Nat.pow_add]
      congr 2
      omega
    · rw [if_neg h1]
      by_cases h2 : q ≤ e + k
      · rw [if_pos h2]
        obtain ⟨n, hn⟩ : ∃ n : Nat, q - e = n := ⟨(q - e).toNat, by omega⟩
        have hnk : k = n + (k - n) := by omega
        rw [hnk, hn, Int.toNat_natCast, shiftRNE_mul]
        congr 2
        omega
      · rw [if_neg h2]
        have : (q - e).toNat = (q - (e + k)).toNat + k := by omega
        rw [this, shiftRNE_scale]
  have hq : e + ((Nat.log2 m + k : Nat) : Int) - p.frac = e + k + (Nat.log2 m : Int) - p.frac := by push_cast; ring
  unfold roundFields
  simp only [hm, hne, if_false, hlog, hq, hsig]

/-- Two equal values `m * 2^e` round alike. -/
theorem roundFields_congr (p : FParams) {m m' : Nat} {e e' : Int} (h : (m : Rat) * 2 ^ e = m' * 2 ^ e') :
    roundFields p m e = roundFields p m' e' := by
  have main : ∀ (m m' : Nat) (e e' : Int), e ≤ e' → (m : Rat) * 2 ^ e = m' * 2 ^ e' →
      roundFields p m e = roundFields p m' e' := by
    intro m m' e e' hle h
    obtain ⟨k, hk⟩ : ∃ k : Nat, e' = e + k := ⟨(e' - e).toNat, by omega⟩
    subst hk
    have h2 : (2 : Rat) ^ e ≠ 0 := by positivity
    rw [zpow_add₀ (by norm_num), zpow_natCast] at h
    have h3 : (m : Rat) = m' * 2 ^ k := by
      apply mul_right_cancel₀ h2
      rw [h]
      ring
    have h4 : m = m' * 2 ^ k := by exact_mod_cast h3
    rw [h4, roundFields_scale]
  rcases le_total e e' with hle | hle
  · exact main m m' e e' hle h
  · exact (main m' m e' e hle h.symm).symm

/-- What fits a format is rounded to itself: the fields found denote the same value. -/
theorem roundFields_exact (p : FParams) (neg : Bool) {m : Nat} {e : Int} (hm : m < 2 ^ (p.frac + 1))
    (hlo : 1 - (p.bias : Int) - p.frac ≤ e) (hhi : e + p.frac + p.bias < p.expMax) (hmax : 0 < p.expMax) :
    ∃ (m' : Nat) (e' : Int), fieldsValue p neg (roundFields p m e).1 (roundFields p m e).2 = .fin neg m' e' ∧
      (m' : Rat) * 2 ^ e' = m * 2 ^ e := by
  by_cases h0 : m = 0
  · subst h0
    refine ⟨0, 1 - (p.bias : Int) - p.frac, ?_, by simp⟩
    simp only [roundFields, if_true, fieldsValue]
    rw [if_neg (by omega)]
  have hlog : Nat.log2 m ≤ p.frac := by
    have := (Nat.log2_lt h0).mpr hm
    omega
  have hself := Nat.log2_self_le h0
  have hlt := Nat.lt_log2_self (n := m)
  set q0 : Int := max (e + (Nat.log2 m : Int) - p.frac) (1 - (p.bias : Int) - p.frac) with hq0
  have hq : q0 ≤ e := by omega
  have hsigval : ((m * 2 ^ (e - q0).toNat : Nat) : Rat) * 2 ^ q0 = m * 2 ^ e := by
    have : e = ((e - q0).toNat : Int) + q0 := by omega
    conv_rhs => rw [this, zpow_add₀ (by norm_num), zpow_natCast]
    push_cast
    ring
  have hbound : m * 2 ^ (e - q0).toNat < 2 ^ (p.frac + 1) := by
    have h1 : (e - q0).toNat ≤ p.frac - Nat.log2 m := by omega
    calc m * 2 ^ (e - q0).toNat < 2 ^ (Nat.log2 m + 1) * 2 ^ (e - q0).toNat :=
          Nat.mul_lt_mul_of_pos_right hlt (Nat.two_pow_pos _)
      _ = 2 ^ (Nat.log2 m + 1 + (e - q0).toNat) := by rw [Nat.pow_add _ (Nat.log2 m + 1)]
      _ ≤ 2 ^ (p.frac + 1) := Nat.pow_le_pow_right (by omega) (by omega)
  have hroundq : roundFields p m e =
      if m * 2 ^ (e - q0).toNat < 2 ^ p.frac then (0, m * 2 ^ (e - q0).toNat)
      else ((q0 + p.frac + p.bias).toNat, m * 2 ^ (e - q0).toNat - 2 ^ p.frac) := by
    unfold roundFields
    simp only [h0, if_false, ← hq0, if_pos hq]
    rw [if_neg (show ¬ m * 2 ^ (e - q0).toNat = 2 ^ (p.frac + 1) by omega),
      if_neg (show ¬ m * 2 ^ (e - q0).toNat = 2 ^ (p.frac + 1) by omega),
      if_neg (show ¬ p.expMax ≤ (q0 + p.frac + p.bias).toNat by omega)]
  by_cases hsub : m * 2 ^ (e - q0).toNat < 2 ^ p.frac
  · have hqmin : q0 = 1 - (p.bias : Int) - p.frac := by
      by_contra hne
      have hqe : q0 = e + (Nat.log2 m : Int) - p.frac := by omega
      have h1 : (e - q0).toNat = p.frac - Nat.log2 m := by omega
      have h2 : 2 ^ p.frac ≤ m * 2 ^ (e - q0).toNat := by
        rw [h1]
        calc 2 ^ p.frac = 2 ^ Nat.log2 m * 2 ^ (p.frac - Nat.log2 m) := by rw [← Nat.pow_add]; congr 1; omega
          _ ≤ _ := Nat.mul_le_mul_right _ hself
      omega
    refine ⟨m * 2 ^ (e - q0).toNat, q0, ?_, hsigval⟩
    rw [hroundq, if_pos hsub]
    simp only [fieldsValue]
    rw [if_neg (by omega), if_true, hqmin]
  · refine ⟨m * 2 ^ (e - q0).toNat, q0, ?_, hsigval⟩
    rw [hroundq, if_neg hsub]
    simp only [fieldsValue]
    rw [if_neg (by omega), if_neg (by omega)]
    congr 1
    · omega
    · omega

/-! ### Fields and patterns -/

theorem fieldsValue_fin {p : FParams} {neg neg' : Bool} {ex fr m : Nat} {e : Int}
    (h : fieldsValue p neg ex fr = .fin neg' m e) : neg' = neg ∧ ex ≠ p.expMax ∧
      ((ex = 0 ∧ m = fr ∧ e = 1 - (p.bias : Int) - p.frac) ∨
       (ex ≠ 0 ∧ m = 2 ^ p.frac + fr ∧ e = (ex : Int) - p.bias - p.frac)) := by
  unfold fieldsValue at h
  split at h
  · split at h <;> cases h
  · split at h
    · cases h; exact ⟨rfl, ‹_›, .inl ⟨‹_›, rfl, rfl⟩⟩
    · cases h; exact ⟨rfl, ‹_›, .inr ⟨‹_›, rfl, rfl⟩⟩

theorem fieldsValue_inf {p : FParams} {neg neg' : Bool} {ex fr : Nat} (h : fieldsValue p neg ex fr = .inf neg') :
    neg' = neg ∧ ex = p.expMax ∧ fr = 0 := by
  unfold fieldsValue at h
  split at h
  · split at h
    · cases h; exact ⟨rfl, ‹_›, ‹_›⟩
    · cases h
  · split at h <;> cases h

theorem fieldsValue_nan {p : FParams} {neg : Bool} {ex fr : Nat} (h : fieldsValue p neg ex fr = .nan) :
    ex = p.expMax ∧ fr ≠ 0 := by
  unfold fieldsValue at h
  split at h
  · split at h
    · cases h
    · exact ⟨‹_›, ‹_›⟩
  · split at h <;> cases h

/-- Rounding the value of finite fields gives the fields back. -/
theorem roundFields_fieldsValue {p : FParams} {neg neg' : Bool} {ex fr m : Nat} {e : Int} (hfr : fr < 2 ^ p.frac)
    (hex : ex < p.expMax) (h : fieldsValue p neg ex fr = .fin neg' m e) : roundFields p m e = (ex, fr) := by
  obtain ⟨rfl, hne, ⟨rfl, rfl, rfl⟩ | ⟨h0, rfl, rfl⟩⟩ := fieldsValue_fin h
  · by_cases hm : m = 0
    · simp [roundFields, hm]
    · have hlog : Nat.log2 m < p.frac := (Nat.log2_lt hm).mpr hfr
      unfold roundFields
      simp only [hm, if_false]
      rw [max_eq_right (by omega)]
      rw [if_pos (le_refl _), sub_self, Int.toNat_zero, Nat.pow_zero, Nat.mul_one, Nat.pow_succ]
      rw [if_neg (show ¬ m = 2 ^ p.frac * 2 by omega), if_pos hfr]
  · have hlog : Nat.log2 (2 ^ p.frac + fr) = p.frac := by
      rw [Nat.log2_eq_iff (by positivity)]
      rw [Nat.pow_succ]
      omega
    have hmne : 2 ^ p.frac + fr ≠ 0 := by positivity
    have hpow : 2 ^ (p.frac + 1) = 2 ^ p.frac + 2 ^ p.frac := by rw [Nat.pow_succ]; omega
    unfold roundFields
    simp only [hmne, if_false, hlog]
    rw [max_eq_left (by omega), show (ex : Int) - p.bias - p.frac + p.frac - p.frac = ex - p.bias - p.frac by ring]
    rw [if_pos (le_refl _), sub_self, Int.toNat_zero, Nat.pow_zero, Nat.mul_one, hpow]
    rw [if_neg (show ¬ 2 ^ p.frac + fr = 2 ^ p.frac + 2 ^ p.frac by omega),
      if_neg (show ¬ 2 ^ p.frac + fr = 2 ^ p.frac + 2 ^ p.frac by omega), if_neg (by omega)]
    rw [show (ex : Int) - p.bias - p.frac + p.frac + p.bias = ex by ring, Int.toNat_natCast, if_neg (by omega)]
    simp

/-- The fields of a rounding are in range. -/
theorem roundFields_range (p : FParams) (m : Nat) (e : Int) :
    (roundFields p m e).1 ≤ p.expMax ∧ (roundFields p m e).2 < 2 ^ p.frac := by
  have hpos := Nat.two_pow_pos p.frac
  have hpow : 2 ^ (p.frac + 1) = 2 ^ p.frac + 2 ^ p.frac := by rw [Nat.pow_succ]; omega
  by_cases h0 : m = 0
  · simp [roundFields, h0]
  set q0 : Int := max (e + (Nat.log2 m : Int) - p.frac) (1 - (p.bias : Int) - p.frac) with hq0
  have hlt := Nat.lt_log2_self (n := m)
  have hsig : (if q0 ≤ e then m * 2 ^ (e - q0).toNat else shiftRNE m (q0 - e).toNat) ≤ 2 ^ (p.frac + 1) := by
    split
    · have h1 : Nat.log2 m + (e - q0).toNat ≤ p.frac := by omega
      refine le_of_lt (lt_of_lt_of_le (Nat.mul_lt_mul_of_pos_right hlt (Nat.two_pow_pos _)) ?_)
      rw [← Nat.pow_add]
      exact Nat.pow_le_pow_right (by omega) (by omega)
    · have h1 : m < 2 ^ (p.frac + 1) * 2 ^ (q0 - e).toNat := by
        refine lt_of_lt_of_le hlt ?_
        rw [← Nat.pow_add]
        exact Nat.pow_le_pow_right (by omega) (by omega)
      have h2 : m / 2 ^ (q0 - e).toNat < 2 ^ (p.frac + 1) := Nat.div_lt_of_lt_mul (by rw [Nat.mul_comm]; exact h1)
      rcases shiftRNE_cases m (q0 - e).toNat with h | h <;> omega
  unfold roundFields
  simp only [h0, if_false, ← hq0]
  generalize (if q0 ≤ e then m * 2 ^ (e - q0).toNat else shiftRNE m (q0 - e).toNat) = sig at *
  by_cases hc : sig = 2 ^ (p.frac + 1)
  · simp only [hc, if_true]
    rw [if_neg (by omega)]
    split
    · simp
    · simp; omega
  · simp only [hc, if_false]
    split
    · exact ⟨Nat.zero_le _, ‹_›⟩
    · split
      · exact ⟨le_refl _, hpos⟩
      · exact ⟨by omega, by omega⟩

/-- The value of an assembled binary32 pattern. -/
theorem value32_assemble {neg : Bool} {ex fr : Nat} (hex : ex < 2 ^ 8) (hfr : fr < 2 ^ 23) :
    value32 (BitVec.ofNat 32 (assemble binary32 31 neg (ex, fr))) = fieldsValue binary32 neg ex fr := by
  have hn : (BitVec.ofNat 32 (assemble binary32 31 neg (ex, fr))).toNat =
      (if neg then 2 ^ 31 else 0) + ex * 2 ^ 23 + fr := by
    simp only [assemble, binary32, BitVec.toNat_ofNat]
    split <;> omega
  unfold value32
  rw [BitVec.msb_eq_decide, hn]
  cases neg
  · congr 1
    · simp; omega
    · simp; omega
    · simp; omega
  · congr 1
    · simp; omega
    · simp; omega
    · simp; omega

/-- The value of an assembled binary64 pattern. -/
theorem pattern64Value_assemble {neg : Bool} {ex fr : Nat} (hex : ex < 2 ^ 11) (hfr : fr < 2 ^ 52) :
    pattern64Value (BitVec.ofNat 64 (assemble binary64 63 neg (ex, fr))) = fieldsValue binary64 neg ex fr := by
  have hn : (BitVec.ofNat 64 (assemble binary64 63 neg (ex, fr))).toNat =
      (if neg then 2 ^ 63 else 0) + ex * 2 ^ 52 + fr := by
    simp only [assemble, binary64, BitVec.toNat_ofNat]
    split <;> omega
  unfold pattern64Value
  rw [BitVec.msb_eq_decide, hn]
  cases neg
  · congr 1
    · simp; omega
    · simp; omega
    · simp; omega
  · congr 1
    · simp; omega
    · simp; omega
    · simp; omega

/-- A binary32 pattern is put together from its own fields. -/
theorem assemble_fields32 (x : Word) :
    BitVec.ofNat 32 (assemble binary32 31 x.msb (x.toNat / 2 ^ 23 % 2 ^ 8, x.toNat % 2 ^ 23)) = x := by
  apply BitVec.eq_of_toNat_eq
  have h := x.isLt
  rw [BitVec.msb_eq_decide]
  simp only [assemble, binary32, BitVec.toNat_ofNat]
  by_cases hs : 2 ^ 31 ≤ x.toNat
  · have hd : decide (2 ^ (32 - 1) ≤ x.toNat) = true := decide_eq_true hs
    rw [hd]
    simp only [if_true]
    omega
  · have hd : decide (2 ^ (32 - 1) ≤ x.toNat) = false := decide_eq_false hs
    rw [hd]
    simp only [Bool.false_eq_true, if_false]
    omega

/-- A pattern denotes a NaN exactly when `isNaN32` says so. -/
theorem value32_nan_iff (x : Word) : value32 x = .nan ↔ isNaN32 x = true := by
  unfold isNaN32
  rw [Bool.and_eq_true, decide_eq_true_eq, decide_eq_true_eq]
  constructor
  · exact fieldsValue_nan
  · rintro ⟨h1, h2⟩
    unfold value32 fieldsValue
    rw [if_pos (by simpa [binary32] using h1), if_neg h2]

/-- Rounding the value of a pattern that is no NaN gives the pattern back. -/
theorem round32_value32 {x : Word} (h : isNaN32 x = false) : round32 (value32 x) = x := by
  cases hv : value32 x with
  | nan => rw [(value32_nan_iff x).mp hv] at h; cases h
  | inf neg =>
    obtain ⟨rfl, h1, h2⟩ := fieldsValue_inf hv
    conv_rhs => rw [← assemble_fields32 x, h1, h2]
    rfl
  | fin neg m e =>
    obtain ⟨rfl, hne, _⟩ := fieldsValue_fin hv
    have hr := roundFields_fieldsValue (p := binary32) (Nat.mod_lt _ (Nat.two_pow_pos _))
      (by simp only [binary32] at hne ⊢; omega) hv
    rw [round32, hr]
    exact assemble_fields32 x

/-- A magnitude aligned to a lower exponent denotes the same number. -/
theorem signedAt_value (neg : Bool) (m : Nat) {e f : Int} (h : f ≤ e) :
    ((signedAt neg m e f : Int) : Rat) * 2 ^ f = (if neg then -1 else 1) * (m : Rat) * 2 ^ e := by
  have he : (2 : Rat) ^ e = 2 ^ (e - f).toNat * 2 ^ f := by
    rw [← zpow_natCast, ← zpow_add₀ (by norm_num)]
    congr 1
    omega
  unfold signedAt
  rw [he]
  cases neg <;> simp <;> ring

end Sys2Proof.Machine
end

