-- ==== Sys2Proof/Laws/Gain.lean ====
section
/-! SUPPORT. The integer gain arithmetic over numbers, the range of decoded samples, the accumulator. -/

namespace Sys2Proof.Machine

/-- `imul` as a floor (R183). -/
theorem imul_eq (s : Int) (g : Word) : imul s g = (s * (g.toNat : Int) + 32768) / 65536 := rfl

theorem imul_norm (s : Int) : imul s Config.volNorm = s := by
  rw [imul_eq, show (Config.volNorm.toNat : Int) = 65536 from rfl]
  omega

theorem imul_muted (s : Int) : imul s Config.volMuted = 0 := by
  rw [imul_eq, show (Config.volMuted.toNat : Int) = 0 from rfl]
  omega

theorem imul_zero (g : Word) : imul 0 g = 0 := by
  rw [imul_eq]
  simp

/-- A legal gain makes at most `2^46` of a 32-bit sample (R183). -/
theorem imul_abs_le {s : Int} {g : Word} (hs : |s| ≤ 2 ^ 31) (hg : g.toNat ≤ 0x7FFFFFFF) : |imul s g| ≤ 2 ^ 46 := by
  rw [imul_eq]
  have h1 : |s * (g.toNat : Int)| ≤ 2 ^ 31 * (2 ^ 31 - 1) := by
    rw [abs_mul]
    refine mul_le_mul hs ?_ (abs_nonneg _) (by norm_num)
    rw [abs_of_nonneg (Int.natCast_nonneg _)]
    omega
  rw [abs_le] at h1 ⊢
  omega

theorem clamp_of_mem {lo hi v : Int} (h1 : lo ≤ v) (h2 : v ≤ hi) : clamp lo hi v = v := by
  unfold clamp
  rw [if_neg (by omega), if_neg (by omega)]

theorem clamp_mem {lo hi : Int} (h : lo ≤ hi) (v : Int) : lo ≤ clamp lo hi v ∧ clamp lo hi v ≤ hi := by
  unfold clamp
  split
  · exact ⟨le_refl _, h⟩
  · split
    · exact ⟨h, le_refl _⟩
    · exact ⟨by omega, by omega⟩

theorem decUlaw_range (c : Byte) : -32768 ≤ decUlaw c ∧ decUlaw c ≤ 32767 := by
  revert c
  decide +kernel

theorem decAlaw_range (c : Byte) : -32768 ≤ decAlaw c ∧ decAlaw c ≤ 32767 := by
  revert c
  decide +kernel

/-- A decoded sample lies in the range of its format (R110), whatever the bytes. -/
theorem decInt_range (f : IntFmt) (bs : List Byte) : intLo f ≤ decInt f bs ∧ decInt f bs ≤ intHi f := by
  cases f with
  | u8 =>
    have := (byteAt bs 0).isLt
    simp only [decInt, intLo, intHi, nativeBits]
    omega
  | alaw => exact decAlaw_range _
  | ulaw => exact decUlaw_range _
  | s16le => exact ⟨BitVec.le_toInt _, by have := BitVec.toInt_lt (x := byteAt bs 1 ++ byteAt bs 0); simp only [decInt, intHi, nativeBits]; omega⟩
  | s16be => exact ⟨BitVec.le_toInt _, by have := BitVec.toInt_lt (x := byteAt bs 0 ++ byteAt bs 1); simp only [decInt, intHi, nativeBits]; omega⟩
  | s24le => exact ⟨BitVec.le_toInt _, Int.le_sub_one_of_lt BitVec.toInt_lt⟩
  | s24be => exact ⟨BitVec.le_toInt _, Int.le_sub_one_of_lt BitVec.toInt_lt⟩
  | s24in32le => exact ⟨BitVec.le_toInt _, Int.le_sub_one_of_lt BitVec.toInt_lt⟩
  | s24in32be => exact ⟨BitVec.le_toInt _, Int.le_sub_one_of_lt BitVec.toInt_lt⟩
  | s32le => exact ⟨BitVec.le_toInt _, Int.le_sub_one_of_lt BitVec.toInt_lt⟩
  | s32be => exact ⟨BitVec.le_toInt _, Int.le_sub_one_of_lt BitVec.toInt_lt⟩

theorem decInt_abs_le (f : IntFmt) (bs : List Byte) : |decInt f bs| ≤ 2 ^ 31 := by
  have h := decInt_range f bs
  have hlo : -2 ^ 31 ≤ intLo f := by cases f <;> decide
  have hhi : intHi f ≤ 2 ^ 31 := by cases f <;> decide
  rw [abs_le]
  omega

/-- The saturating add is exact while the sum fits (R224). -/
theorem sadd64_exact {a : BitVec 64} {b : Int} (h1 : -2 ^ 63 ≤ a.toInt + b) (h2 : a.toInt + b ≤ 2 ^ 63 - 1) :
    (sadd64 a b).toInt = a.toInt + b := by
  unfold sadd64
  rw [clamp_of_mem h1 h2, BitVec.toInt_ofInt, Int.bmod_def]
  omega

end Sys2Proof.Machine
end

