-- ==== Sys2Proof/Laws/PerInstr.lean ====
section
/-! SUPPORT. What is said of every command, one lemma per constructor. -/

namespace Sys2Proof.Laws

/-- The `match` and `mask` of the opcode table's row of a command (30_encoding.md R91). -/
def tableRow : Instr → Word × Word
  | .dec => (0x00000001, 0xFFFFFFFF)
  | .enc => (0x00000002, 0xFFFFFFFF)
  | .vol => (0x00000003, 0xFFFFFFFF)
  | .mix _ => (0x00000004, 0xFFFFC0FF)

/-- The word of a well-formed command matches its row of the table, and carries `NIN` where the row leaves it free. -/
def TablePattern.Statement (i : Instr) : Prop :=
  i.WellFormed → encode i &&& (tableRow i).2 = (tableRow i).1 ∧
    ninOf (encode i) = match i with
      | .mix nin => nin
      | _ => 0

theorem TablePattern.dec : TablePattern.Statement .dec := fun _ => ⟨rfl, rfl⟩

theorem TablePattern.enc : TablePattern.Statement .enc := fun _ => ⟨rfl, rfl⟩

theorem TablePattern.vol : TablePattern.Statement .vol := fun _ => ⟨rfl, rfl⟩

theorem TablePattern.mix (nin : Nat) : TablePattern.Statement (.mix nin) := by
  intro h
  have h' : nin < 64 := h
  refine ⟨?_, (commandWord_fields (by decide) h').2.1⟩
  have all : ∀ n : Fin 64, commandWord 4 n &&& 0xFFFFC0FF = 0x00000004 := by decide
  exact all ⟨nin, h'⟩

end Sys2Proof.Laws
end

