-- ==== Sys2Proof/Laws/Rounding.lean ====
section
/-! SUPPORT. What a rounding gives, once and for all: the nearest multiple of a power of two, its fields, overflow. -/

namespace Sys2Proof.Machine

/-- The exponent of the last place a rounding keeps. -/
def keptExp (p : FParams) (m : Nat) (e : Int) : Int :=
  max (e + (Nat.log2 m : Int) - p.frac) (1 - (p.bias : Int) - p.frac)

/-- The significand a rounding keeps, before a carry is moved to the exponent. -/
def keptSig (p : FParams) (m : Nat) (e : Int) : Nat :=
  if keptExp p m e ≤ e then m * 2 ^ (e - keptExp p m e).toNat else shiftRNE m (keptExp p m e - e).toNat

/-- The kept significand is the nearest one, the even one of two equally near. -/
theorem keptSig_near (p : FParams) (m : Nat) (e : Int) :
    2 * |(keptSig p m e : Rat) * 2 ^ keptExp p m e - m * 2 ^ e| ≤ 2 ^ keptExp p m e ∧
    (2 * |(keptSig p m e : Rat) * 2 ^ keptExp p m e - m * 2 ^ e| = 2 ^ keptExp p m e → keptSig p m e % 2 = 0) := by
  unfold keptSig
  generalize keptExp p m e = q
  by_cases h : q ≤ e
  · have hq : (0 : Rat) < 2 ^ q := by positivity
    have hv : ((m * 2 ^ (e - q).toNat : Nat) : Rat) * 2 ^ q = m * 2 ^ e := by
      have : e = ((e - q).toNat : Int) + q := by omega
      conv_rhs => rw [this, zpow_add₀ (by norm_num), zpow_natCast]
      push_cast
      ring
    rw [if_pos h, hv, sub_self, abs_zero, mul_zero]
    exact ⟨hq.le, fun h0 => absurd h0 hq.ne⟩
  · rw [if_neg h]
    obtain ⟨n, hn⟩ : ∃ n : Nat, q = e + n := ⟨(q - e).toNat, by omega⟩
    subst hn
    have he : (0 : Rat) < 2 ^ e := by positivity
    have hnear := shiftRNE_near m n
    rw [show (e + (n : Int) - e).toNat = n by omega]
    generalize shiftRNE m n = g at *
    obtain ⟨h1, h2, h3⟩ := hnear
    have h1' : 2 * ((g : Rat) * 2 ^ n) ≤ 2 * m + 2 ^ n := by exact_mod_cast h1
    have h2' : 2 * (m : Rat) ≤ 2 * (g * 2 ^ n) + 2 ^ n := by exact_mod_cast h2
    have hfac : (g : Rat) * 2 ^ (e + (n : Int)) - m * 2 ^ e = (g * 2 ^ n - m) * 2 ^ e := by
      rw [zpow_add₀ (by norm_num), zpow_natCast]
      ring
    have hpow : (2 : Rat) ^ (e + (n : Int)) = 2 ^ n * 2 ^ e := by
      rw [zpow_add₀ (by norm_num), zpow_natCast]
      ring
    rw [hfac, abs_mul, abs_of_pos he, hpow, ← mul_assoc]
    constructor
    · refine mul_le_mul_of_nonneg_right ?_ he.le
      rcases abs_cases ((g : Rat) * 2 ^ n - m) with ⟨ha, _⟩ | ⟨ha, _⟩ <;> rw [ha] <;> linarith
    · intro heq
      have heq' := mul_right_cancel₀ he.ne' heq
      apply h3
      rcases abs_cases ((g : Rat) * 2 ^ n - m) with ⟨ha, _⟩ | ⟨ha, _⟩ <;> rw [ha] at heq'
      · left
        have : 2 * ((g : Rat) * 2 ^ n) = 2 * m + 2 ^ n := by linarith
        exact_mod_cast this
      · right
        have : 2 * (m : Rat) = 2 * (g * 2 ^ n) + 2 ^ n := by linarith
        exact_mod_cast this

/-- The kept significand has at most one bit too many. -/
theorem keptSig_le (p : FParams) (m : Nat) (e : Int) : keptSig p m e ≤ 2 ^ (p.frac + 1) := by
  have hlt := Nat.lt_log2_self (n := m)
  have hq0 : keptExp p m e = max (e + (Nat.log2 m : Int) - p.frac) (1 - (p.bias : Int) - p.frac) := rfl
  unfold keptSig
  generalize keptExp p m e = q0 at *
  split
  · have h1 : Nat.log2 m + (e - q0).toNat ≤ p.frac := by omega
    refine le_of_lt (lt_of_lt_of_le (Nat.mul_lt_mul_of_pos_right hlt (Nat.two_pow_pos _)) ?_)
    rw [← Nat.pow_add]
    exact Nat.pow_le_pow_right (by omega) (by omega)
  · have h1 : m < 2 ^ (p.frac + 1) * 2 ^ (q0 - e).toNat := by
      refine lt_of_lt_of_le hlt ?_
      rw [← Nat.pow_add]
      exact Nat.pow_le_pow_right (by omega) (by omega)
    have h2 : m / 2 ^ (q0 - e).toNat < 2 ^ (p.frac + 1) := Nat.div_lt_of_lt_mul (by rw [Nat.mul_comm]; exact h1)
    rcases shiftRNE_cases m (q0 - e).toNat with h | h <;> omega

/-- Above the least exponent the value rounded, and so the significand kept, has all its bits. -/
theorem keptSig_ge (p : FParams) {m : Nat} (e : Int) (hm : m ≠ 0)
    (h : keptExp p m e ≠ 1 - (p.bias : Int) - p.frac) :
    (2 : Rat) ^ p.frac * 2 ^ keptExp p m e ≤ m * 2 ^ e ∧ 2 ^ p.frac ≤ keptSig p m e := by
  have hq : keptExp p m e = e + (Nat.log2 m : Int) - p.frac := by unfold keptExp at *; omega
  have hself := Nat.log2_self_le hm
  have hmain : (2 : Rat) ^ p.frac * 2 ^ keptExp p m e ≤ m * 2 ^ e := by
    have he : (0 : Rat) < 2 ^ e := by positivity
    have : (2 : Rat) ^ p.frac * 2 ^ keptExp p m e = 2 ^ Nat.log2 m * 2 ^ e := by
      rw [← zpow_natCast, ← zpow_natCast, ← zpow_add₀ (by norm_num), ← zpow_add₀ (by norm_num), hq]
      congr 1
      omega
    rw [this]
    exact mul_le_mul_of_nonneg_right (by exact_mod_cast hself) he.le
  refine ⟨hmain, ?_⟩
  have hk : (0 : Rat) < 2 ^ keptExp p m e := by positivity
  have hnear := (keptSig_near p m e).1
  by_contra hlt
  have hlt' : (keptSig p m e : Rat) + 1 ≤ 2 ^ p.frac := by exact_mod_cast (show keptSig p m e + 1 ≤ 2 ^ p.frac by omega)
  have h1 : ((keptSig p m e : Rat) + 1) * 2 ^ keptExp p m e ≤ 2 ^ p.frac * 2 ^ keptExp p m e :=
    mul_le_mul_of_nonneg_right hlt' hk.le
  have h2 := neg_abs_le ((keptSig p m e : Rat) * 2 ^ keptExp p m e - m * 2 ^ e)
  nlinarith

/-- The fields a rounding gives, in terms of what it keeps. -/
theorem roundFields_eq (p : FParams) {m : Nat} (e : Int) (hm : m ≠ 0) :
    roundFields p m e =
      if keptSig p m e < 2 ^ p.frac then (0, keptSig p m e)
      else if keptSig p m e = 2 ^ (p.frac + 1) then
        (if p.expMax ≤ (keptExp p m e + 1 + p.frac + p.bias).toNat then (p.expMax, 0)
          else ((keptExp p m e + 1 + p.frac + p.bias).toNat, 0))
      else
        (if p.expMax ≤ (keptExp p m e + p.frac + p.bias).toNat then (p.expMax, 0)
          else ((keptExp p m e + p.frac + p.bias).toNat, keptSig p m e - 2 ^ p.frac)) := by
  have hpos := Nat.two_pow_pos p.frac
  have hpow : 2 ^ (p.frac + 1) = 2 ^ p.frac + 2 ^ p.frac := by rw [Nat.pow_succ]; omega
  unfold roundFields
  rw [if_neg hm]
  simp only
  rw [show max (e + (Nat.log2 m : Int) - p.frac) (1 - (p.bias : Int) - p.frac) = keptExp p m e from rfl]
  rw [show (if keptExp p m e ≤ e then m * 2 ^ (e - keptExp p m e).toNat else shiftRNE m (keptExp p m e - e).toNat) =
    keptSig p m e from rfl]
  generalize keptSig p m e = sig
  by_cases hc : sig = 2 ^ (p.frac + 1)
  · rw [if_neg (show ¬ sig < 2 ^ p.frac by omega)]
    simp only [hc, if_true]
    rw [if_neg (show ¬ 2 ^ p.frac < 2 ^ p.frac by omega), Nat.sub_self]
  · simp only [hc, if_false]

/-- The value of a rounding that does not overflow: the kept significand at the kept exponent, the fraction field having
its parity. -/
theorem roundFields_value (p : FParams) (neg : Bool) {m : Nat} (e : Int) (hm : m ≠ 0) (hf : 0 < p.frac)
    (hx : 1 < p.expMax) (h : (keptSig p m e : Rat) * 2 ^ keptExp p m e < 2 ^ ((p.expMax : Int) - p.bias)) :
    ∃ (m' : Nat) (e' : Int), fieldsValue p neg (roundFields p m e).1 (roundFields p m e).2 = .fin neg m' e' ∧
      (m' : Rat) * 2 ^ e' = keptSig p m e * 2 ^ keptExp p m e ∧ (roundFields p m e).2 % 2 = keptSig p m e % 2 := by
  have hpos := Nat.two_pow_pos p.frac
  have hpow : 2 ^ (p.frac + 1) = 2 ^ p.frac + 2 ^ p.frac := by rw [Nat.pow_succ]; omega
  have heven : 2 ^ p.frac % 2 = 0 := by
    obtain ⟨n, hn⟩ : ∃ n, p.frac = n + 1 := ⟨p.frac - 1, by omega⟩
    rw [hn, Nat.pow_succ]; omega
  have hmin : 1 - (p.bias : Int) - p.frac ≤ keptExp p m e := le_max_right _ _
  have hge := keptSig_ge p e hm
  have hle := keptSig_le p m e
  have hbig : 2 ^ p.frac ≤ keptSig p m e → keptExp p m e + p.frac + p.bias < p.expMax ∧
      (keptSig p m e = 2 ^ (p.frac + 1) → keptExp p m e + 1 + p.frac + p.bias < p.expMax) := by
    intro hs
    have hk : (0 : Rat) < 2 ^ keptExp p m e := by positivity
    constructor
    · have h1 : (2 : Rat) ^ ((p.frac : Int) + keptExp p m e) < 2 ^ ((p.expMax : Int) - p.bias) := by
        refine lt_of_le_of_lt ?_ h
        rw [zpow_add₀ (by norm_num), zpow_natCast]
        exact mul_le_mul_of_nonneg_right (by exact_mod_cast hs) hk.le
      have := (zpow_lt_zpow_iff_right₀ (by norm_num : (1 : Rat) < 2)).mp h1
      omega
    · intro hc
      have h1 : (2 : Rat) ^ (((p.frac + 1 : Nat) : Int) + keptExp p m e) < 2 ^ ((p.expMax : Int) - p.bias) := by
        refine lt_of_le_of_lt ?_ h
        rw [zpow_add₀ (by norm_num), zpow_natCast, hc]
        push_cast
        exact le_refl _
      have := (zpow_lt_zpow_iff_right₀ (by norm_num : (1 : Rat) < 2)).mp h1
      omega
  rw [roundFields_eq p e hm]
  by_cases hsub : keptSig p m e < 2 ^ p.frac
  · have hq : keptExp p m e = 1 - (p.bias : Int) - p.frac := by
      by_contra hne
      have := (hge hne).2
      omega
    refine ⟨keptSig p m e, keptExp p m e, ?_, rfl, ?_⟩
    · rw [if_pos hsub]
      simp only [fieldsValue]
      rw [if_neg (by omega), if_true, hq]
    · rw [if_pos hsub]
  · obtain ⟨hb1, hb2⟩ := hbig (by omega)
    by_cases hc : keptSig p m e = 2 ^ (p.frac + 1)
    · have hb := hb2 hc
      refine ⟨2 ^ p.frac, keptExp p m e + 1, ?_, ?_, ?_⟩
      · rw [if_neg hsub, if_pos hc, if_neg (by omega)]
        simp only [fieldsValue]
        rw [if_neg (by omega), if_neg (by omega)]
        congr 1
        omega
      · rw [hc, zpow_add₀ (by norm_num)]
        push_cast
        ring
      · rw [if_neg hsub, if_pos hc, if_neg (by omega), hc]
        simp only
        omega
    · refine ⟨keptSig p m e, keptExp p m e, ?_, rfl, ?_⟩
      · rw [if_neg hsub, if_neg hc, if_neg (by omega)]
        simp only [fieldsValue]
        rw [if_neg (by omega), if_neg (by omega)]
        congr 1
        · omega
        · omega
      · rw [if_neg hsub, if_neg hc, if_neg (by omega)]
        simp only
        omega

/-- A rounding that overflows gives the all-ones exponent and a zero fraction. -/
theorem roundFields_overflow (p : FParams) {m : Nat} (e : Int) (hm : m ≠ 0) (hx : 1 < p.expMax)
    (h : 2 ^ ((p.expMax : Int) - p.bias) ≤ (keptSig p m e : Rat) * 2 ^ keptExp p m e) :
    roundFields p m e = (p.expMax, 0) := by
  have hpow : 2 ^ (p.frac + 1) = 2 ^ p.frac + 2 ^ p.frac := by rw [Nat.pow_succ]; omega
  have hpos := Nat.two_pow_pos p.frac
  have hle := keptSig_le p m e
  have hk : (0 : Rat) < 2 ^ keptExp p m e := by positivity
  have hup : ∀ n : Nat, keptSig p m e < 2 ^ n → (p.expMax : Int) - p.bias < n + keptExp p m e := by
    intro n hn
    have h1 : (2 : Rat) ^ ((p.expMax : Int) - p.bias) < 2 ^ ((n : Int) + keptExp p m e) := by
      refine lt_of_le_of_lt h ?_
      rw [zpow_add₀ (by norm_num), zpow_natCast]
      exact mul_lt_mul_of_pos_right (by exact_mod_cast hn) hk
    exact (zpow_lt_zpow_iff_right₀ (by norm_num : (1 : Rat) < 2)).mp h1
  rw [roundFields_eq p e hm]
  by_cases hsub : keptSig p m e < 2 ^ p.frac
  · have hq : keptExp p m e = 1 - (p.bias : Int) - p.frac := by
      by_contra hne
      have := (keptSig_ge p e hm hne).2
      omega
    have := hup p.frac hsub
    omega
  · rw [if_neg hsub]
    by_cases hc : keptSig p m e = 2 ^ (p.frac + 1)
    · have := hup (p.frac + 2) (by rw [hc]; exact Nat.pow_lt_pow_right (by omega) (by omega))
      rw [if_pos hc, if_pos (by omega)]
    · have := hup (p.frac + 1) (by omega)
      rw [if_neg hc, if_pos (by omega)]

end Sys2Proof.Machine
end

