-- ==== Sys2Proof/Laws/Step.lean ====
section
/-! SUPPORT. What one step does with each act of the host, which offsets are which registers, and what a list of
gains in a host line expands to. -/

namespace Sys2Proof.Machine

theorem step_nil {s : State} (h : s.pending = []) : step s = tick s := by simp [step, h]

theorem step_cons {s : State} {act : HostAct} {rest : List HostAct} (h : s.pending = act :: rest) :
    step s = serve act { s with pending := rest } := by simp [step, h]

@[simp] theorem serve_write (off : Nat) (w : Word) (s : State) : serve (.write off w) s = portWrite off w s := rfl
@[simp] theorem serve_read (off : Nat) (s : State) : serve (.read off) s = portRead off s := rfl
@[simp] theorem serve_store (addr : Word) (b : Byte) (s : State) : serve (.store addr b) s = hostStore addr b s := rfl
@[simp] theorem serve_load (addr : Word) (s : State) : serve (.load addr) s = hostLoad addr s := rfl
@[simp] theorem serve_hardReset (s : State) : serve .hardReset s = .next (resetBlock s) := rfl
@[simp] theorem serve_run (s : State) : serve .run s = tick s := rfl

/-- `WAIT` reads `STATUS` once outside BUSY. -/
theorem serve_wait_idle {s : State} (h : statusBusy s = false) :
    serve .wait s = .next { s with rdata := statusWord s } := by simp [serve, hostWait, h]

/-- In BUSY `WAIT` stays pending while the block goes on. -/
theorem serve_wait_busy {s : State} (h : statusBusy s = true) :
    serve .wait s = tick { s with rdata := statusWord s, pending := .wait :: s.pending } := by
  simp [serve, hostWait, h]

/-- A write to `CMD` goes to `writeCmd`. -/
theorem portWrite_cmd (w : Word) (s : State) : portWrite 0 w s = writeCmd w s := rfl

/-- A write to any other register stores it. -/
theorem portWrite_reg {off : Nat} {r : PortReg} (h : regAt off = some r) (hr : r ≠ .cmd) (w : Word) (s : State) :
    portWrite off w s = .next (storeReg s r w) := by
  unfold portWrite
  rw [h]
  cases r <;> first | rfl | exact absurd rfl hr

/-- An offset that is no register's is refused. -/
theorem portWrite_none {off : Nat} (h : regAt off = none) (w : Word) (s : State) :
    portWrite off w s = .refused (.notAPortAccess off) := by
  unfold portWrite
  rw [h]

theorem portRead_reg {off : Nat} {r : PortReg} (h : regAt off = some r) (s : State) :
    portRead off s = .next { s with rdata := readReg s r } := by
  unfold portRead
  rw [h]

theorem portRead_none {off : Nat} (h : regAt off = none) (s : State) :
    portRead off s = .refused (.notAPortAccess off) := by
  unfold portRead
  rw [h]

/-- Exactly the misaligned and the outside offsets are no register's. -/
theorem regAt_eq_none_iff (off : Nat) : regAt off = none ↔ off % 4 ≠ 0 ∨ 0x4000 ≤ off := by
  rw [show (0x4000 : Nat) = Config.regWindow from rfl]
  unfold regAt
  constructor
  · intro h
    by_contra hc
    rw [if_neg hc] at h
    repeat (split at h <;> try cases h)
  · intro h
    rw [if_pos h]

theorem statusBusy_of_busy {s : State} {job : Job} (h : s.phase = .busy job) : statusBusy s = true := by
  simp [statusBusy, h]

theorem statusBusy_of_not_busy {s : State} (h : ∀ job, s.phase ≠ .busy job) : statusBusy s = false := by
  unfold statusBusy
  split
  · exact absurd ‹_› (h _)
  · rfl

/-- `CTRL` works in every STATE. -/
theorem storeReg_ctrl (s : State) (w : Word) : storeReg s .ctrl w = if w.getLsbD 0 then resetBlock s else s := rfl

/-- Every other register ignores a write while busy. -/
theorem storeReg_busy {s : State} {r : PortReg} (w : Word) (h : statusBusy s = true) (hr : r ≠ .ctrl) :
    storeReg s r w = s := by
  cases r <;> first | exact absurd rfl hr | simp [storeReg, h]

/-- Outside BUSY a write takes effect. -/
theorem storeReg_idle {s : State} {r : PortReg} (w : Word) (h : statusBusy s = false) (hr : r ≠ .ctrl) :
    storeReg s r w = writeReg s r w := by
  cases r <;> first | exact absurd rfl hr | simp [storeReg, h]

/-- A write to a register other than `CTRL` leaves STATE and memory as they are. -/
theorem writeReg_phase (s : State) (r : PortReg) (w : Word) :
    (writeReg s r w).phase = s.phase ∧ (writeReg s r w).mem = s.mem ∧ (writeReg s r w).errCode = s.errCode ∧
    (writeReg s r w).errInfo = s.errInfo ∧ (writeReg s r w).errCmd = s.errCmd := by
  cases r with
  | status =>
    unfold writeReg
    cases w.getLsbD 1 <;> exact ⟨rfl, rfl, rfl, rfl, rfl⟩
  | _ => exact ⟨rfl, rfl, rfl, rfl, rfl⟩

/-- A list of gains is one write each, in ascending order (30_encoding.md R98). -/
theorem wrGains_eq (reg : Nat → PortReg) : ∀ (gains : List Word) (c : Nat), wrGains reg c gains =
    (List.range gains.length).map (fun j => HostAct.write (offsetOf (reg (c + j))) (gains.getD j 0))
  | [], _ => rfl
  | g :: gains, c => by
    simp only [wrGains, wrGains_eq reg gains (c + 1), List.length_cons, List.range_succ_eq_map, List.map_cons, List.map_map]
    congr 1
    refine List.map_congr_left fun j _ => ?_
    simp [Nat.add_assoc, Nat.add_comm 1 j]

end Sys2Proof.Machine
end

