-- ==== Sys2Proof/Tests/Slice0.lean ====
section
/-! SUPPORT. Tests, each one step on a small state, with the spec's own vectors (95_test_vectors.md,
96_test_vectors_tables.md) or a word or sum written out from a rule; and after them, for every statement with
hypotheses, a state and operands that meet them. -/

namespace Sys2Proof.Tests

open Sys2Proof Sys2Proof.Machine

/-! ### Well-formedness and decoding -/

/-- 30_encoding.md R92: `NIN` has six bits. -/
theorem test_mix_64_ill_formed : Instr.wellFormed (.mix 64) = false := by decide

theorem test_mix_64_not_WellFormed : ¬ Instr.WellFormed (.mix 64) := by decide

theorem test_well_formed : [Instr.dec, .enc, .vol, .mix 0, .mix 63].all Instr.wellFormed = true := by decide

/-- 30_encoding.md R91: each field written out, reserved [31:14], NIN [13:8], OPCODE [7:0]. -/
theorem test_decode_dec : decode (0b000000000000000000#18 ++ 0b000000#6 ++ 0b00000001#8) = .ok .dec := by decide

theorem test_decode_enc : decode (0b000000000000000000#18 ++ 0b000000#6 ++ 0b00000010#8) = .ok .enc := by decide

theorem test_decode_vol : decode (0b000000000000000000#18 ++ 0b000000#6 ++ 0b00000011#8) = .ok .vol := by decide

theorem test_decode_mix : decode (0b000000000000000000#18 ++ 0b100000#6 ++ 0b00000100#8) = .ok (.mix 32) := by decide

/-- 95_test_vectors.md section 2.1: illegal words. -/
theorem test_decode_illegal :
    [0x00000000, 0x00000005, 0x000000FF, 0x00000101, 0x00004004, 0x80000004].map decode =
      [.error .opcode, .error .opcode, .error .opcode, .error .ninNotZero, .error .reservedBits,
        .error .reservedBits] := by decide

theorem test_decodeTableWord :
    [1, 2, 3, 0x2004, 0].map (decodeTableWord 32) = [some .dec, some .enc, some .vol, some (.mix 32), none] := by decide

theorem test_encode : [Instr.dec, .enc, .vol, .mix 1, .mix 63].map encode = [1, 2, 3, 0x104, 0x3F04] := by decide

/-! ### States -/

/-- Memory with bytes `bs` from address `a` on. -/
def memOf (a : Nat) (bs : List Byte) : List Host.Cell := memWrite [] a bs

/-- A Volume vector with one gain, the others MUTED. -/
def oneGain (g : Word) : Vector Word 32 := (Vector.replicate 32 0).setIfInBounds 0 g

/-- A chunk at offset 0. -/
def chunkAt (base len : Word) : Chunk := { base := base, offset := 0, length := len }

/-- An idle block set up for VOL: format, channels, gain of channel 0, the destination, memory there. -/
def volSt (format : BitVec 4) (channels : BitVec 6) (g base : Word) (bs : List Byte) : State :=
  { State.reset with
    spec := { format := format, channels := channels }
    dst := chunkAt base (BitVec.ofNat 32 bs.length)
    excl := true
    volLen := channels
    vol := oneGain g
    mem := memOf base.toNat bs }

/-- One mix input of one channel. -/
def inOf (format : BitVec 4) (g base len : Word) : MixInput :=
  { chunk := chunkAt base len, spec := { format := format, channels := 1 }, rate := 0, vlen := 1, vol := oneGain g }

/-- An idle block set up for MIX of one channel: format, destination, its length, inputs 0 and 1, memory. -/
def mixSt (format : BitVec 4) (base len : Word) (x0 x1 : MixInput) (mem : List Host.Cell) : State :=
  { State.reset with
    spec := { format := format, channels := 1 }
    dst := chunkAt base len
    excl := true
    inputs := ((Vector.replicate 32 MixInput.zero).setIfInBounds 0 x0).setIfInBounds 1 x1
    mem := mem }

/-- An idle block set up for DEC and ENC. -/
def regSt (format : BitVec 4) (smp canon : Word) : State :=
  { State.reset with spec := { format := format, channels := 0 }, smp := smp, canon := canon }

/-- A block in FAULT. -/
def faultSt : State := { State.reset with phase := .fault, errCode := 2, errCmd := 1 }

/-- The source samples of the golden fixture, and their scaled copy (95_test_vectors.md V1). -/
def golden : List Byte := [0x00, 0xFF, 0x7F, 0x80, 0x9F, 0x3F, 0x01, 0xF0, 0x20, 0x21]

def goldenScaled : List Byte := [0x0C, 0xF2, 0x7F, 0x80, 0x9B, 0x45, 0x0D, 0xE4, 0x29, 0x2A]

/-- What one step answers, where it goes on. -/
def after (o : Host.Outcome State Fault Refusal) : State :=
  match o with
  | .next t => t
  | _ => faultSt

/-- `n` bytes of memory after a command. -/
def bytesAfter (i : Instr) (s : State) (a n : Nat) : List Byte := memRead (after (exec i s)).mem a n

/-! ### The commands, on the spec's vectors -/

/-- 96_test_vectors_tables.md 2.2: `S24_32BE 0x563412AB`, the first byte being padding. -/
theorem test_dec_s24in32be : (after (exec .dec (regSt 8 0x563412AB 0))).canon = 0x00123456 := by decide

/-- 96_test_vectors_tables.md 2.2: `ALAW 0x00000000` and `ULAW 0x0000000F`. -/
theorem test_dec_companded :
    (after (exec .dec (regSt 1 0 0))).canon = 0xFFFFEA80 ∧
    (after (exec .dec (regSt 2 0x0F 0))).canon = 0xFFFFBE84 := by decide

/-- 96_test_vectors_tables.md 2.3: `S24_32BE 0xFF7FFFFF` saturates. -/
theorem test_enc_saturates : (after (exec .enc (regSt 8 0 0xFF7FFFFF))).smp = 0x000080FF := by decide

/-- 96_test_vectors_tables.md 2.3: `S16BE 0xFFFFFFFE`, bytes above the sample cleared. -/
theorem test_enc_clears : (after (exec .enc (regSt 4 0xFFFFFFFF 0xFFFFFFFE))).smp = 0x0000FEFF := by decide

/-- 95_test_vectors.md V1. -/
theorem test_vol_golden : bytesAfter .vol (volSt 0 1 0xE666 0x1000 golden) 0x1000 10 = goldenScaled := by decide

/-- 95_test_vectors.md V4, V5: a signalling NaN stays under NORM; -1.0 becomes +0.0 under MUTED. -/
theorem test_vol_bypass :
    bytesAfter .vol (volSt 11 1 0x10000 0x20 [0x01, 0x00, 0x80, 0x7F]) 0x20 4 = [0x01, 0x00, 0x80, 0x7F] ∧
    bytesAfter .vol (volSt 11 1 0 0x20 [0x00, 0x00, 0x80, 0xBF]) 0x20 4 = [0, 0, 0, 0] := by decide

/-- 95_test_vectors.md V2. -/
theorem test_mix_golden :
    bytesAfter (.mix 2) (mixSt 0 0x3000 10 (inOf 0 0x10000 0x1000 10) (inOf 0 0x10000 0x2000 10)
      (memWrite (memOf 0x1000 golden) 0x2000 goldenScaled)) 0x3000 10 =
      [0x00, 0xFF, 0x7E, 0x80, 0xBA, 0x04, 0x00, 0xFF, 0x00, 0x00] := by decide

/-- 44_mixer.md R227 and R12: two inputs of `FLT_MAX` give `FLT_MAX`; no input gives `+0.0`. -/
theorem test_mix_float :
    bytesAfter (.mix 2) (mixSt 11 0x30 8 (inOf 11 0x10000 0x10 4) (inOf 11 0x10000 0x20 4)
      (memWrite (memOf 0x10 [0xFF, 0xFF, 0x7F, 0x7F]) 0x20 [0xFF, 0xFF, 0x7F, 0x7F])) 0x30 8 =
      [0xFF, 0xFF, 0x7F, 0x7F, 0, 0, 0, 0] := by decide +kernel

/-- The host's question: step runs the decoded command as the first one after reset. -/
theorem test_step_runs_first :
    [1, 2, 3, 0x104].map (fun w => step (State.reset.withFetchWord 32 w)) =
      [Instr.dec, .enc, .vol, .mix 1].map (fun i => exec i State.reset) := rfl

/-- 95_test_vectors.md P1, lines 1 to 5 with their listed encodings. -/
theorem test_host_lines :
    [HostLine.wr .spec 4, .wr .smp 0xFE12, .issue .dec, .wait, .rd .canon].flatMap expand =
      [.write 0x0020 4, .write 0x0018 0xFE12, .write 0x0000 1, .wait, .read 0x001C] := by decide

/-- 30_encoding.md R98: the words of `SETSPEC`, `SETVOL` and `SETIN`. -/
theorem test_pseudo_lines :
    expand (.setSpec (.int .s16be) 2 44100) = [.write 0x20 0x204, .write 0x24 44100] ∧
    expand (.setVol [1, 2]) = [.write 0x38 2, .write 0x80 1, .write 0x84 2] ∧
    expand (.setIn 1 (.int .u8) 1 0 7 8 9) =
      [.write 0x1100 7, .write 0x1104 8, .write 0x1108 9, .write 0x110C 0x100, .write 0x1110 0] := by decide

/-- 30_encoding.md R97: the word of `MIX <n>` is `4 + (n << 8)`, also where it is illegal. -/
theorem test_mix_line :
    expand (.issue (.mix 63)) = [.write 0x0000 0x3F04] ∧ expand (.issue (.mix 64)) = [.write 0x0000 0x4004] := by decide

/-- 10_state.md R34, R38, R39: a block in FAULT on the gain of channel 5 of input 2, the words written out. -/
theorem test_error_words :
    let s := { faultSt with errCode := 7, errInfo := { ch := 5, idx := 2, inp := true }, errCmd := 0x304 }
    [PortReg.status, .errCode, .errInfo, .errCmd, .ctrl].map (readReg s) = [4, 7, 0x10205, 0x304, 0] := by decide

/-- 42_volume_model.md R190 and 93_implementation_defined.md U11: 0.9 gives `0xE666`; an argument outside `[0, 1]` is
refused. -/
theorem test_reference_curve :
    Config.linToVolRef (9 / 10) = some 0xE666 ∧ Config.linToVolRef 2 = none ∧ Config.linToVolRef (-1) = none := by
  decide +kernel

/-! ### States and operands that meet the hypotheses of the statements -/

theorem witness_StepRunsDecodedCommand :
    (State.reset.withFetchWord 32 0x104).pending = [.write 0 0x104] ∧
    (State.reset.withFetchWord 32 0x104).pace = .atOnce ∧ decode 0x104 = .ok (.mix 1) := by decide

/-- The state with one act of the host pending. -/
def doing (act : HostAct) (s : State) : State := { s with pending := [act] }

theorem witness_CmdAcceptedOnlyInIdle :
    (doing (.write 0 3) { State.reset with pace := .stepwise }).pending = [.write 0 3] ∧
    (doing (.write 0 3) { State.reset with pace := .stepwise }).pace = .stepwise ∧
    (doing (.write 0 3) { State.reset with pace := .stepwise }).phase = .idle ∧
    (doing (.write 0 3) faultSt).phase ≠ .idle ∧ (doing (.write 0 3) (accept 3 State.reset)).phase ≠ .idle ∧
    (doing (.read 0) faultSt).pending = [.read 0] := by decide

theorem witness_IllegalWordFaults :
    (doing (.write 0 0x4004) State.reset).phase = .idle ∧
    (doing (.write 0 0x4004) State.reset).pending = [.write 0 0x4004] ∧
    ¬ ((0x4004 : Word) = 1 ∨ (0x4004 : Word) = 2 ∨ (0x4004 : Word) = 3 ∨ (0x4004 : Word) &&& 0xFFFFC0FF = 4) ∧
    (doing (.write 0 0x4004) State.reset).pace = .atOnce := by decide

theorem witness_DecWritesCanon :
    (regSt 13 0 0).phase = .idle ∧ 12 < (regSt 13 0 0).spec.format.toNat ∧ 12 < (regSt 15 0 0).spec.format.toNat ∧
    formatOf (regSt 0 0 0).spec = some (.int .u8) ∧ formatOf (regSt 10 0 0).spec = some (.int .s32be) ∧
    formatOf (regSt 11 0 0).spec = some (.flt .float32le) ∧ formatOf (regSt 12 0 0).spec = some (.flt .float32be) := by
  decide

theorem witness_EncWritesSmp :
    (regSt 13 0 0).phase = .idle ∧ 12 < (regSt 13 0 0).spec.format.toNat ∧
    formatOf (regSt 8 0 0).spec = some (.int .s24in32be) ∧ formatOf (regSt 11 0 0).spec = some (.flt .float32le) ∧
    formatOf (regSt 12 0 0).spec = some (.flt .float32be) := by decide

theorem witness_IntegerEncodeFormulas :
    InRange .u8 (-32768) ∧ InRange .u8 32767 ∧ InRange .s16le (-32768) ∧ InRange .s16le 32767 ∧
    InRange .s24le (-8388608) ∧ InRange .s24le 8388607 ∧ InRange .s32le (-2147483648) ∧ InRange .s32le 2147483647 := by
  unfold InRange
  decide

/-- Both ends of the range of ULAW: segment 8, the last; and the values whose magnitude is in segment 0, the first. -/
theorem witness_IntegerEncodeFormulas_ulaw :
    InRange .ulaw (-32768) ∧ InRange .ulaw 32767 ∧
    IsSegment [0x3F, 0x7F, 0xFF, 0x1FF, 0x3FF, 0x7FF, 0xFFF, 0x1FFF] (min ((32767 : Int) / 4).natAbs 8159 + 33) 8 ∧
    IsSegment [0x3F, 0x7F, 0xFF, 0x1FF, 0x3FF, 0x7FF, 0xFFF, 0x1FFF] (min ((-32768 : Int) / 4).natAbs 8159 + 33) 8 ∧
    IsSegment [0x3F, 0x7F, 0xFF, 0x1FF, 0x3FF, 0x7FF, 0xFFF, 0x1FFF] (min ((123 : Int) / 4).natAbs 8159 + 33) 0 ∧
    IsSegment [0x3F, 0x7F, 0xFF, 0x1FF, 0x3FF, 0x7FF, 0xFFF, 0x1FFF] (min ((124 : Int) / 4).natAbs 8159 + 33) 1 := by
  unfold InRange IsSegment
  decide

/-- Both ends of the range of ALAW: segment 7; and of segments 0 and 1. -/
theorem witness_IntegerEncodeFormulas_alaw :
    InRange .alaw (-32768) ∧ InRange .alaw 32767 ∧
    IsSegment [0x1F, 0x3F, 0x7F, 0xFF, 0x1FF, 0x3FF, 0x7FF, 0xFFF] ((32767 : Int) / 8).toNat 7 ∧
    IsSegment [0x1F, 0x3F, 0x7F, 0xFF, 0x1FF, 0x3FF, 0x7FF, 0xFFF] (-((-32768 : Int) / 8) - 1).toNat 7 ∧
    IsSegment [0x1F, 0x3F, 0x7F, 0xFF, 0x1FF, 0x3FF, 0x7FF, 0xFFF] ((255 : Int) / 8).toNat 0 ∧
    IsSegment [0x1F, 0x3F, 0x7F, 0xFF, 0x1FF, 0x3FF, 0x7FF, 0xFFF] ((256 : Int) / 8).toNat 1 := by
  unfold InRange IsSegment
  decide

theorem witness_ValueRoundTrip :
    ([0x80] : List Byte).length = intWidth .u8 ∧ LinearFmt .s24in32be ∧ InRange .s24in32be (-8388608) ∧
    InRange .s24in32be 8388607 ∧ (-128 : Int) ≤ -128 ∧ (127 : Int) ≤ 127 := by
  unfold LinearFmt InRange
  decide

theorem witness_ByteRoundTrip :
    ([1, 2, 3] : List Byte).length = intWidth .s24be ∧ IntFmt.s24be ≠ .ulaw ∧ IntFmt.s24be ≠ .s24in32le ∧
    IntFmt.s24be ≠ .s24in32be ∧ ([1, 2, 3, 4] : List Byte).length = 4 := by decide

theorem witness_SaturatedEncodeClips : LinearFmt .s16le ∧ LinearFmt .s24be ∧ LinearFmt .s24in32le ∧ LinearFmt .s32be := by
  unfold LinearFmt
  decide

theorem witness_ZeroCodes : LinearFmt .s24in32le ∧ IntFmt.ulaw ≠ .alaw := by
  unfold LinearFmt
  decide

theorem witness_CompandingProperties :
    decUlaw 0xFF = decUlaw 0x7F ∧ decAlaw 0xD5 = decAlaw 0xD5 ∧ (-32768 : Int) ≤ -32768 ∧ (-32768 : Int) ≤ 32767 := by
  decide

theorem witness_GainMultiplyRounds :
    (-2147483648 : Int) ≤ 2147483647 ∧ (0 : Int) ≤ 0 ∧ (1 : Word).toNat ≤ (0x7FFFFFFF : Word).toNat ∧
    |(-2147483648 : Int)| ≤ 2 ^ 31 ∧ (0x7FFFFFFF : Word).toNat ≤ 0x7FFFFFFF := by decide

/-- The setup of a VOL with no failing check, all its parts decided. -/
theorem volSt_ok : VolOk (.int .u8) (volSt 0 1 0xE602 0x1000 golden) ∧
    VolOk (.int .s16le) (volSt 3 2 0x7FFFFFFF 0xFFFFFFFC [1, 2, 3, 4]) ∧
    VolOk (.flt .float32le) (volSt 11 1 0x10000 0x20 [0x01, 0x00, 0x80, 0x7F]) := by
  unfold VolOk
  decide

theorem witness_GoldenFixtureGains :
    (volSt 0 1 0xE602 0x1000 golden).phase = .idle ∧ memWf (volSt 0 1 0xE602 0x1000 golden).mem = true ∧
    VolOk (.int .u8) (volSt 0 1 0xE602 0x1000 golden) ∧ (volSt 0 1 0xE602 0x1000 golden).spec.channels = 1 ∧
    (volSt 0 1 0xE602 0x1000 golden).dst.length = 10 ∧
    memRead (volSt 0 1 0xE602 0x1000 golden).mem (chunkEA (volSt 0 1 0xE602 0x1000 golden).dst) 10 = golden :=
  ⟨rfl, by decide, volSt_ok.1, rfl, rfl, by decide +kernel⟩

theorem witness_ReferenceCurveMeetsLaws :
    (0 : Rat) ≤ 0 ∧ (0 : Rat) ≤ 1 ∧ (1 : Rat) ≤ 1 ∧ Config.linToVolRef 0 = some 0 ∧
    Config.linToVolRef 1 = some 0x10000 := by decide +kernel

/-- The largest gain below `2^24`, the smallest above, the largest legal one and the largest; a finite sample. -/
theorem witness_FloatGainMultipliers :
    (0xFFFFFF : Word).toNat < 2 ^ 24 ∧
    (2 ^ (23 + 1) ≤ (0x1000000 : Word).toNat ∧ (0x1000000 : Word).toNat < 2 ^ (24 + 1)) ∧
    (2 ^ (23 + 7) ≤ (0x7FFFFFFF : Word).toNat ∧ (0x7FFFFFFF : Word).toNat < 2 ^ (24 + 7)) ∧
    (2 ^ (23 + 8) ≤ (0xFFFFFFFF : Word).toNat ∧ (0xFFFFFFFF : Word).toNat < 2 ^ (24 + 8)) ∧
    value32 0x80000001 = .fin true 1 (-149) := by decide

theorem witness_FloatSampleScaling :
    (1 : Word) ≠ 0 ∧ (0x7FFFFFFF : Word).toNat ≤ 0x7FFFFFFF ∧ isNaN32 0x7F800001 = true ∧
    isNaN32 0x7F800000 = false ∧ value32 0x80000001 = .fin true 1 (-149) ∧
    value32 (gainF32 0x7FFFFFFF) = .fin false (2 ^ 23) (-8) ∧ value32 (gainF32 1) = .fin false (2 ^ 23) (-39) := by
  decide

theorem witness_WideningIsExact :
    isNaN32 0x80000001 = false ∧ value32 0x80000001 = .fin true 1 (-149) ∧ isNaN32 0xFF800000 = false ∧
    value32 0xFF800000 = .inf true ∧ value32 0x7F800000 = .inf false ∧ isNaN32 0x7F800001 = true := by
  decide

theorem witness_RoundingIsNearestEven :
    ratOf false (2 ^ 25 - 3) 103 < 2 ^ 128 - 2 ^ 103 ∧ 2 ^ 128 - 2 ^ 103 ≤ ratOf false (2 ^ 25 - 1) 103 ∧
    value32 0x7F7FFFFF = .fin false (2 ^ 24 - 1) 104 ∧
    ratOf false (2 ^ 54 - 3) 970 < 2 ^ 1024 - 2 ^ 970 ∧ 2 ^ 1024 - 2 ^ 970 ≤ ratOf false (2 ^ 54 - 1) 970 ∧
    pattern64Value 0x7FEFFFFFFFFFFFFF = .fin false (2 ^ 53 - 1) 971 := by
  have h : (2 : Rat) ^ 1024 = 2 ^ 54 * 2 ^ 970 := by rw [← pow_add]
  have hp : (0 : Rat) < 2 ^ 970 := by positivity
  have hz : (2 : Rat) ^ (970 : Int) = 2 ^ 970 := by rw [← zpow_natCast]; rfl
  refine ⟨by norm_num [ratOf], by norm_num [ratOf], by decide, ?_, ?_, by decide +kernel⟩
  all_goals
    rw [h, ratOf, hz]
    generalize (2 : Rat) ^ 970 = p at hp
    norm_num
    linarith

/-- Finite numbers, a zero among them, NaNs and infinities of both signs. -/
theorem witness_FloatOperationsRoundExactResults :
    value32 0x3F800000 = .fin false (2 ^ 23) (-23) ∧ value32 0x80000000 = .fin true 0 (-149) ∧
    value32 0x7F800001 = .nan ∧ value32 0x7F800000 = .inf false ∧ value32 0xFF800000 = .inf true ∧
    value64 (.bits 0x3FF0000000000000) = .fin false (2 ^ 52) (-52) ∧ value64 (.bits 0) = .fin false 0 (-1074) ∧
    value64 .nan = .nan ∧ value64 (.bits 0x7FF0000000000000) = .inf false ∧
    value64 (.bits 0xFFF0000000000000) = .inf true := by decide

theorem witness_FloatFinalStep :
    value64 (.bits 0x47EFFFFFE0000000) = .fin false (2 ^ 53 - 2 ^ 29) 75 ∧
    ratOf false (2 ^ 53 - 2 ^ 29) 75 ≤ (2 - 1 / 2 ^ 23) * 2 ^ 127 ∧
    value64 (.bits 0xC7EFFFFFE0000001) = .fin true (2 ^ 53 - 2 ^ 29 + 1) 75 ∧
    (2 - 1 / 2 ^ 23) * 2 ^ 127 < ratOf false (2 ^ 53 - 2 ^ 29 + 1) 75 ∧
    value64 (.bits 0xFFF0000000000000) = .inf true := by
  refine ⟨by decide, by norm_num [ratOf], by decide +kernel, by norm_num [ratOf], by decide +kernel⟩

theorem witness_VolFaultOrder_format :
    (volSt 13 1 1 0 [1]).phase = .idle ∧ 12 < (volSt 13 1 1 0 [1]).spec.format.toNat ∧
    12 < (volSt 15 1 1 0 [1]).spec.format.toNat := by decide

theorem witness_VolFaultOrder_channels :
    formatOf (volSt 12 0 1 0 []).spec = some (.flt .float32be) ∧ (volSt 12 0 1 0 []).spec.channels.toNat = 0 ∧
    formatOf (volSt 0 33 1 0 []).spec = some (.int .u8) ∧ 32 < (volSt 0 33 1 0 []).spec.channels.toNat := by decide

theorem witness_VolFaultOrder_length_register :
    formatOf (volSt 0 32 1 0 []).spec = some (.int .u8) ∧ (volSt 0 32 1 0 []).spec.channels.toNat ≤ 32 ∧
    1 ≤ (volSt 0 1 1 0 []).spec.channels.toNat ∧
    { volSt 0 32 1 0 [] with volLen := 31 }.volLen ≠ (volSt 0 32 1 0 []).spec.channels := by decide

theorem witness_VolFaultOrder_gain :
    formatOf (volSt 0 1 0x80000000 0 []).spec = some (.int .u8) ∧
    (volSt 0 1 0x80000000 0 []).volLen = (volSt 0 1 0x80000000 0 []).spec.channels ∧
    0 < (volSt 0 1 0x80000000 0 []).spec.channels.toNat ∧
    0x7FFFFFFF < (gainAt (volSt 0 1 0x80000000 0 []).vol 0).toNat ∧
    (∀ c' < 0, (gainAt (volSt 0 1 0x80000000 0 []).vol c').toNat ≤ 0x7FFFFFFF) := by decide

/-- A chunk of one byte under a two-byte format; one that ends one byte past `2^32`; one that ends at `2^32`. -/
theorem witness_VolFaultOrder_chunk :
    (∀ c < (volSt 3 1 0x7FFFFFFF 0 [1]).spec.channels.toNat,
      (gainAt (volSt 3 1 0x7FFFFFFF 0 [1]).vol c).toNat ≤ 0x7FFFFFFF) ∧
    (volSt 3 1 1 0 [1]).dst.length.toNat % (fmtWidth (.int .s16le) * (volSt 3 1 1 0 [1]).spec.channels.toNat) ≠ 0 ∧
    (volSt 3 1 1 0xFFFFFFFF [1, 2]).dst.length.toNat %
      (fmtWidth (.int .s16le) * (volSt 3 1 1 0xFFFFFFFF [1, 2]).spec.channels.toNat) = 0 ∧
    2 ^ 32 < (volSt 3 1 1 0xFFFFFFFF [1, 2]).dst.base.toNat + (volSt 3 1 1 0xFFFFFFFF [1, 2]).dst.offset.toNat +
      (volSt 3 1 1 0xFFFFFFFF [1, 2]).dst.length.toNat ∧
    (volSt 3 1 1 0xFFFFFFFE [1, 2]).dst.base.toNat + (volSt 3 1 1 0xFFFFFFFE [1, 2]).dst.offset.toNat +
      (volSt 3 1 1 0xFFFFFFFE [1, 2]).dst.length.toNat ≤ 2 ^ 32 ∧
    { volSt 3 1 1 0xFFFFFFFE [1, 2] with excl := false }.excl = false ∧
    (volSt 3 1 1 0xFFFFFFFE [1, 2]).excl = true := by decide

theorem witness_VolTransformsEverySample :
    (volSt 3 2 0x7FFFFFFF 0xFFFFFFFC [1, 2, 3, 4]).phase = .idle ∧
    memWf (volSt 3 2 0x7FFFFFFF 0xFFFFFFFC [1, 2, 3, 4]).mem = true ∧
    VolOk (.int .s16le) (volSt 3 2 0x7FFFFFFF 0xFFFFFFFC [1, 2, 3, 4]) := ⟨rfl, by decide, volSt_ok.2.1⟩

theorem witness_VolNormAndMutedLaws :
    (volSt 11 1 0x10000 0x20 [0x01, 0x00, 0x80, 0x7F]).phase = .idle ∧
    memWf (volSt 11 1 0x10000 0x20 [0x01, 0x00, 0x80, 0x7F]).mem = true ∧
    VolOk (.flt .float32le) (volSt 11 1 0x10000 0x20 [0x01, 0x00, 0x80, 0x7F]) ∧
    (∀ c < (volSt 11 1 0x10000 0x20 [0x01, 0x00, 0x80, 0x7F]).spec.channels.toNat,
      gainAt (volSt 11 1 0x10000 0x20 [0x01, 0x00, 0x80, 0x7F]).vol c = Config.volNorm) ∧
    VolOk (.int .u8) (volSt 0 1 0 0x20 [7]) ∧
    (∀ c < (volSt 0 1 0 0x20 [7]).spec.channels.toNat, gainAt (volSt 0 1 0 0x20 [7]).vol c = Config.volMuted) := by
  refine ⟨rfl, ?_, volSt_ok.2.2, ?_, ?_, ?_⟩
  · decide
  · decide
  · unfold VolOk
    decide
  · decide

theorem witness_VolDeterminism :
    VolOk (.int .u8) (volSt 0 1 5 0x20 [7, 8]) ∧ VolOk (.int .u8) { volSt 0 1 5 0x40 [7, 8] with canon := 1 } ∧
    (volSt 0 1 5 0x20 [7, 8]).spec = (volSt 0 1 5 0x40 [7, 8]).spec ∧
    memWf (volSt 0 1 5 0x20 [7, 8]).mem = true ∧ memWf (volSt 0 1 5 0x40 [7, 8]).mem = true ∧
    (∀ c < 1, gainAt (volSt 0 1 5 0x20 [7, 8]).vol c = gainAt (volSt 0 1 5 0x40 [7, 8]).vol c) ∧
    (∀ j < 2, readByte (volSt 0 1 5 0x20 [7, 8]).mem (0x20 + j) = readByte (volSt 0 1 5 0x40 [7, 8]).mem (0x40 + j)) := by
  unfold VolOk
  decide

/-- An integer MIX of two inputs, the second the destination itself. -/
def mixInt : State :=
  mixSt 3 0x40 6 (inOf 3 0x10000 0x20 4) (inOf 3 0x7FFFFFFF 0x40 6) (memOf 0x20 [1, 2, 3, 4])

/-- A float MIX of one input that ends at the destination's first byte. -/
def mixFlt : State :=
  mixSt 12 0x40 8 (inOf 12 0x8000 0x3C 4) (inOf 12 0 0x40 0) (memOf 0x3C [0x3F, 0x80, 0, 0])

theorem mixInt_ok : MixOk (.int .s16le) 2 mixInt ∧ mixInt.phase = .idle ∧ memWf mixInt.mem = true := by
  unfold MixOk MixDstOk InputOk
  decide

theorem mixFlt_ok : MixOk (.flt .float32be) 2 mixFlt ∧ mixFlt.phase = .idle ∧ memWf mixFlt.mem = true := by
  unfold MixOk MixDstOk InputOk
  decide

theorem witness_MixFaultOrder_count_format_channels :
    mixInt.phase = .idle ∧ 33 < 64 ∧ 32 < 33 ∧ 63 < 64 ∧ 2 ≤ 32 ∧
    12 < (mixSt 13 0 0 (inOf 3 1 0 0) (inOf 3 1 0 0) []).spec.format.toNat ∧
    formatOf { mixInt with spec := { format := 3, channels := 0 } }.spec = some (.int .s16le) ∧
    { mixInt with spec := { format := 3, channels := 0 } }.spec.channels.toNat = 0 ∧
    32 < { mixInt with spec := { format := 3, channels := 33 } }.spec.channels.toNat := by decide

/-- The destination: 5 bytes under a two-byte format; two bytes from `2^32 - 1`; not exclusive; the sound one. -/
theorem witness_MixFaultOrder_destination :
    formatOf mixInt.spec = some (.int .s16le) ∧ 1 ≤ mixInt.spec.channels.toNat ∧ mixInt.spec.channels.toNat ≤ 32 ∧
    { mixInt with dst := chunkAt 0x40 5 }.dst.length.toNat % (fmtWidth (.int .s16le) * mixInt.spec.channels.toNat) ≠ 0 ∧
    { mixInt with dst := chunkAt 0xFFFFFFFF 2 }.dst.length.toNat %
      (fmtWidth (.int .s16le) * mixInt.spec.channels.toNat) = 0 ∧
    2 ^ 32 < { mixInt with dst := chunkAt 0xFFFFFFFF 2 }.dst.base.toNat +
      { mixInt with dst := chunkAt 0xFFFFFFFF 2 }.dst.offset.toNat +
      { mixInt with dst := chunkAt 0xFFFFFFFF 2 }.dst.length.toNat ∧
    { mixInt with excl := false }.excl = false ∧ MixDstOk (.int .s16le) 2 mixInt ∧
    (∀ i < 2, InputOk (.int .s16le) mixInt i) := by
  unfold MixDstOk InputOk
  decide

/-- `mixInt` with another input 1, input 0 staying sound. -/
def withIn1 (x : MixInput) : State := { mixInt with inputs := mixInt.inputs.setIfInBounds 1 x }

/-- Input 1: another format; another rate; two gains; a gain above the largest; three bytes; past `2^32`. -/
theorem witness_MixFaultOrder_input :
    (∀ i' < 1, InputOk (.int .s16le) (withIn1 (inOf 4 1 0 0)) i') ∧
    (inputAt (withIn1 (inOf 4 1 0 0)).inputs 1).spec ≠ mixInt.spec ∧
    (inputAt (withIn1 { inOf 3 1 0 0 with rate := 1 }).inputs 1).rate ≠ mixInt.rate ∧
    (inputAt (withIn1 (inOf 3 1 0 0)).inputs 1).spec = mixInt.spec ∧
    (inputAt (withIn1 (inOf 3 1 0 0)).inputs 1).rate = mixInt.rate ∧
    (inputAt (withIn1 { inOf 3 1 0 0 with vlen := 2 }).inputs 1).vlen ≠ mixInt.spec.channels ∧
    (inputAt (withIn1 (inOf 3 0x80000000 0 0)).inputs 1).vlen = mixInt.spec.channels ∧
    0x7FFFFFFF < (gainAt (inputAt (withIn1 (inOf 3 0x80000000 0 0)).inputs 1).vol 0).toNat ∧
    (∀ c < 1, (gainAt (inputAt (withIn1 (inOf 3 0x7FFFFFFF 0 3)).inputs 1).vol c).toNat ≤ 0x7FFFFFFF) ∧
    (inputAt (withIn1 (inOf 3 0x7FFFFFFF 0 3)).inputs 1).chunk.length.toNat %
      (fmtWidth (.int .s16le) * mixInt.spec.channels.toNat) ≠ 0 ∧
    (inputAt (withIn1 (inOf 3 1 0xFFFFFFFF 2)).inputs 1).chunk.length.toNat %
      (fmtWidth (.int .s16le) * mixInt.spec.channels.toNat) = 0 ∧
    2 ^ 32 < (inputAt (withIn1 (inOf 3 1 0xFFFFFFFF 2)).inputs 1).chunk.base.toNat +
      (inputAt (withIn1 (inOf 3 1 0xFFFFFFFF 2)).inputs 1).chunk.offset.toNat +
      (inputAt (withIn1 (inOf 3 1 0xFFFFFFFF 2)).inputs 1).chunk.length.toNat := by
  unfold InputOk
  decide

theorem witness_MixIntegerSamples :
    mixInt.phase = .idle ∧ memWf mixInt.mem = true ∧ MixOk (.int .s16le) 2 mixInt ∧
    (∀ i < 2, ReadBeforeOverwritten mixInt i) := by
  refine ⟨rfl, mixInt_ok.2.2, mixInt_ok.1, ?_⟩
  unfold ReadBeforeOverwritten
  decide

theorem witness_MixFloatSamples :
    mixFlt.phase = .idle ∧ memWf mixFlt.mem = true ∧ MixOk (.flt .float32be) 2 mixFlt ∧
    (∀ i < 2, ReadBeforeOverwritten mixFlt i) := by
  refine ⟨rfl, mixFlt_ok.2.2, mixFlt_ok.1, ?_⟩
  unfold ReadBeforeOverwritten
  decide

/-- A MIX whose one input begins two bytes below the destination and reaches into it. -/
def mixOver : State := mixSt 3 0x22 4 (inOf 3 0x10000 0x20 4) (inOf 3 0 0 0) (memOf 0x20 [1, 2, 3, 4, 5, 6])

theorem witness_MixReadsWhatItWrote :
    mixOver.phase = .idle ∧ memWf mixOver.mem = true ∧ MixOk (.int .s16le) 1 mixOver ∧
    1 < sampleCount (.int .s16le) mixOver.dst := by
  unfold MixOk MixDstOk InputOk
  decide

theorem witness_AccumulatorIsExact :
    (32 : Nat) ≤ 32 ∧ ∀ i < 32, (mixGain mixInt i 0).toNat ≤ 0x7FFFFFFF := by decide

/-- No input at all, and a sample past the end of the only input that has bytes. -/
theorem witness_MixSilenceWithoutInput :
    mixFlt.phase = .idle ∧ memWf mixFlt.mem = true ∧ MixOk (.flt .float32be) 2 mixFlt ∧
    1 < sampleCount (.flt .float32be) mixFlt.dst ∧
    ∀ i < 2, (inputAt mixFlt.inputs i).chunk.length.toNat < 1 * fmtWidth (.flt .float32be) + fmtWidth (.flt .float32be) :=
  ⟨rfl, mixFlt_ok.2.2, mixFlt_ok.1, by decide, by decide +kernel⟩

theorem witness_MixNeverWritesInfinity :
    mixFlt.phase = .idle ∧ memWf mixFlt.mem = true ∧ MixOk (.flt .float32be) 2 mixFlt :=
  ⟨rfl, mixFlt_ok.2.2, mixFlt_ok.1⟩

theorem witness_HalfWeightWithinOneUnit : (1 : Word).toNat + (0xFFFF : Word).toNat = 0x10000 := by decide

/-- The same MIX over memory that differs outside the inputs, and with another `CANON`. -/
def mixFlt' : State := { mixFlt with canon := 5, mem := memOf 0x3C [0x3F, 0x80, 0, 0, 9, 9] }

/-- The same MIX into a destination elsewhere. -/
def mixFlt2 : State := { mixFlt with dst := chunkAt 0x50 8 }

theorem witness_MixPurity :
    mixFlt'.phase = .idle ∧ memWf mixFlt'.mem = true ∧ MixOk (.flt .float32be) 2 mixFlt' ∧ mixFlt.spec = mixFlt'.spec ∧
    mixFlt.dst = mixFlt'.dst ∧ (∀ i < 2, inputAt mixFlt.inputs i = inputAt mixFlt'.inputs i) ∧
    (∀ i < 2, ∀ j < (inputAt mixFlt.inputs i).chunk.length.toNat,
      readByte mixFlt.mem (chunkEA (inputAt mixFlt.inputs i).chunk + j) =
        readByte mixFlt'.mem (chunkEA (inputAt mixFlt.inputs i).chunk + j)) := by
  unfold MixOk MixDstOk InputOk
  decide

theorem witness_MixPurity_elsewhere :
    mixFlt2.phase = .idle ∧ MixOk (.flt .float32be) 2 mixFlt2 ∧ mixFlt.dst.length = mixFlt2.dst.length ∧
    mixFlt.dst ≠ mixFlt2.dst ∧ (∀ i < 2, ReadBeforeOverwritten mixFlt i ∧ ReadBeforeOverwritten mixFlt2 i) := by
  unfold MixOk MixDstOk InputOk ReadBeforeOverwritten
  decide

theorem witness_FaultHasNoOtherEffect :
    (regSt 13 0 0).phase = .idle ∧ Instr.WellFormed .dec ∧ exec .dec (regSt 13 0 0) = .next (after (exec .dec (regSt 13 0 0))) ∧
    (after (exec .dec (regSt 13 0 0))).phase = .fault := ⟨rfl, trivial, rfl, rfl⟩

theorem witness_FaultCodesByCommand :
    exec .dec (regSt 13 0 0) = .next (after (exec .dec (regSt 13 0 0))) ∧
    (after (exec .dec (regSt 13 0 0))).phase = .fault ∧
    exec .enc (regSt 14 0 0) = .next (after (exec .enc (regSt 14 0 0))) ∧
    (after (exec .enc (regSt 14 0 0))).phase = .fault ∧
    exec .vol (regSt 0 0 0) = .next (after (exec .vol (regSt 0 0 0))) ∧
    (after (exec .vol (regSt 0 0 0))).phase = .fault ∧
    exec (.mix 33) (regSt 0 0 0) = .next (after (exec (.mix 33) (regSt 0 0 0))) ∧
    (after (exec (.mix 33) (regSt 0 0 0))).phase = .fault := ⟨rfl, rfl, rfl, rfl, rfl, rfl, rfl, rfl⟩

theorem witness_CommandFrame : exec .enc (regSt 4 0 7) = .next (after (exec .enc (regSt 4 0 7))) := rfl

theorem witness_FaultLeftOnlyByReset :
    (doing .hardReset faultSt).phase = .fault ∧
    step (doing .hardReset faultSt) = .next (after (step (doing .hardReset faultSt))) ∧
    (doing (.write 8 1) faultSt).phase = .fault ∧
    step (doing (.write 8 1) faultSt) = .next (after (step (doing (.write 8 1) faultSt))) := ⟨rfl, rfl, rfl, rfl⟩

theorem witness_ResetClearsEveryRegister :
    (doing (.write 8 0x80000001) (accept 3 State.reset)).pending = [.write 8 0x80000001] ∧
    (0x80000001 : Word).getLsbD 0 = true ∧ (doing .hardReset faultSt).pending = [.hardReset] := by decide

theorem witness_InterruptFollowsOutcome :
    (regSt 0 0 0).phase = .idle ∧ exec .dec (regSt 0 0 0) = .next (after (exec .dec (regSt 0 0 0))) ∧
    exec .dec (regSt 13 0 0) = .next (after (exec .dec (regSt 13 0 0))) := ⟨rfl, rfl, rfl⟩

theorem witness_IdleBlockWaitsBusyBlockTicks :
    (∀ job, State.reset.phase ≠ .busy job) ∧ (∀ job, faultSt.phase ≠ .busy job) ∧ State.reset.pending = [] ∧
    (doing .run faultSt).pending = [.run] ∧ (doing (.store 0xFFFFFFFF 0) faultSt).pending = [.store 0xFFFFFFFF 0] ∧
    (doing (.load 0) faultSt).pending = [.load 0] ∧ (accept 3 State.reset).phase = .busy (.accepted 3) ∧
    (accept 3 State.reset).pending = [] ∧ (doing .run (accept 3 State.reset)).phase = .busy (.accepted 3) ∧
    (doing .run (accept 3 State.reset)).pending = [.run] :=
  ⟨fun _ h => (by cases h), fun _ h => (by cases h), rfl, rfl, rfl, rfl, rfl, rfl, rfl, rfl⟩

theorem witness_RegisterMap :
    (31 : Nat) < 32 ∧ (0x7C % 4 = 0 ∧ 0x40 ≤ 0x7C ∧ 0x7C < 0x80) ∧ (0x3FFC % 4 = 0 ∧ 0x3000 ≤ 0x3FFC ∧ 0x3FFC < 0x4000) ∧
    (0x1018 % 4 = 0 ∧ 0x1000 ≤ 0x1018 ∧ 0x1018 < 0x3000 ∧ 0x18 ≤ 0x1018 % 0x100 ∧ 0x1018 % 0x100 < 0x80) ∧
    0xFFC % 4 = 0 := by decide

theorem witness_HostLinesAreAccesses :
    regAt 0x2FFC = some (.input 31 (.vol 31)) ∧ PortReg.input 31 (.vol 31) ≠ .reserved ∧
    regAt 0x1000 = some (.input 0 .base) ∧ Instr.WellFormed (.mix 63) ∧ (doing .wait faultSt).pending = [.wait] ∧ (∀ job, faultSt.phase ≠ .busy job) ∧
    (doing .wait (accept 3 State.reset)).pending = [.wait] ∧
    (doing .wait (accept 3 State.reset)).phase = .busy (.accepted 3) ∧
    step (doing .wait (accept 3 State.reset)) = .next (after (step (doing .wait (accept 3 State.reset)))) :=
  ⟨by decide, by decide, by decide, by decide, rfl, fun _ h => (by cases h), rfl, rfl, rfl⟩

theorem witness_RegisterReadBack :
    regAt 0x2FFC = some (.input 31 (.vol 31)) ∧ keptBits (.input 31 (.vol 31)) = some 0xFFFFFFFF ∧
    regAt 0x20 = some .spec ∧ keptBits .spec = some 0x00003F0F ∧ (∀ job, faultSt.phase ≠ .busy job) ∧
    (doing (.write 0x20 0xFFFFFFFF) faultSt).pending = [.write 0x20 0xFFFFFFFF] ∧
    regAt 0x24 = some .rate ∧ 0x24 ≠ 0x20 :=
  ⟨by decide, rfl, by decide, rfl, fun _ h => (by cases h), rfl, by decide, by decide⟩

theorem witness_StatusWriteClearsDone :
    (doing (.write 4 2) { State.reset with done := true }).pending = [.write 4 2] ∧
    (∀ job, State.reset.phase ≠ .busy job) ∧ regAt 0x3FFC = some .reserved ∧
    (doing (.write 8 0xFFFFFFFE) faultSt).pending = [.write 8 0xFFFFFFFE] ∧ (0xFFFFFFFE : Word).getLsbD 0 = false ∧
    (∀ job, faultSt.phase ≠ .busy job) :=
  ⟨rfl, fun _ h => (by cases h), by decide, rfl, by decide, fun _ h => (by cases h)⟩

theorem witness_BusyDiscardsWrites :
    regAt 0x18 = some .smp ∧ (doing (.write 0x18 5) (accept 3 State.reset)).phase = .busy (.accepted 3) ∧
    (doing (.write 0x18 5) (accept 3 State.reset)).pending = [.write 0x18 5] ∧ regAt 8 = some .ctrl ∧
    (2 : Word).getLsbD 0 = false ∧ (1 : Word).getLsbD 0 = true ∧
    (doing (.write 8 1) (accept 3 State.reset)).pending = [.write 8 1] ∧
    (doing (.read 0x18) (accept 3 State.reset)).pending = [.read 0x18] := by decide

theorem witness_OutsideAccessRefused :
    1 % 4 ≠ 0 ∧ 0x4000 ≤ 0x4000 ∧ (doing (.write 1 0) State.reset).pending = [.write 1 0] ∧
    (doing (.read 0x4000) State.reset).pending = [.read 0x4000] := by decide

theorem witness_StepwiseEqualsAtOnce :
    mixInt.phase = .idle ∧ decode 0x204 = .ok (.mix 2) ∧ tickBound mixInt (.mix 2) ≤ 32 := by decide

theorem witness_TickWritesOneByte :
    tick (accept 3 (volSt 0 1 5 0x20 [7])) = .next (after (tick (accept 3 (volSt 0 1 5 0x20 [7])))) ∧
    tick (accept 2 (regSt 4 0 7)) = .next (after (tick (accept 2 (regSt 4 0 7)))) := ⟨rfl, rfl⟩

/-- A VOL left after four ticks, and a MIX left after twelve, before their ends. -/
theorem witness_AbandonedCommandLeavesPrefix :
    VolOk (.int .u8) (volSt 0 1 5 0x20 [7, 8]) ∧ (volSt 0 1 5 0x20 [7, 8]).phase = .idle ∧
    memWf (volSt 0 1 5 0x20 [7, 8]).mem = true ∧
    tickN 4 (accept 3 (volSt 0 1 5 0x20 [7, 8])) = .next (after (tickN 4 (accept 3 (volSt 0 1 5 0x20 [7, 8])))) ∧
    MixOk (.int .s16le) 2 mixInt ∧ mixInt.phase = .idle ∧ memWf mixInt.mem = true ∧
    tickN 12 (accept (encode (.mix 2)) mixInt) = .next (after (tickN 12 (accept (encode (.mix 2)) mixInt))) :=
  ⟨witness_VolDeterminism.1, rfl, by decide, rfl, mixInt_ok.1, mixInt_ok.2.1, mixInt_ok.2.2, rfl⟩

/-- A VOL about to read its first byte. -/
def busySt : State := { volSt 0 1 5 0x20 [7, 8] with phase := .busy (.vol (.int .u8) 0 (.reading 0 [])) }

theorem witness_RunningChunkIsGuarded_vol :
    Runs busySt .vol ∧ Runs (accept 3 busySt) .vol ∧ inChunk busySt.dst (0x21 : Word).toNat = true ∧
    inChunk busySt.dst (0x22 : Word).toNat = false ∧ inChunk busySt.dst (0x1F : Word).toNat = false ∧
    (doing (.store 0x21 0) busySt).pending = [.store 0x21 0] ∧ (doing (.load 0x22) busySt).pending = [.load 0x22] := ⟨rfl, rfl, by decide⟩

/-- A MIX of one input at `0x3C .. 0x3F` into `0x40 .. 0x47`, running and accepted. -/
def busyMix : State :=
  { mixFlt with phase := .busy (.mix (.flt .float32be) 1 0 0 accsZero.acc accsZero.facc (.reading 0 [])) }

theorem witness_RunningChunkIsGuarded_mix :
    Runs busyMix (.mix 1) ∧ Runs (accept 0x104 mixFlt) (.mix 1) ∧
    inChunk busyMix.dst (0x40 : Word).toNat = true ∧ inChunk busyMix.dst (0x47 : Word).toNat = true ∧
    inChunk busyMix.dst (0x48 : Word).toNat = false ∧ inChunk busyMix.dst (0x3F : Word).toNat = false ∧
    inChunk (inputAt busyMix.inputs 0).chunk (0x3F : Word).toNat = true ∧
    inChunk (inputAt busyMix.inputs 0).chunk (0x3B : Word).toNat = false := ⟨rfl, rfl, by decide⟩

theorem witness_RunningChunkIsGuarded_plain :
    Runs (accept 1 State.reset) .dec ∧ Runs (accept 2 State.reset) .enc ∧
    (accept 0x4004 State.reset).phase = .busy (.accepted 0x4004) ∧ decode 0x4004 = .error .reservedBits ∧
    (doing (.store 5 0) (accept 1 State.reset)).pending = [.store 5 0] := ⟨rfl, rfl, by decide⟩

/-- A running VOL has the invariant, and its step goes on. -/
theorem witness_StepKeepsInvariant :
    StateInv busySt ∧ step busySt = .next (after (step busySt)) := by
  refine ⟨⟨by decide, by decide, fun _ => by decide, fun h => absurd h (by decide), ?_⟩, rfl⟩
  intro job h
  cases h
  refine ⟨by decide, by decide, ?_⟩
  unfold StageOk
  decide

theorem witness_NoAccessLeavesMemory : StateInv busySt := witness_StepKeepsInvariant.1

end Sys2Proof.Tests
end

section
/-! The rounding of a finite value is to nearest, ties to even (R12, R186). The magnitudes of the format around
`m * 2^e` are the multiples of the last place kept; every smaller one lies below the least significand with all its
bits. -/

namespace Sys2Proof.Machine

/-! ### Signed values -/

theorem ratOf_false (m : Nat) (e : Int) : ratOf false m e = m * 2 ^ e := by simp [ratOf]

/-- A signed value is at most its magnitude. -/
theorem ratOf_le (neg : Bool) (m : Nat) (e : Int) : ratOf neg m e ≤ m * 2 ^ e := by
  have h : (0 : Rat) ≤ m * 2 ^ e := by positivity
  cases neg
  · rw [ratOf_false]
  · simp only [ratOf, if_true]
    linarith

/-- A sign may be taken out of a value. -/
theorem ratOf_eq_sign_mul (s t : Bool) (m : Nat) (e : Int) :
    ratOf s m e = (if t then -1 else 1) * ratOf (s ^^ t) m e := by
  cases s <;> cases t <;> simp [ratOf]

/-- Turning both signs keeps a distance, so one of the two values may be taken as not negative. -/
theorem abs_ratOf_sub (s t : Bool) (m n : Nat) (e g : Int) :
    |ratOf s m e - ratOf t n g| = |ratOf (s ^^ t) m e - n * 2 ^ g| := by
  have hsign : |(if t then -1 else 1 : Rat)| = 1 := by cases t <;> simp
  rw [ratOf_eq_sign_mul s t, ratOf_eq_sign_mul t t, Bool.xor_self, ratOf_false, ← mul_sub, abs_mul, hsign, one_mul]

/-! ### The kept significand against every number of the format -/

/-- The magnitude rounded has at most `frac + 1` bits above the last place kept. -/
theorem value_lt_keptExp (p : FParams) (m : Nat) (e : Int) :
    (m : Rat) * 2 ^ e < 2 ^ (keptExp p m e + p.frac + 1) := by
  have hm : (m : Rat) < 2 ^ (Nat.log2 m + 1) := by exact_mod_cast Nat.lt_log2_self (n := m)
  have hq : e + (Nat.log2 m : Int) - p.frac ≤ keptExp p m e := le_max_left _ _
  calc (m : Rat) * 2 ^ e < 2 ^ (Nat.log2 m + 1) * 2 ^ e := mul_lt_mul_of_pos_right hm (by positivity)
    _ = 2 ^ (((Nat.log2 m + 1 : Nat) : Int) + e) := by rw [zpow_add₀ (by norm_num), zpow_natCast]
    _ ≤ 2 ^ (keptExp p m e + p.frac + 1) := zpow_le_zpow_right₀ (by norm_num) (by omega)

/-- No other multiple of the last place kept is nearer; one as near makes the kept significand even. -/
theorem keptSig_nearest_multiple (p : FParams) (m : Nat) (e k : Int) :
    |(keptSig p m e : Rat) * 2 ^ keptExp p m e - m * 2 ^ e| ≤ |(k : Rat) * 2 ^ keptExp p m e - m * 2 ^ e| ∧
    (|(keptSig p m e : Rat) * 2 ^ keptExp p m e - m * 2 ^ e| = |(k : Rat) * 2 ^ keptExp p m e - m * 2 ^ e| →
      (keptSig p m e : Rat) * 2 ^ keptExp p m e = k * 2 ^ keptExp p m e ∨ keptSig p m e % 2 = 0) := by
  obtain ⟨hhalf, htie⟩ := keptSig_near p m e
  have hu : (0 : Rat) < 2 ^ keptExp p m e := by positivity
  generalize (2 : Rat) ^ keptExp p m e = u at *
  generalize (m : Rat) * 2 ^ e = v at *
  by_cases hk : (keptSig p m e : Int) = k
  · have hk' : (keptSig p m e : Rat) = k := by exact_mod_cast hk
    rw [hk']
    exact ⟨le_rfl, fun _ => .inl rfl⟩
  · have hstep : u ≤ |(keptSig p m e : Rat) * u - k * u| := by
      rw [← sub_mul, abs_mul, abs_of_pos hu]
      have : (1 : Rat) ≤ |(keptSig p m e : Rat) - k| := by exact_mod_cast Int.one_le_abs (sub_ne_zero.mpr hk)
      exact le_mul_of_one_le_left hu.le this
    have htri := abs_sub_le ((keptSig p m e : Rat) * u) v (k * u)
    rw [abs_sub_comm v] at htri
    exact ⟨by linarith, fun heq => .inr (htie (by linarith))⟩

/-- A finite number of the format is a multiple of the last place kept, or it lies below the least significand with all
its bits, which the rounded value reaches. -/
theorem fin_multiple_or_lt {p : FParams} {s t : Bool} {ex fr m n : Nat} {e g : Int} (hm : m ≠ 0)
    (hfr : fr < 2 ^ p.frac) (hy : fieldsValue p s ex fr = .fin t n g) :
    (∀ r : Bool, ∃ k : Int, ratOf r n g = k * 2 ^ keptExp p m e) ∨
    ((n : Rat) * 2 ^ g < 2 ^ p.frac * 2 ^ keptExp p m e ∧ (2 : Rat) ^ p.frac * 2 ^ keptExp p m e ≤ m * 2 ^ e) := by
  obtain ⟨hn, hg⟩ : n < 2 ^ (p.frac + 1) ∧ 1 - (p.bias : Int) - p.frac ≤ g := by
    have hpow : 2 ^ (p.frac + 1) = 2 ^ p.frac + 2 ^ p.frac := by rw [Nat.pow_succ]; omega
    obtain ⟨-, -, ⟨-, rfl, rfl⟩ | ⟨h0, rfl, rfl⟩⟩ := fieldsValue_fin hy <;> exact ⟨by omega, by omega⟩
  by_cases hq : keptExp p m e ≤ g
  · left
    intro r
    refine ⟨signedAt r n g (keptExp p m e), ?_⟩
    rw [signedAt_value r n hq, ratOf]
  · right
    refine ⟨?_, (keptSig_ge p e hm (by omega)).1⟩
    calc (n : Rat) * 2 ^ g < 2 ^ (p.frac + 1) * 2 ^ g :=
          mul_lt_mul_of_pos_right (by exact_mod_cast hn) (by positivity)
      _ = 2 ^ p.frac * 2 ^ (g + 1) := by rw [zpow_add₀ (by norm_num), zpow_one, pow_succ]; ring
      _ ≤ 2 ^ p.frac * 2 ^ keptExp p m e :=
          mul_le_mul_of_nonneg_left (zpow_le_zpow_right₀ (by norm_num) (by omega)) (by positivity)

/-- No finite number of the format, of either sign, is nearer than the kept significand; another one as near makes it
even. -/
theorem keptSig_nearest_fin {p : FParams} {s t : Bool} {ex fr m n : Nat} (e : Int) {g : Int} (hm : m ≠ 0)
    (hfr : fr < 2 ^ p.frac) (hy : fieldsValue p s ex fr = .fin t n g) (r : Bool) :
    |(keptSig p m e : Rat) * 2 ^ keptExp p m e - m * 2 ^ e| ≤ |ratOf r n g - m * 2 ^ e| ∧
    (|(keptSig p m e : Rat) * 2 ^ keptExp p m e - m * 2 ^ e| = |ratOf r n g - m * 2 ^ e| →
      (keptSig p m e : Rat) * 2 ^ keptExp p m e = ratOf r n g ∨ keptSig p m e % 2 = 0) := by
  rcases fin_multiple_or_lt (e := e) hm hfr hy with hmul | ⟨hlow, hfull⟩
  · obtain ⟨k, hk⟩ := hmul r
    rw [hk]
    exact keptSig_nearest_multiple p m e k
  · have hfullNear := (keptSig_nearest_multiple p m e (2 ^ p.frac)).1
    push_cast at hfullNear
    have hlt : |(keptSig p m e : Rat) * 2 ^ keptExp p m e - m * 2 ^ e| < |ratOf r n g - m * 2 ^ e| := by
      refine lt_of_le_of_lt hfullNear ?_
      have hr := ratOf_le r n g
      rw [abs_of_nonpos (by linarith), abs_of_nonpos (by linarith)]
      linarith
    exact ⟨hlt.le, fun heq => absurd heq hlt.ne⟩

/-! ### The overflow threshold -/

/-- Half a last place of the largest finite number above that number: the least magnitude that rounds to an infinity. -/
def overflowBound (p : FParams) : Rat :=
  2 ^ ((p.expMax : Int) - p.bias) - 2 ^ ((p.expMax : Int) - p.bias - p.frac - 2)

theorem overflowBound_binary32 : overflowBound binary32 = 2 ^ 128 - 2 ^ 103 := by
  norm_num [overflowBound, binary32]

theorem overflowBound_binary64 : overflowBound binary64 = 2 ^ 1024 - 2 ^ 970 := by
  simp only [overflowBound, binary64, ← zpow_natCast]
  rfl

/-- The threshold lies above half of the least magnitude out of range. -/
theorem half_lt_overflowBound (p : FParams) :
    (2 : Rat) ^ ((p.expMax : Int) - p.bias - 1) < overflowBound p := by
  have htop : (2 : Rat) ^ ((p.expMax : Int) - p.bias) = 2 ^ ((p.expMax : Int) - p.bias - 1) * 2 := by
    rw [← zpow_add_one₀ (by norm_num), sub_add_cancel]
  have hlt : (2 : Rat) ^ ((p.expMax : Int) - p.bias - p.frac - 2) < 2 ^ ((p.expMax : Int) - p.bias - 1) :=
    zpow_lt_zpow_right₀ (by norm_num) (by omega)
  rw [overflowBound, htop]
  linarith

/-- Below the threshold what is kept is in range. -/
theorem kept_lt_of_lt_overflowBound {p : FParams} {m : Nat} {e : Int} (hm : m ≠ 0) (hx : 1 < p.expMax)
    (h : (m : Rat) * 2 ^ e < overflowBound p) :
    (keptSig p m e : Rat) * 2 ^ keptExp p m e < 2 ^ ((p.expMax : Int) - p.bias) := by
  have hexp : keptExp p m e ≤ (p.expMax : Int) - p.bias - p.frac - 1 := by
    by_cases hmin : keptExp p m e = 1 - (p.bias : Int) - p.frac
    · omega
    · have hlow := (keptSig_ge p e hm hmin).1
      have hpos : (0 : Rat) < 2 ^ ((p.expMax : Int) - p.bias - p.frac - 2) := by positivity
      have hpow : (2 : Rat) ^ ((p.frac : Int) + keptExp p m e) < 2 ^ ((p.expMax : Int) - p.bias) := by
        rw [zpow_add₀ (by norm_num), zpow_natCast]
        rw [overflowBound] at h
        linarith
      have := (zpow_lt_zpow_iff_right₀ (by norm_num : (1 : Rat) < 2)).mp hpow
      omega
  have hunit : (2 : Rat) ^ keptExp p m e ≤ 2 * 2 ^ ((p.expMax : Int) - p.bias - p.frac - 2) := by
    rw [← zpow_one_add₀ (by norm_num)]
    exact zpow_le_zpow_right₀ (by norm_num) (by omega)
  have hnear := (keptSig_near p m e).1
  have hself := le_abs_self ((keptSig p m e : Rat) * 2 ^ keptExp p m e - m * 2 ^ e)
  rw [overflowBound] at h
  linarith

/-- From the threshold on what is kept is out of range: at the threshold itself the tie goes to the even significand,
which is the one out of range. -/
theorem le_kept_of_overflowBound_le {p : FParams} {m : Nat} {e : Int} (hm : m ≠ 0) (hx : 1 < p.expMax)
    (h : overflowBound p ≤ (m : Rat) * 2 ^ e) :
    2 ^ ((p.expMax : Int) - p.bias) ≤ (keptSig p m e : Rat) * 2 ^ keptExp p m e := by
  have hexp : (p.expMax : Int) - p.bias - p.frac - 1 ≤ keptExp p m e := by
    have hpow := ((half_lt_overflowBound p).trans_le h).trans (value_lt_keptExp p m e)
    have := (zpow_lt_zpow_iff_right₀ (by norm_num : (1 : Rat) < 2)).mp hpow
    omega
  rcases hexp.eq_or_lt with hq | hq
  · have hu : (0 : Rat) < 2 ^ keptExp p m e := by positivity
    have htop : (2 : Rat) ^ ((p.expMax : Int) - p.bias) = ((2 ^ (p.frac + 1) : Nat) : Rat) * 2 ^ keptExp p m e := by
      rw [Nat.cast_pow, Nat.cast_ofNat, ← zpow_natCast, ← zpow_add₀ (by norm_num)]
      congr 1
      omega
    have hunit : (2 : Rat) ^ keptExp p m e = 2 * 2 ^ ((p.expMax : Int) - p.bias - p.frac - 2) := by
      rw [← zpow_one_add₀ (by norm_num)]
      congr 1
      omega
    by_contra hlt
    rw [htop, not_le, mul_lt_mul_iff_left₀ hu, Nat.cast_lt] at hlt
    have hsig : ((keptSig p m e : Rat) + 1) * 2 ^ keptExp p m e ≤ 2 ^ ((p.expMax : Int) - p.bias) := by
      rw [htop]
      exact mul_le_mul_of_nonneg_right (by exact_mod_cast hlt) hu.le
    obtain ⟨hhalf, htie⟩ := keptSig_near p m e
    have habs := neg_abs_le ((keptSig p m e : Rat) * 2 ^ keptExp p m e - m * 2 ^ e)
    rw [overflowBound] at h
    have heven := htie (by linarith)
    have hlast : (2 ^ (p.frac + 1) : Nat) ≤ keptSig p m e + 1 := by
      have : (2 : Rat) ^ ((p.expMax : Int) - p.bias) ≤ ((keptSig p m e : Rat) + 1) * 2 ^ keptExp p m e := by linarith
      rw [htop] at this
      exact_mod_cast le_of_mul_le_mul_right this hu
    rw [Nat.pow_succ] at hlt hlast
    omega
  · calc (2 : Rat) ^ ((p.expMax : Int) - p.bias) ≤ 2 ^ ((p.frac : Int) + keptExp p m e) :=
          zpow_le_zpow_right₀ (by norm_num) (by omega)
      _ = 2 ^ p.frac * 2 ^ keptExp p m e := by rw [zpow_add₀ (by norm_num), zpow_natCast]
      _ ≤ (keptSig p m e : Rat) * 2 ^ keptExp p m e :=
          mul_le_mul_of_nonneg_right (by exact_mod_cast (keptSig_ge p e hm (by omega)).2) (by positivity)

/-- At or above the threshold the fields are those of an infinity. -/
theorem roundFields_of_overflowBound_le {p : FParams} {m : Nat} {e : Int} (hx : 1 < p.expMax)
    (h : overflowBound p ≤ ratOf false m e) : roundFields p m e = (p.expMax, 0) := by
  rw [ratOf_false] at h
  have hm : m ≠ 0 := by
    rintro rfl
    have hpos : (0 : Rat) < 2 ^ ((p.expMax : Int) - p.bias - 1) := by positivity
    have := half_lt_overflowBound p
    rw [Nat.cast_zero, zero_mul] at h
    linarith
  exact roundFields_overflow p e hm hx (le_kept_of_overflowBound_le hm hx h)

/-! ### Nearest finite patterns -/

/-- A pattern with the fields of a rounding below the threshold is the nearest one, whatever type the patterns have, as
long as each has a sign, an exponent and a fraction field. -/
theorem nearestFinite_of_roundFields {α : Type} {value : α → FVal} {p : FParams} {x : α} {even : Prop} {neg : Bool}
    {m : Nat} {e : Int} (hf : 0 < p.frac) (hx : 1 < p.expMax)
    (hfields : ∀ y, ∃ s ex fr, fr < 2 ^ p.frac ∧ value y = fieldsValue p s ex fr)
    (hvalue : value x = fieldsValue p neg (roundFields p m e).1 (roundFields p m e).2)
    (heven : (roundFields p m e).2 % 2 = 0 → even) (h : ratOf false m e < overflowBound p) :
    NearestFinite value x even neg (ratOf neg m e) := by
  by_cases hm : m = 0
  · subst hm
    have hzero : ∀ g : Int, ratOf neg 0 g = 0 := fun g => by simp [ratOf]
    refine ⟨0, 1 - (p.bias : Int) - p.frac, ?_, fun y s n g _ => ?_⟩
    · rw [hvalue]
      simp only [roundFields, fieldsValue, if_true]
      rw [if_neg (by omega)]
    · rw [hzero, hzero, sub_zero, abs_zero]
      exact ⟨abs_nonneg _, fun _ => .inr (heven (by simp [roundFields]))⟩
  · rw [ratOf_false] at h
    obtain ⟨m', e', hfin, hkept, hparity⟩ :=
      roundFields_value p neg e hm hf hx (kept_lt_of_lt_overflowBound hm hx h)
    refine ⟨m', e', hvalue.trans hfin, fun y s n g hy => ?_⟩
    obtain ⟨_, ex, fr, hfr, hyf⟩ := hfields y
    obtain ⟨hle, htie⟩ := keptSig_nearest_fin e hm hfr (hyf.symm.trans hy) (s ^^ neg)
    rw [abs_ratOf_sub, abs_ratOf_sub, Bool.xor_self, ratOf_false, hkept]
    refine ⟨hle, fun heq => ?_⟩
    rcases htie heq with hsame | hpar
    · left
      rw [ratOf_eq_sign_mul neg neg, ratOf_eq_sign_mul s neg, Bool.xor_self, ratOf_false, hkept, hsame]
    · exact .inr (heven (hparity.trans hpar))

/-- The parity of an assembled pattern is that of its fraction field. -/
theorem assemble_mod_two {p : FParams} {signBit : Nat} (neg : Bool) (ef : Nat × Nat) (hs : 0 < signBit)
    (hf : 0 < p.frac) : assemble p signBit neg ef % 2 = ef.2 % 2 := by
  have hpow : ∀ n, 0 < n → 2 ∣ 2 ^ n := fun n hn => dvd_pow_self 2 (by omega)
  have hsign : 2 ∣ if neg then 2 ^ signBit else 0 := by
    split
    · exact hpow signBit hs
    · exact dvd_zero 2
  have hexp : 2 ∣ ef.1 * 2 ^ p.frac := Dvd.dvd.mul_left (hpow p.frac hf) ef.1
  unfold assemble
  omega

theorem round32_nearest (neg : Bool) (m : Nat) (e : Int) (h : ratOf false m e < 2 ^ 128 - 2 ^ 103) :
    NearestFinite value32 (round32 (.fin neg m e)) ((round32 (.fin neg m e)).toNat % 2 = 0) neg (ratOf neg m e) := by
  obtain ⟨hex, hfr⟩ := roundFields_range binary32 m e
  refine nearestFinite_of_roundFields (p := binary32) (by decide) (by decide)
    (fun y => ⟨y.msb, _, _, Nat.mod_lt _ (Nat.two_pow_pos 23), rfl⟩)
    (value32_assemble (lt_of_le_of_lt hex (by decide)) hfr) (fun heven => ?_) (overflowBound_binary32 ▸ h)
  rw [round32, BitVec.toNat_ofNat, Nat.mod_mod_of_dvd _ (by decide), assemble_mod_two _ _ (by decide) (by decide),
    heven]

theorem round64_nearest (neg : Bool) (m : Nat) (e : Int) (h : ratOf false m e < 2 ^ 1024 - 2 ^ 970) :
    ∃ d : BitVec 64, round64 (.fin neg m e) = .bits d ∧
      NearestFinite pattern64Value d (d.toNat % 2 = 0) neg (ratOf neg m e) := by
  obtain ⟨hex, hfr⟩ := roundFields_range binary64 m e
  refine ⟨_, rfl, nearestFinite_of_roundFields (p := binary64) (by decide) (by decide)
    (fun y => ⟨y.msb, _, _, Nat.mod_lt _ (Nat.two_pow_pos 52), rfl⟩)
    (pattern64Value_assemble (lt_of_le_of_lt hex (by decide)) hfr) (fun heven => ?_) (overflowBound_binary64 ▸ h)⟩
  rw [BitVec.toNat_ofNat, Nat.mod_mod_of_dvd _ (by decide), assemble_mod_two _ _ (by decide) (by decide), heven]

theorem round32_overflow (neg : Bool) (m : Nat) (e : Int) (h : 2 ^ 128 - 2 ^ 103 ≤ ratOf false m e) :
    round32 (.fin neg m e) = if neg then 0xFF800000 else 0x7F800000 := by
  rw [round32, roundFields_of_overflowBound_le (by decide) (overflowBound_binary32 ▸ h)]
  cases neg <;> rfl

theorem round64_overflow (neg : Bool) (m : Nat) (e : Int) (h : 2 ^ 1024 - 2 ^ 970 ≤ ratOf false m e) :
    round64 (.fin neg m e) = .bits (if neg then 0xFFF0000000000000 else 0x7FF0000000000000) := by
  rw [round64, roundFields_of_overflowBound_le (by decide) (overflowBound_binary64 ▸ h)]
  cases neg <;> rfl

/-- Settles O23: below its threshold a rounding is nearest with ties to even, from it on an infinity, in both
formats. -/
theorem roundingIsNearestEven : Obligations.RoundingIsNearestEven :=
  ⟨fun neg m e => ⟨round32_nearest neg m e, round32_overflow neg m e⟩,
    fun neg m e => ⟨round64_nearest neg m e, round64_overflow neg m e⟩⟩

end Sys2Proof.Machine
end

section
/-! What one tick of a running command and one act of the host can do, and from that: every step keeps the invariant
(R33, R34, R38, R39, R60, R251). -/

namespace Sys2Proof.Machine

/-! ### What one tick of a running command can do -/

/-- A byte read of a running command lies inside memory and changes the running command only. -/
theorem readAccess_cases {s t : State} {a : Nat} {job : Byte → Job} (h : readAccess s a job = .next t) :
    a < Config.memSize ∧ t = withJob s (job (readByte s.mem a)) := by
  unfold readAccess at h
  split at h
  · exact ⟨‹_›, (Host.Outcome.next.inj h).symm⟩
  · cases h

/-- A byte write of a running command lies inside memory and changes that byte and the running command only. -/
theorem writeAccess_cases {s t : State} {a : Nat} {b : Byte} {job : Job} (h : writeAccess s a b job = .next t) :
    a < Config.memSize ∧ t = withJob { s with mem := writeByte s.mem a b } job := by
  unfold writeAccess at h
  split at h
  · exact ⟨‹_›, (Host.Outcome.next.inj h).symm⟩
  · cases h

/-- What at most one byte access of a running command leaves of memory: memory as it was, or with one byte of the
destination chunk written (R60, R64). -/
def AccessMem (s : State) (m : List Host.Cell) : Prop :=
  m = s.mem ∨ ∃ a b, a < Config.memSize ∧ inChunk s.dst a = true ∧ m = writeByte s.mem a b

theorem accessMem_same (s : State) : AccessMem s s.mem := .inl rfl

/-- Byte `j` of sample `k` of the destination is a byte of the destination chunk. -/
theorem accessMem_sample {f : Fmt} {s : State} {k j : Nat} (b : Byte) (hk : k < sampleCount f s.dst)
    (hj : j < fmtWidth f) (ha : sampleAddr f s.dst k + j < Config.memSize) :
    AccessMem s (writeByte s.mem (sampleAddr f s.dst k + j) b) := by
  have hin := sample_in_chunk hk
  have hlo : chunkEA s.dst ≤ sampleAddr f s.dst k := Nat.le_add_right _ _
  refine .inr ⟨_, b, ha, ?_, rfl⟩
  simp only [inChunk, Bool.and_eq_true, decide_eq_true_eq]
  omega

theorem memWf_of_accessMem {s : State} {m : List Host.Cell} (hm : memWf s.mem = true) (h : AccessMem s m) :
    memWf m = true := by
  obtain rfl | ⟨a, b, ha, -, rfl⟩ := h
  · exact hm
  · exact memWf_writeByte b hm ha

theorem stageOk_start (f : Fmt) : StageOk f (.reading 0 []) := ⟨Nat.zero_le _, rfl⟩

theorem stageOk_write {f : Fmt} {out : List Byte} (h : out.length = fmtWidth f) : StageOk f (.writing 0 out) :=
  ⟨Nat.zero_le _, h⟩

theorem stageOk_read_succ {f : Fmt} {j : Nat} {got : List Byte} (b : Byte) (hj : j < fmtWidth f)
    (h : StageOk f (.reading j got)) : StageOk f (.reading (j + 1) (got ++ [b])) := by
  obtain ⟨-, hlen⟩ := h
  exact ⟨hj, by simp [hlen]⟩

theorem stageOk_write_succ {f : Fmt} {j : Nat} {out : List Byte} (hj : j < fmtWidth f)
    (h : StageOk f (.writing j out)) : StageOk f (.writing (j + 1) out) := ⟨hj, h.2⟩

/-- One tick of VOL completes it or moves it on by at most one byte access, its counters staying in range. -/
theorem tickVol_cases {s t : State} {f : Fmt} {k : Nat} {stage : Stage} (h : tickVol s f k stage = .next t) :
    t = complete s ∨
    ∃ m k' stage', AccessMem s m ∧ t = withJob { s with mem := m } (.vol f k' stage') ∧
      k' ≤ sampleCount f s.dst ∧ (StageOk f stage → StageOk f stage') := by
  unfold tickVol at h
  by_cases hk : sampleCount f s.dst ≤ k
  · simp only [hk, if_true] at h
    exact .inl (Host.Outcome.next.inj h).symm
  · simp only [hk, if_false] at h
    rw [Nat.not_le] at hk
    right
    cases stage with
    | reading j got =>
      simp only at h
      split at h
      · obtain rfl := Host.Outcome.next.inj h
        exact ⟨_, _, _, accessMem_same s, rfl, hk, fun _ => stageOk_start f⟩
      · split at h
        · obtain rfl := Host.Outcome.next.inj h
          exact ⟨_, _, _, accessMem_same s, rfl, hk.le, fun _ => stageOk_write (zeroCode_length f)⟩
        · split at h
          · obtain ⟨-, rfl⟩ := readAccess_cases h
            exact ⟨_, _, _, accessMem_same s, rfl, hk.le, stageOk_read_succ _ ‹_›⟩
          · obtain rfl := Host.Outcome.next.inj h
            exact ⟨_, _, _, accessMem_same s, rfl, hk.le, fun _ => stageOk_write (scaleSample_length f _ got)⟩
    | writing j out =>
      simp only at h
      split at h
      · obtain ⟨ha, rfl⟩ := writeAccess_cases h
        exact ⟨_, _, _, accessMem_sample _ hk ‹_› ha, rfl, hk.le, stageOk_write_succ ‹_›⟩
      · obtain rfl := Host.Outcome.next.inj h
        exact ⟨_, _, _, accessMem_same s, rfl, hk, fun _ => stageOk_start f⟩

/-- One tick of MIX completes it or moves it on by at most one byte access, its counters staying in range. -/
theorem tickMix_cases {s t : State} {f : Fmt} {nin k i : Nat} {a : Accs} {stage : Stage} (hi : i ≤ nin)
    (h : tickMix s f nin k i a stage = .next t) :
    t = complete s ∨
    ∃ m k' i' acc facc stage', AccessMem s m ∧ t = withJob { s with mem := m } (.mix f nin k' i' acc facc stage') ∧
      k' ≤ sampleCount f s.dst ∧ i' ≤ nin ∧ (StageOk f stage → StageOk f stage') := by
  unfold tickMix at h
  by_cases hk : sampleCount f s.dst ≤ k
  · simp only [hk, if_true] at h
    exact .inl (Host.Outcome.next.inj h).symm
  · simp only [hk, if_false] at h
    rw [Nat.not_le] at hk
    right
    cases stage with
    | reading j got =>
      simp only at h
      split at h
      · obtain rfl := Host.Outcome.next.inj h
        exact ⟨_, _, _, _, _, _, accessMem_same s, rfl, hk.le, hi, fun _ => stageOk_write (mixOut_length f a)⟩
      · split at h
        · split at h
          · obtain ⟨-, rfl⟩ := readAccess_cases h
            exact ⟨_, _, _, _, _, _, accessMem_same s, rfl, hk.le, hi, stageOk_read_succ _ ‹_›⟩
          · obtain rfl := Host.Outcome.next.inj h
            exact ⟨_, _, _, _, _, _, accessMem_same s, rfl, hk.le, by omega, fun _ => stageOk_start f⟩
        · obtain rfl := Host.Outcome.next.inj h
          exact ⟨_, _, _, _, _, _, accessMem_same s, rfl, hk.le, by omega, fun _ => stageOk_start f⟩
    | writing j out =>
      simp only at h
      split at h
      · obtain ⟨ha, rfl⟩ := writeAccess_cases h
        exact ⟨_, _, _, _, _, _, accessMem_sample _ hk ‹_› ha, rfl, hk.le, hi, stageOk_write_succ ‹_›⟩
      · obtain rfl := Host.Outcome.next.inj h
        exact ⟨_, _, _, _, _, _, accessMem_same s, rfl, hk, Nat.zero_le _, fun _ => stageOk_start f⟩

/-- The tick after acceptance faults, completes DEC or ENC, or starts VOL or MIX past its prechecks. -/
theorem tickAccepted_cases (s : State) (w : Word) :
    (∃ v, tickAccepted s w = raise w v s) ∨
    (∃ i t, decode w = .ok i ∧ (i = .dec ∨ i = .enc) ∧ bodyOf i s = .ok t ∧ tickAccepted s w = complete t) ∨
    (∃ job, JobOk s job ∧ tickAccepted s w = withJob s job) := by
  unfold tickAccepted
  split
  next => exact .inl ⟨_, rfl⟩
  next hd =>
    cases hb : decBody s with
    | error v => exact .inl ⟨v, rfl⟩
    | ok t => exact .inr (.inl ⟨.dec, t, hd, .inl rfl, hb, rfl⟩)
  next hd =>
    cases hb : encBody s with
    | error v => exact .inl ⟨v, rfl⟩
    | ok t => exact .inr (.inl ⟨.enc, t, hd, .inr rfl, hb, rfl⟩)
  next =>
    cases hc : volCheck s with
    | error v => exact .inl ⟨v, rfl⟩
    | ok f => exact .inr (.inr ⟨.vol f 0 (.reading 0 []), ⟨hc, Nat.zero_le _, stageOk_start f⟩, rfl⟩)
  next nin _ =>
    cases hc : mixCheck nin s with
    | error v => exact .inl ⟨v, rfl⟩
    | ok f =>
      exact .inr (.inr ⟨.mix f nin 0 0 accsZero.acc accsZero.facc (.reading 0 []),
        ⟨hc, Nat.zero_le _, Nat.zero_le _, stageOk_start f⟩, rfl⟩)

/-! ### The invariant after each update of the state -/

/-- The error registers as they stand outside FAULT (R38, R39). -/
def NoError (s : State) : Prop := s.errCode = 0 ∧ s.errInfo = ErrInfo.zero ∧ s.errCmd = 0

/-- Whether a running command is sound depends on the operand registers only. -/
theorem jobOk_update {s : State} {job : Job} (m : List Host.Cell) (ph : Phase) (d : Bool) (p : List HostAct) (x : Word)
    (h : JobOk s job) : JobOk { s with mem := m, phase := ph, done := d, pending := p, rdata := x } job := by
  cases job <;> exact h

/-- Every code of R251 lies in 1 to 10. -/
theorem errNum_range (c : ErrCode) : 1 ≤ (errNum c).toNat ∧ (errNum c).toNat ≤ 10 := by cases c <;> decide

theorem stateInv_complete {s : State} (hm : memWf s.mem = true) (he : NoError s) : StateInv (complete s) where
  memOk := hm
  doneOnlyIdle := fun _ => rfl
  noErrorRecorded := fun _ => he
  errorRecorded := fun h => by cases h
  jobOk := fun _ h => by cases h

theorem stateInv_raise {s : State} (w : Word) (v : Violation) (hm : memWf s.mem = true) : StateInv (raise w v s) where
  memOk := hm
  doneOnlyIdle := fun h => by cases h
  noErrorRecorded := fun h => absurd rfl h
  errorRecorded := fun _ => errNum_range v.code
  jobOk := fun _ h => by cases h

theorem stateInv_resetBlock {s : State} (hm : memWf s.mem = true) : StateInv (resetBlock s) where
  memOk := hm
  doneOnlyIdle := fun _ => rfl
  noErrorRecorded := fun _ => ⟨rfl, rfl, rfl⟩
  errorRecorded := fun h => by cases h
  jobOk := fun _ h => by cases h

theorem stateInv_withJob {s : State} {job : Job} (hm : memWf s.mem = true) (hd : s.done = false) (he : NoError s)
    (hj : JobOk s job) : StateInv (withJob s job) where
  memOk := hm
  doneOnlyIdle := fun h => by simp [hd] at h
  noErrorRecorded := fun _ => he
  errorRecorded := fun h => by cases h
  jobOk := fun _ h => by cases h; exact jobOk_update _ _ _ _ _ hj

/-- What stands outside the block may change freely, memory within its canonical form. -/
theorem stateInv_host {s : State} {m : List Host.Cell} (p : List HostAct) (x : Word) (h : StateInv s)
    (hm : memWf m = true) : StateInv { s with mem := m, pending := p, rdata := x } where
  memOk := hm
  doneOnlyIdle := h.doneOnlyIdle
  noErrorRecorded := h.noErrorRecorded
  errorRecorded := h.errorRecorded
  jobOk := fun job hp => jobOk_update _ _ _ _ _ (h.jobOk job hp)

/-- A busy block has DONE 0 and no error recorded. -/
theorem stateInv_busy {s : State} {job : Job} (h : StateInv s) (hp : s.phase = .busy job) :
    s.done = false ∧ NoError s ∧ JobOk s job := by
  refine ⟨?_, h.noErrorRecorded (by simp [hp]), h.jobOk job hp⟩
  by_contra hd
  have := h.doneOnlyIdle (by simpa using hd)
  simp [hp] at this

/-! ### Commands -/

/-- A command's body keeps memory in canonical form and leaves the error registers. -/
theorem body_keeps_soundness {i : Instr} {s t : State} (hm : memWf s.mem = true) (he : NoError s)
    (h : bodyOf i s = .ok t) : memWf t.mem = true ∧ NoError t := by
  obtain ⟨f, -, -, rfl⟩ | ⟨f, -, -, rfl⟩ | ⟨f, -, hc, rfl⟩ | ⟨f, nin, -, hc, rfl⟩ := body_cases h
  · exact ⟨hm, he⟩
  · exact ⟨hm, he⟩
  · obtain ⟨-, -, -, -, -, hw, -⟩ := (volCheck_eq_ok_iff s f).mp hc
    exact ⟨memWf_volMem hm hw _ le_rfl, he⟩
  · obtain ⟨-, -, -, -, hw, -, -⟩ := (mixCheck_eq_ok_iff nin s f).mp hc
    exact ⟨memWf_mixMem hm hw _ le_rfl, he⟩

/-- Issuing keeps the invariant when the body's results are sound. -/
theorem issue_keeps_inv {w : Word} {body : State → Except Violation State} {s : State} (h : StateInv s)
    (hb : ∀ t, NoError s → body s = .ok t → memWf t.mem = true ∧ NoError t) : StateInv (issue w body s) := by
  obtain ⟨-, e⟩ | ⟨hs, t, hok, e⟩ | ⟨-, v, -, e⟩ := issue_cases w body s
  · rwa [e]
  · obtain ⟨hm, he⟩ := hb t (h.noErrorRecorded (by simp [hs])) hok
    rw [e]
    exact stateInv_complete hm he
  · rw [e]
    exact stateInv_raise w v h.memOk

theorem tickAccepted_keeps_inv {s : State} {w : Word} (h : StateInv s) (hp : s.phase = .busy (.accepted w)) :
    StateInv (tickAccepted s w) := by
  obtain ⟨hd, he, -⟩ := stateInv_busy h hp
  obtain ⟨v, e⟩ | ⟨i, t, -, -, hb, e⟩ | ⟨job, hj, e⟩ := tickAccepted_cases s w
  · rw [e]
    exact stateInv_raise w v h.memOk
  · obtain ⟨hm, he'⟩ := body_keeps_soundness h.memOk he hb
    rw [e]
    exact stateInv_complete hm he'
  · rw [e]
    exact stateInv_withJob h.memOk hd he hj

theorem tickVol_keeps_inv {s t : State} {f : Fmt} {k : Nat} {stage : Stage} (h : StateInv s)
    (hp : s.phase = .busy (.vol f k stage)) (ht : tickVol s f k stage = .next t) : StateInv t := by
  obtain ⟨hd, he, hcheck, -, hst⟩ := stateInv_busy h hp
  obtain rfl | ⟨m, k', stage', hacc, rfl, hk', hst'⟩ := tickVol_cases ht
  · exact stateInv_complete h.memOk he
  · exact stateInv_withJob (memWf_of_accessMem h.memOk hacc) hd he ⟨hcheck, hk', hst' hst⟩

theorem tickMix_keeps_inv {s t : State} {f : Fmt} {nin k i : Nat} {acc : BitVec 64} {facc : F64} {stage : Stage}
    (h : StateInv s) (hp : s.phase = .busy (.mix f nin k i acc facc stage))
    (ht : tickMix s f nin k i { acc := acc, facc := facc } stage = .next t) : StateInv t := by
  obtain ⟨hd, he, hcheck, -, hi, hst⟩ := stateInv_busy h hp
  obtain rfl | ⟨m, k', i', acc', facc', stage', hacc, rfl, hk', hi', hst'⟩ := tickMix_cases hi ht
  · exact stateInv_complete h.memOk he
  · exact stateInv_withJob (memWf_of_accessMem h.memOk hacc) hd he ⟨hcheck, hk', hi', hst' hst⟩

theorem tick_keeps_inv {s t : State} (h : StateInv s) (ht : tick s = .next t) : StateInv t := by
  unfold tick at ht
  split at ht
  next hp =>
    obtain rfl := Host.Outcome.next.inj ht
    exact tickAccepted_keeps_inv h hp
  next hp => exact tickVol_keeps_inv h hp ht
  next hp => exact tickMix_keeps_inv h hp ht
  next =>
    obtain rfl := Host.Outcome.next.inj ht
    exact h
  next =>
    obtain rfl := Host.Outcome.next.inj ht
    exact h

/-! ### The host's acts -/

/-- A `STATUS` write clears DONE by bit 1 (R34). -/
theorem writeReg_status (s : State) (w : Word) :
    writeReg s .status w = { s with done := if w.getLsbD 1 then false else s.done } := by
  unfold writeReg
  cases w.getLsbD 1 <;> rfl

/-- A register write never sets DONE. -/
theorem writeReg_done {s : State} {r : PortReg} {w : Word} (h : (writeReg s r w).done = true) : s.done = true := by
  cases r with
  | status =>
    rw [writeReg_status] at h
    by_contra hd
    simp [hd] at h
  | _ => exact h

theorem writeReg_keeps_inv {s : State} (r : PortReg) (w : Word) (h : StateInv s) (hb : statusBusy s = false) :
    StateInv (writeReg s r w) := by
  obtain ⟨hphase, hmem, hcode, hinfo, hcmd⟩ := writeReg_phase s r w
  constructor
  case memOk => rw [hmem]; exact h.memOk
  case doneOnlyIdle => rw [hphase]; exact fun hd => h.doneOnlyIdle (writeReg_done hd)
  case noErrorRecorded => rw [hphase, hcode, hinfo, hcmd]; exact h.noErrorRecorded
  case errorRecorded => rw [hphase, hcode]; exact h.errorRecorded
  case jobOk =>
    intro job hp
    rw [hphase] at hp
    simp [statusBusy_of_busy hp] at hb

theorem storeReg_keeps_inv {s : State} (r : PortReg) (w : Word) (h : StateInv s) : StateInv (storeReg s r w) := by
  by_cases hr : r = .ctrl
  · rw [hr, storeReg_ctrl]
    split
    · exact stateInv_resetBlock h.memOk
    · exact h
  · cases hb : statusBusy s with
    | true => rwa [storeReg_busy w hb hr]
    | false =>
      rw [storeReg_idle w hb hr]
      exact writeReg_keeps_inv r w h hb

theorem writeCmd_keeps_inv {s t : State} {w : Word} (h : StateInv s) (ht : writeCmd w s = .next t) : StateInv t := by
  unfold writeCmd at ht
  split at ht
  · split at ht
    · rw [exec_eq_issue] at ht
      obtain rfl := Host.Outcome.next.inj ht
      exact issue_keeps_inv h fun _ he hb => body_keeps_soundness h.memOk he hb
    · obtain rfl := Host.Outcome.next.inj ht
      exact issue_keeps_inv h fun _ _ hb => by cases hb
  · split at ht
    next hp =>
      obtain rfl := Host.Outcome.next.inj ht
      have he : NoError s := h.noErrorRecorded (by simp [hp])
      exact stateInv_withJob (s := { s with done := false }) h.memOk rfl he trivial
    next =>
      obtain rfl := Host.Outcome.next.inj ht
      exact h

theorem portWrite_keeps_inv {s t : State} {off : Nat} {w : Word} (h : StateInv s)
    (ht : portWrite off w s = .next t) : StateInv t := by
  unfold portWrite at ht
  split at ht
  · cases ht
  · exact writeCmd_keeps_inv h ht
  · obtain rfl := Host.Outcome.next.inj ht
    exact storeReg_keeps_inv _ w h

theorem serve_keeps_inv {s t : State} {act : HostAct} (h : StateInv s) (ht : serve act s = .next t) : StateInv t := by
  cases act with
  | write off w => exact portWrite_keeps_inv h ht
  | read off =>
    rw [serve_read] at ht
    unfold portRead at ht
    split at ht
    · cases ht
    · obtain rfl := Host.Outcome.next.inj ht
      exact stateInv_host _ _ h h.memOk
  | store addr b =>
    rw [serve_store] at ht
    unfold hostStore at ht
    split at ht
    · cases ht
    · obtain rfl := Host.Outcome.next.inj ht
      exact stateInv_host _ _ h (memWf_writeByte b h.memOk addr.isLt)
  | load addr =>
    rw [serve_load] at ht
    unfold hostLoad at ht
    split at ht
    · cases ht
    · obtain rfl := Host.Outcome.next.inj ht
      exact stateInv_host _ _ h h.memOk
  | hardReset =>
    obtain rfl := Host.Outcome.next.inj ht
    exact stateInv_resetBlock h.memOk
  | run => exact tick_keeps_inv h ht
  | wait =>
    cases hb : statusBusy s with
    | false =>
      rw [serve_wait_idle hb] at ht
      obtain rfl := Host.Outcome.next.inj ht
      exact stateInv_host _ _ h h.memOk
    | true =>
      rw [serve_wait_busy hb] at ht
      exact tick_keeps_inv (stateInv_host _ _ h h.memOk) ht

/-- Settles O57: a step is a tick or serves one act of the host, and each of these keeps the invariant. -/
theorem stepKeepsInvariant : Obligations.StepKeepsInvariant := by
  intro s t h ht
  cases hp : s.pending with
  | nil => exact tick_keeps_inv h (step_nil hp ▸ ht)
  | cons act rest =>
    rw [step_cons hp] at ht
    exact serve_keeps_inv (stateInv_host rest s.rdata h h.memOk) ht

/-- Settles O58: the reset state is what a reset leaves of it. -/
theorem resetHasInvariant : Obligations.ResetHasInvariant := stateInv_resetBlock (s := State.reset) reset_memWf

end Sys2Proof.Machine
end

section
/-! The issue of commands (R35, R90), the frame of a command (R47), the two resets (R46, R290, R291) and the registers
whose writes are not stored (R34, R36, R256). -/

namespace Sys2Proof.Machine

/-! ### Writes to `CMD` -/

theorem step_write_cmd {s : State} {w : Word} {rest : List HostAct} (h : s.pending = .write 0 w :: rest) :
    step s = writeCmd w { s with pending := rest } := by
  rw [step_cons h, serve_write, portWrite_cmd]

theorem writeCmd_atOnce_ok {s : State} {w : Word} {i : Instr} (hp : s.pace = .atOnce) (hd : decode w = .ok i) :
    writeCmd w s = exec i s := by simp [writeCmd, hp, hd]

theorem writeCmd_stepwise_idle {s : State} (w : Word) (hp : s.pace = .stepwise) (hs : s.phase = .idle) :
    writeCmd w s = .next (accept w s) := by simp [writeCmd, hp, hs]

/-- Outside IDLE a command word is discarded, at either pace and whatever it decodes to. -/
theorem writeCmd_not_idle {s : State} (w : Word) (hs : s.phase ≠ .idle) : writeCmd w s = .next s := by
  unfold writeCmd
  split
  · split
    · rw [exec_eq_issue, issue_not_idle hs]
    · rw [issue_not_idle hs]
  · split
    · contradiction
    · rfl

/-- Settles O4: a write at offset 0 goes to `CMD`, and within one write a decoded command is executed. -/
theorem stepRunsDecodedCommand : Obligations.StepRunsDecodedCommand := by
  intro s w i rest h hp hd
  exact (step_write_cmd h).trans (writeCmd_atOnce_ok hp hd)

/-- Settles O5: acceptance in IDLE, discard elsewhere, and a read of 0. -/
theorem cmdAcceptedOnlyInIdle : Obligations.CmdAcceptedOnlyInIdle := by
  intro s w rest
  refine ⟨fun h hp hs => ?_, fun h hs => ?_, fun h => ?_⟩
  · exact (step_write_cmd h).trans (writeCmd_stepwise_idle w hp hs)
  · exact (step_write_cmd h).trans (writeCmd_not_idle w hs)
  · rw [step_cons h, serve_read, portRead_reg (r := .cmd) rfl]
    rfl

/-! ### The frame of a command -/

/-- What a command that passes its checks may change, and which command changes what. -/
theorem body_frame {i : Instr} {s t : State} (h : bodyOf i s = .ok t) :
    t = { s with canon := t.canon, smp := t.smp, mem := t.mem } ∧
    (i ≠ .dec → t.canon = s.canon) ∧ (i ≠ .enc → t.smp = s.smp) ∧ (i = .dec ∨ i = .enc → t.mem = s.mem) ∧
    ∀ a, (a < chunkEA s.dst ∨ chunkEA s.dst + s.dst.length.toNat ≤ a) → readByte t.mem a = readByte s.mem a := by
  obtain ⟨f, rfl, -, rfl⟩ | ⟨f, rfl, -, rfl⟩ | ⟨f, rfl, -, rfl⟩ | ⟨f, nin, rfl, -, rfl⟩ := body_cases h
  · exact ⟨rfl, fun hne => absurd rfl hne, fun _ => rfl, fun _ => rfl, fun _ _ => rfl⟩
  · exact ⟨rfl, fun _ => rfl, fun hne => absurd rfl hne, fun _ => rfl, fun _ _ => rfl⟩
  · exact ⟨rfl, fun _ => rfl, fun _ => rfl, by simp, fun _ => readByte_volMem_outside f s⟩
  · exact ⟨rfl, fun _ => rfl, fun _ => rfl, by simp, fun _ => readByte_mixMem_outside f nin s⟩

/-- Settles O41: a command is discarded, completes with what its body changed, or faults. -/
theorem commandFrame : Obligations.CommandFrame := by
  intro i s t h
  rw [exec_eq_issue] at h
  obtain rfl := Host.Outcome.next.inj h
  obtain ⟨-, e⟩ | ⟨-, u, hu, e⟩ | ⟨-, v, -, e⟩ := issue_cases (encode i) (bodyOf i) s
  · simp [e]
  · obtain ⟨hframe, hcanon, hsmp, hmem, hout⟩ := body_frame hu
    rw [e, hframe]
    simpa using ⟨hcanon, hsmp, hmem, hout⟩
  · simp [e]

/-! ### Registers written through the port -/

/-- A write to a register other than `CMD` is one `storeReg`. -/
theorem step_write_reg {s : State} {off : Nat} {r : PortReg} {w : Word} {rest : List HostAct}
    (h : s.pending = .write off w :: rest) (hreg : regAt off = some r) (hr : r ≠ .cmd) :
    step s = .next (storeReg { s with pending := rest } r w) := by
  rw [step_cons h, serve_write, portWrite_reg hreg hr]

/-- Outside BUSY a write to a register other than `CMD` and `CTRL` is one `writeReg`. -/
theorem step_write_reg_idle {s : State} {off : Nat} {r : PortReg} {w : Word} {rest : List HostAct}
    (h : s.pending = .write off w :: rest) (hreg : regAt off = some r) (hcmd : r ≠ .cmd) (hctrl : r ≠ .ctrl)
    (hb : ∀ job, s.phase ≠ .busy job) : step s = .next (writeReg { s with pending := rest } r w) := by
  have hnot : statusBusy { s with pending := rest } = false := statusBusy_of_not_busy hb
  rw [step_write_reg h hreg hcmd, storeReg_idle w hnot hctrl]

/-- Settles O50: each of these offsets is one register, whose write clears DONE at most. -/
theorem statusWriteClearsDone : Obligations.StatusWriteClearsDone := by
  intro s off w rest h hb
  refine ⟨?_, ?_, ?_⟩
  · rintro rfl
    rw [step_write_reg_idle (r := .status) h rfl (by decide) (by decide) hb, writeReg_status]
  · rintro rfl hw
    rw [step_write_reg (r := .ctrl) h rfl (by decide), storeReg_ctrl, hw]
    rfl
  · rintro (rfl | rfl | rfl | hreg)
    · exact step_write_reg_idle (r := .errCode) h rfl (by decide) (by decide) hb
    · exact step_write_reg_idle (r := .errInfo) h rfl (by decide) (by decide) hb
    · exact step_write_reg_idle (r := .errCmd) h rfl (by decide) (by decide) hb
    · exact step_write_reg_idle h hreg (by decide) (by decide) hb

/-! ### Resets -/

@[simp] theorem gainAt_zero (c : Nat) : gainAt (Vector.replicate 32 0) c = 0 := by simp [gainAt]

@[simp] theorem inputAt_zero (i : Nat) : inputAt (Vector.replicate 32 MixInput.zero) i = MixInput.zero := by
  simp [inputAt]

theorem readBank_zero (b : BankReg) : readBank MixInput.zero b = 0 := by
  cases b with
  | vol c => exact gainAt_zero c
  | _ => rfl

/-- Every register of the window reads 0 in the reset state. -/
theorem readReg_reset (r : PortReg) : readReg State.reset r = 0 := by
  cases r with
  | vol c => exact gainAt_zero c
  | input i b =>
    change readBank (inputAt (Vector.replicate 32 MixInput.zero) i) b = 0
    rw [inputAt_zero, readBank_zero]
  | _ => rfl

/-- A reset leaves every register as it stands in the reset state. -/
theorem readReg_resetBlock (s : State) (r : PortReg) : readReg (resetBlock s) r = 0 := by
  rw [← readReg_reset r]
  cases r <;> rfl

/-- Settles O44. -/
theorem resetState : Obligations.ResetState := ⟨rfl, rfl, fun _ r _ => readReg_reset r⟩

/-- Settles O43: either reset is one `resetBlock`, in every STATE. -/
theorem resetClearsEveryRegister : Obligations.ResetClearsEveryRegister := by
  intro s act rest h hact
  have hstep : step s = .next (resetBlock { s with pending := rest }) := by
    obtain rfl | ⟨w, hw, rfl⟩ := hact
    · rw [step_cons h, serve_hardReset]
    · rw [step_write_reg (r := .ctrl) h rfl (by decide), storeReg_ctrl, if_pos hw]
  exact ⟨_, hstep, rfl, rfl, rfl, fun _ r _ => readReg_resetBlock _ r⟩

end Sys2Proof.Machine
end

section
/-! The register map (R44): page by page what stands at an offset, and that a register stands at the one offset its
name has in a host line (R97). -/

namespace Sys2Proof.Machine

/-! ### The pages of the window -/

theorem regAt_global {off : Nat} (h4 : off % 4 = 0) (h : off < 0x80) : regAt off = some (globalRegAt off) := by
  unfold regAt
  rw [if_neg (by simp only [Config.regWindow]; omega), if_pos h]

theorem regAt_vol {off : Nat} (h4 : off % 4 = 0) (h1 : 0x80 ≤ off) (h2 : off < 0x100) :
    regAt off = some (.vol ((off - 0x80) / 4)) := by
  unfold regAt
  rw [if_neg (by simp only [Config.regWindow]; omega), if_neg (by omega), if_pos h2]

theorem regAt_gap {off : Nat} (h4 : off % 4 = 0) (h1 : 0x100 ≤ off) (h2 : off < 0x1000) :
    regAt off = some .reserved := by
  unfold regAt
  rw [if_neg (by simp only [Config.regWindow]; omega), if_neg (by omega), if_neg (by omega), if_pos h2]

/-- Inside a bank the register is the bank's. -/
theorem regAt_bank_some {off : Nat} {b : BankReg} (h4 : off % 4 = 0) (h1 : 0x1000 ≤ off) (h2 : off < 0x3000)
    (hb : bankRegAt (off % 0x100) = some b) : regAt off = some (.input ((off - 0x1000) / 0x100) b) := by
  unfold regAt
  rw [if_neg (by simp only [Config.regWindow]; omega), if_neg (by omega), if_neg (by omega), if_neg (by omega),
    if_pos h2, hb]

theorem regAt_bank_none {off : Nat} (h4 : off % 4 = 0) (h1 : 0x1000 ≤ off) (h2 : off < 0x3000)
    (hb : bankRegAt (off % 0x100) = none) : regAt off = some .reserved := by
  unfold regAt
  rw [if_neg (by simp only [Config.regWindow]; omega), if_neg (by omega), if_neg (by omega), if_neg (by omega),
    if_pos h2, hb]

theorem regAt_top {off : Nat} (h4 : off % 4 = 0) (h1 : 0x3000 ≤ off) (h2 : off < 0x4000) :
    regAt off = some .reserved := by
  unfold regAt
  rw [if_neg (by simp only [Config.regWindow]; omega), if_neg (by omega), if_neg (by omega), if_neg (by omega),
    if_neg (by omega)]

/-! ### One page of global registers, one bank -/

/-- The global registers end at `0x40`. -/
theorem globalRegAt_reserved {off : Nat} (h : 0x40 ≤ off) : globalRegAt off = .reserved := by
  unfold globalRegAt
  split
  case h_17 => rfl
  all_goals omega

/-- Between its six registers and its gains a bank has nothing. -/
theorem bankRegAt_none {off : Nat} (h1 : 0x18 ≤ off) (h2 : off < 0x80) : bankRegAt off = none := by
  unfold bankRegAt
  split
  case h_7 => exact if_neg (by omega)
  all_goals omega

theorem bankRegAt_vol (c : Nat) : bankRegAt (0x80 + 4 * c) = some (.vol c) := by
  unfold bankRegAt
  split
  case h_7 => rw [if_pos (by omega), show (0x80 + 4 * c - 0x80) / 4 = c by omega]
  all_goals omega

theorem bankOffset_bankRegAt {off : Nat} {b : BankReg} (h4 : off % 4 = 0) (h : bankRegAt off = some b) :
    bankOffset b = off := by
  unfold bankRegAt at h
  split at h
  case h_7 =>
    split at h
    · obtain rfl := Option.some.inj h
      simp only [bankOffset]
      omega
    · cases h
  all_goals
    obtain rfl := Option.some.inj h
    rfl

/-! ### Registers and offsets -/

/-- A register of a bank whose index, if it has one, is within the Volume vector (R32). -/
def BankReg.InRange : BankReg → Prop
  | .vol c => c < 32
  | _ => True

/-- A register the block has, its indexes within the vector and the banks (R29 to R32); `reserved` is none. -/
def PortReg.InRange : PortReg → Prop
  | .vol c => c < 32
  | .input i b => i < 32 ∧ b.InRange
  | .reserved => False
  | _ => True

/-- What stands on the global page and is not reserved is a register with that offset. -/
theorem globalRegAt_cases (off : Nat) :
    globalRegAt off = .reserved ∨ (globalRegAt off).InRange ∧ offsetOf (globalRegAt off) = off := by
  unfold globalRegAt
  split
  case h_17 => exact .inl rfl
  all_goals exact .inr ⟨trivial, rfl⟩

/-- A register of a bank stands at its offset in the bank, aligned and below the next bank. -/
theorem bankRegAt_bankOffset {b : BankReg} (h : b.InRange) :
    bankRegAt (bankOffset b) = some b ∧ bankOffset b % 4 = 0 ∧ bankOffset b < 0x100 := by
  cases b with
  | vol c =>
    have hc : c < 32 := h
    exact ⟨bankRegAt_vol c, by simp only [bankOffset]; omega, by simp only [bankOffset]; omega⟩
  | _ => exact ⟨rfl, rfl, by decide⟩

/-- Every register stands at its offset. -/
theorem regAt_offsetOf {r : PortReg} (h : r.InRange) : regAt (offsetOf r) = some r := by
  cases r with
  | vol c =>
    have hc : c < 32 := h
    simp only [offsetOf]
    rw [regAt_vol (by omega) (by omega) (by omega), show (0x80 + 4 * c - 0x80) / 4 = c by omega]
  | input i b =>
    obtain ⟨hi, hb⟩ := h
    obtain ⟨hreg, h4, hlt⟩ := bankRegAt_bankOffset hb
    have hmod : (0x1000 + 0x100 * i + bankOffset b) % 0x100 = bankOffset b := by omega
    have hdiv : (0x1000 + 0x100 * i + bankOffset b - 0x1000) / 0x100 = i := by omega
    simp only [offsetOf]
    rw [regAt_bank_some (by omega) (by omega) (by omega) (hmod ▸ hreg), hdiv]
  | reserved => exact h.elim
  | _ => rfl

/-- What stands at an offset and is not reserved is a register with that offset, so at no other. -/
theorem offsetOf_of_regAt {off : Nat} {r : PortReg} (h : regAt off = some r) (hr : r ≠ .reserved) :
    r.InRange ∧ offsetOf r = off := by
  have hin : ¬ (off % 4 ≠ 0 ∨ 0x4000 ≤ off) := by
    rw [← regAt_eq_none_iff, h]
    simp
  have h4 : off % 4 = 0 := by omega
  by_cases hglobal : off < 0x80
  · obtain rfl := Option.some.inj (h.symm.trans (regAt_global h4 hglobal))
    exact (globalRegAt_cases off).resolve_left hr
  by_cases hvol : off < 0x100
  · obtain rfl := Option.some.inj (h.symm.trans (regAt_vol h4 (by omega) hvol))
    simp only [PortReg.InRange, offsetOf]
    omega
  by_cases hgap : off < 0x1000
  · exact absurd (Option.some.inj (h.symm.trans (regAt_gap h4 (by omega) hgap))) hr
  by_cases htop : 0x3000 ≤ off
  · exact absurd (Option.some.inj (h.symm.trans (regAt_top h4 htop (by omega)))) hr
  cases hb : bankRegAt (off % 0x100) with
  | none => exact absurd (Option.some.inj (h.symm.trans (regAt_bank_none h4 (by omega) (by omega) hb))) hr
  | some b =>
    obtain rfl := Option.some.inj (h.symm.trans (regAt_bank_some h4 (by omega) (by omega) hb))
    have hoff := bankOffset_bankRegAt (by omega) hb
    refine ⟨⟨by omega, ?_⟩, by simp only [offsetOf]; omega⟩
    cases b with
    | vol c =>
      simp only [bankOffset] at hoff
      simp only [BankReg.InRange]
      omega
    | _ => trivial

/-- Settles O47: the named registers by their offsets, the reserved ranges page by page. -/
theorem registerMap : Obligations.RegisterMap := by
  refine ⟨rfl, fun c hc => regAt_offsetOf (r := .vol c) hc, fun i hi => ?_, fun off h4 hrange => ?_,
    fun off => (regAt_eq_none_iff off).symm⟩
  · have hbank : ∀ b : BankReg, b.InRange → regAt (0x1000 + 0x100 * i + bankOffset b) = some (.input i b) :=
      fun b hb => regAt_offsetOf (r := .input i b) ⟨hi, hb⟩
    exact ⟨hbank .base trivial, hbank .offset trivial, hbank .length trivial, hbank .spec trivial, hbank .rate trivial,
      hbank .vlen trivial, fun c hc => Nat.add_assoc _ 0x80 _ ▸ hbank (.vol c) hc⟩
  · obtain ⟨h1, h2⟩ | ⟨h1, h2⟩ | ⟨h1, h2⟩ | ⟨h1, h2, h3, h5⟩ := hrange
    · rw [regAt_global h4 h2, globalRegAt_reserved h1]
    · exact regAt_gap h4 h1 h2
    · exact regAt_top h4 h1 h2
    · exact regAt_bank_none h4 h1 h2 (bankRegAt_none h3 h5)

end Sys2Proof.Machine
end

section
/-! A register write is read back without its reserved bits and disturbs no other register (R21, R37, R44). -/

namespace Sys2Proof.Machine

/-! ### Words and their fields -/

/-- The mask of `SPEC` keeps the four bits of `FORMAT` and the six of `CHANNELS`. -/
theorem and_specMask (n : Nat) : n &&& 0x3F0F = 2 ^ 8 * (n / 2 ^ 8 % 2 ^ 6) + n % 2 ^ 4 := by
  have hmask : (0x3F0F : Nat) = 2 ^ 8 * (2 ^ 6 - 1) + (2 ^ 4 - 1) := rfl
  apply Nat.eq_of_testBit_eq
  intro j
  rw [hmask, Nat.testBit_and, Nat.testBit_two_pow_mul_add _ (by decide), Nat.testBit_two_pow_mul_add _ (by omega),
    Nat.testBit_two_pow_sub_one, Nat.testBit_two_pow_sub_one, Nat.testBit_mod_two_pow, Nat.testBit_mod_two_pow,
    Nat.testBit_div_two_pow]
  split
  · exact Bool.and_comm _ _
  · rw [Nat.sub_add_cancel (by omega), Bool.and_comm]

theorem specWord_specOfWord (w : Word) : specWord (specOfWord w) = w &&& 0x3F0F := by
  apply BitVec.eq_of_toNat_eq
  simp only [specWord, specOfWord]
  rw [BitVec.toNat_ofNat, BitVec.extractLsb'_toNat, BitVec.extractLsb'_toNat, Nat.shiftRight_zero,
    Nat.shiftRight_eq_div_pow, BitVec.toNat_and, show (0x3F0F : Word).toNat = 0x3F0F from rfl, and_specMask]
  omega

/-- A mask of the `k` low bits keeps the word modulo `2^k`. -/
theorem toNat_and_lowMask (w : Word) {mask : Word} {k : Nat} (h : mask.toNat = 2 ^ k - 1) :
    (w &&& mask).toNat = w.toNat % 2 ^ k := by
  rw [BitVec.toNat_and, h, Nat.and_two_pow_sub_one_eq_mod]

theorem lowBits_word (w : Word) : (w.extractLsb' 0 6).setWidth 32 = w &&& 0x3F := by
  apply BitVec.eq_of_toNat_eq
  rw [toNat_and_lowMask w (k := 6) rfl, BitVec.toNat_setWidth, BitVec.extractLsb'_toNat, Nat.shiftRight_zero]
  omega

theorem bit_getLsbD (w : Word) (j : Nat) : bit (w.getLsbD j) = w.toNat / 2 ^ j % 2 := by
  simp only [bit, BitVec.getLsbD, Nat.testBit_eq_decide_div_mod_eq, decide_eq_true_eq]
  split <;> omega

theorem bit_word (w : Word) : BitVec.ofNat 32 (bit (w.getLsbD 0)) = w &&& 1 := by
  apply BitVec.eq_of_toNat_eq
  rw [toNat_and_lowMask w (k := 1) rfl, BitVec.toNat_ofNat, bit_getLsbD]
  omega

theorem intenWord_intenOfWord (w : Word) : intenWord (intenOfWord w) = w &&& 3 := by
  apply BitVec.eq_of_toNat_eq
  simp only [intenWord, intenOfWord]
  rw [toNat_and_lowMask w (k := 2) rfl, BitVec.toNat_ofNat, bit_getLsbD, bit_getLsbD]
  omega

theorem and_allOnes_word (w : Word) : w &&& 0xFFFFFFFF = w := BitVec.and_allOnes

/-! ### Vectors of registers -/

theorem gainAt_setGain_same (v : Vector Word 32) {c : Nat} (w : Word) (h : c < 32) : gainAt (setGain v c w) c = w := by
  simp [gainAt, setGain, h]

theorem gainAt_setGain_ne (v : Vector Word 32) {c c' : Nat} (w : Word) (h : c ≠ c') :
    gainAt (setGain v c w) c' = gainAt v c' := by
  simp [gainAt, setGain, h]

theorem inputAt_set_same (ins : Vector MixInput 32) {i : Nat} (x : MixInput) (h : i < 32) :
    inputAt (ins.setIfInBounds i x) i = x := by
  simp [inputAt, h]

theorem inputAt_set_ne (ins : Vector MixInput 32) {i i' : Nat} (x : MixInput) (h : i ≠ i') :
    inputAt (ins.setIfInBounds i x) i' = inputAt ins i' := by
  simp [inputAt, h]

theorem inputAt_set_outside (ins : Vector MixInput 32) {i : Nat} (x : MixInput) (h : ¬ i < 32) (i' : Nat) :
    inputAt (ins.setIfInBounds i x) i' = inputAt ins i' := by
  rw [Vector.setIfInBounds_eq_of_size_le (by omega)]

/-! ### Reading after a write -/

theorem readBank_writeBank_same (x : MixInput) {i : Nat} {b : BankReg} {bits : Word} (w : Word) (hb : b.InRange)
    (hk : keptBits (.input i b) = some bits) : readBank (writeBank x b w) b = w &&& bits := by
  cases b with
  | spec =>
    obtain rfl := Option.some.inj hk
    exact specWord_specOfWord w
  | vlen =>
    obtain rfl := Option.some.inj hk
    exact lowBits_word w
  | vol c =>
    obtain rfl := Option.some.inj hk
    exact (gainAt_setGain_same x.vol w hb).trans (and_allOnes_word w).symm
  | _ =>
    obtain rfl := Option.some.inj hk
    exact (and_allOnes_word w).symm

theorem readBank_writeBank_ne (x : MixInput) {b b' : BankReg} (w : Word) (h : b ≠ b') :
    readBank (writeBank x b w) b' = readBank x b' := by
  cases b with
  | vol c =>
    cases b' with
    | vol c' => exact gainAt_setGain_ne x.vol w fun hc => h (by rw [hc])
    | _ => rfl
  | _ => cases b' <;> first | rfl | contradiction

/-- What is written to a register is read back without its reserved bits. -/
theorem readReg_writeReg_same (s : State) {r : PortReg} {bits : Word} (w : Word) (hr : r.InRange)
    (hk : keptBits r = some bits) : readReg (writeReg s r w) r = w &&& bits := by
  cases r with
  | inten =>
    obtain rfl := Option.some.inj hk
    exact intenWord_intenOfWord w
  | spec =>
    obtain rfl := Option.some.inj hk
    exact specWord_specOfWord w
  | dstAttr =>
    obtain rfl := Option.some.inj hk
    exact bit_word w
  | volLen =>
    obtain rfl := Option.some.inj hk
    exact lowBits_word w
  | vol c =>
    obtain rfl := Option.some.inj hk
    exact (gainAt_setGain_same s.vol w hr).trans (and_allOnes_word w).symm
  | input i b =>
    obtain ⟨hi, hb⟩ := hr
    simp only [readReg, writeReg, inputAt_set_same s.inputs _ hi]
    exact readBank_writeBank_same _ w hb hk
  | cmd | status | ctrl | errCode | errInfo | errCmd | reserved => cases hk
  | smp | canon | rate | dstBase | dstOffset | dstLength =>
    obtain rfl := Option.some.inj hk
    exact (and_allOnes_word w).symm

/-- A write to a register of a bank is seen in that register only. -/
theorem readBank_inputs_ne (ins : Vector MixInput 32) {i i' : Nat} {b b' : BankReg} (w : Word)
    (h : PortReg.input i b ≠ .input i' b') :
    readBank (inputAt (ins.setIfInBounds i (writeBank (inputAt ins i) b w)) i') b' = readBank (inputAt ins i') b' := by
  by_cases hi : i = i'
  · subst hi
    have hb : b ≠ b' := fun hb => h (by rw [hb])
    by_cases hin : i < 32
    · rw [inputAt_set_same ins _ hin, readBank_writeBank_ne _ w hb]
    · rw [inputAt_set_outside ins _ hin]
  · rw [inputAt_set_ne ins _ hi]

/-- A write leaves every other register. -/
theorem readReg_writeReg_ne (s : State) {r r' : PortReg} (w : Word) (h : r ≠ r') :
    readReg (writeReg s r w) r' = readReg s r' := by
  cases r with
  | status =>
    rw [writeReg_status]
    cases r' <;> first | rfl | contradiction
  | vol c =>
    cases r' with
    | vol c' => exact gainAt_setGain_ne s.vol w fun hc => h (by rw [hc])
    | _ => rfl
  | input i b =>
    cases r' with
    | input i' b' => exact readBank_inputs_ne s.inputs w h
    | _ => rfl
  | _ => cases r' <;> first | rfl | contradiction

/-- The host's further acts show in no register. -/
theorem readReg_pending (s : State) (p : List HostAct) (r : PortReg) : readReg { s with pending := p } r = readReg s r := by
  cases r <;> rfl

/-- Settles O49: the write is one `writeReg`, and registers at different offsets are different. -/
theorem registerReadBack : Obligations.RegisterReadBack := by
  intro s off r bits w rest hreg hk hb h
  have hres : r ≠ .reserved := fun e => by rw [e] at hk; cases hk
  have hcmd : r ≠ .cmd := fun e => by rw [e] at hk; cases hk
  have hctrl : r ≠ .ctrl := fun e => by rw [e] at hk; cases hk
  obtain ⟨hin, hoff⟩ := offsetOf_of_regAt hreg hres
  obtain ⟨hphase, hmem, -⟩ := writeReg_phase { s with pending := rest } r w
  refine ⟨_, step_write_reg_idle h hreg hcmd hctrl hb, readReg_writeReg_same _ w hin hk, ?_, hmem, hphase⟩
  intro off' r' hreg' hne
  have hdiff : r ≠ r' := by
    rintro rfl
    exact hne ((offsetOf_of_regAt hreg' hres).2.symm.trans hoff)
  rw [readReg_writeReg_ne _ w hdiff, readReg_pending]

end Sys2Proof.Machine
end

section
/-! What a running command may touch: the register accesses that are none (R62), the chunks it owns against the host
(R73, R294), the one byte a tick writes (R60, R64), and that no access leaves memory (R65). -/

namespace Sys2Proof.Machine

/-! ### Register accesses -/

/-- Settles O52: such an offset is no register's, and the port refuses it in every STATE. -/
theorem outsideAccessRefused : Obligations.OutsideAccessRefused := by
  intro s off w rest hoff
  have hnone : regAt off = none := (regAt_eq_none_iff off).mpr hoff
  refine ⟨fun h => ?_, fun h => ?_⟩
  · rw [step_cons h, serve_write, portWrite_none hnone]
  · rw [step_cons h, serve_read, portRead_none hnone]

/-! ### The chunks of a running or accepted command -/

/-- Byte `a` belongs to the destination of command `i`; DEC and ENC have none. -/
def InDestination (s : State) (i : Instr) (a : Nat) : Prop :=
  (i = .vol ∨ ∃ nin, i = .mix nin) ∧ inChunk s.dst a = true

/-- Byte `a` belongs to an input chunk of command `i`; MIX alone has inputs. -/
def InInput (s : State) (i : Instr) (a : Nat) : Prop :=
  ∃ nin, i = .mix nin ∧ ∃ k < nin, inChunk (inputAt s.inputs k).chunk a = true

/-- The host may not write a byte of any chunk of the command that runs or is accepted (R73, R294). -/
theorem writeGuarded_iff {s : State} {i : Instr} (a : Nat) (h : Runs s i) :
    writeGuarded s a = true ↔ InDestination s i a ∨ InInput s i a := by
  unfold Runs at h
  split at h
  next hp => cases i <;> simp [writeGuarded, hp, h, InDestination, InInput]
  next hp => simp [writeGuarded, hp, h, InDestination, InInput]
  next hp => simp [writeGuarded, hp, h, InDestination, InInput]
  next => exact h.elim

/-- The host may not read a byte of the destination of the command that runs or is accepted (R294). -/
theorem readGuarded_iff {s : State} {i : Instr} (a : Nat) (h : Runs s i) :
    readGuarded s a = true ↔ InDestination s i a := by
  unfold Runs at h
  split at h
  next hp => cases i <;> simp [readGuarded, hp, h, InDestination]
  next hp => simp [readGuarded, hp, h, InDestination]
  next hp => simp [readGuarded, hp, h, InDestination]
  next => exact h.elim

/-- An illegal word owns no chunk before its decode. -/
theorem not_guarded_of_illegal {s : State} {w : Word} {why : BadWord} (a : Nat) (hp : s.phase = .busy (.accepted w))
    (hd : decode w = .error why) : writeGuarded s a = false ∧ readGuarded s a = false := by
  simp [writeGuarded, readGuarded, hp, hd]

/-- A host store is served or refused as the running command's chunks say. -/
theorem step_store {s : State} {addr : Word} {b : Byte} {rest : List HostAct} (h : s.pending = .store addr b :: rest) :
    step s = if writeGuarded s addr.toNat then .refused (.chunkTouched addr.toNat)
      else .next { s with pending := rest, mem := writeByte s.mem addr.toNat b } := by
  rw [step_cons h, serve_store]
  rfl

/-- A host load is served or refused as the running command's chunks say. -/
theorem step_load {s : State} {addr : Word} {rest : List HostAct} (h : s.pending = .load addr :: rest) :
    step s = if readGuarded s addr.toNat then .refused (.chunkTouched addr.toNat)
      else .next { s with pending := rest, rdata := (readByte s.mem addr.toNat).setWidth 32 } := by
  rw [step_cons h, serve_load]
  rfl

/-- Settles O56: the guard against stores is membership in any chunk of the command, that against loads membership in
its destination. -/
theorem runningChunkIsGuarded : Obligations.RunningChunkIsGuarded := by
  intro s addr b rest stored loaded
  constructor
  · intro i hi inDst inInput
    have hstore : writeGuarded s addr.toNat = true ↔ inDst ∨ inInput := writeGuarded_iff addr.toNat hi
    have hload : readGuarded s addr.toNat = true ↔ inDst := readGuarded_iff addr.toNat hi
    refine ⟨fun h => ⟨fun hin => ?_, fun hdst hinput => ?_⟩, fun h => ⟨fun hin => ?_, fun hdst => ?_⟩⟩
    · exact (step_store h).trans (if_pos (hstore.mpr hin))
    · exact (step_store h).trans (if_neg fun hg => (hstore.mp hg).elim hdst hinput)
    · exact (step_load h).trans (if_pos (hload.mpr hin))
    · exact (step_load h).trans (if_neg (mt hload.mp hdst))
  · intro w why hp hd
    obtain ⟨hstore, hload⟩ := not_guarded_of_illegal addr.toNat hp hd
    refine ⟨fun h => ?_, fun h => ?_⟩
    · exact (step_store h).trans (if_neg (by simp [hstore]))
    · exact (step_load h).trans (if_neg (by simp [hload]))

/-! ### What a tick leaves unchanged -/

/-- A running command past its prechecks completes, or is left at another place with at most one byte of its
destination written. -/
def MovesOn (s t : State) : Prop := t = complete s ∨ ∃ m job, AccessMem s m ∧ t = withJob { s with mem := m } job

theorem movesOn_withJob (s : State) (job : Job) : MovesOn s (withJob s job) := .inr ⟨_, job, accessMem_same s, rfl⟩

theorem movesOn_of_readAccess {s t : State} {a : Nat} {job : Byte → Job} (h : readAccess s a job = .next t) :
    MovesOn s t := by
  obtain ⟨-, rfl⟩ := readAccess_cases h
  exact movesOn_withJob s _

theorem tickVol_movesOn {s t : State} {f : Fmt} {k : Nat} {stage : Stage} (h : tickVol s f k stage = .next t) :
    MovesOn s t := by
  obtain rfl | ⟨m, k', stage', hacc, rfl, -, -⟩ := tickVol_cases h
  · exact .inl rfl
  · exact .inr ⟨m, _, hacc, rfl⟩

/-- Unlike `tickMix_cases` this asks nothing of the input index. -/
theorem tickMix_movesOn {s t : State} {f : Fmt} {nin k i : Nat} {a : Accs} {stage : Stage}
    (h : tickMix s f nin k i a stage = .next t) : MovesOn s t := by
  unfold tickMix at h
  by_cases hk : sampleCount f s.dst ≤ k
  · rw [if_pos hk] at h
    exact .inl (Host.Outcome.next.inj h).symm
  · rw [if_neg hk] at h
    cases stage with
    | reading j got =>
      simp only at h
      split at h
      · exact Host.Outcome.next.inj h ▸ movesOn_withJob s _
      · split at h
        · split at h
          · exact movesOn_of_readAccess h
          · exact Host.Outcome.next.inj h ▸ movesOn_withJob s _
        · exact Host.Outcome.next.inj h ▸ movesOn_withJob s _
    | writing j out =>
      simp only at h
      split at h
      · obtain ⟨ha, rfl⟩ := writeAccess_cases h
        exact .inr ⟨_, _, accessMem_sample _ (by omega) ‹_› ha, rfl⟩
      · exact Host.Outcome.next.inj h ▸ movesOn_withJob s _

/-- A tick leaves a block that is not busy, decodes an accepted word, or moves a running command on. -/
theorem tick_cases {s t : State} (h : tick s = .next t) :
    t = s ∨ (∃ w, s.phase = .busy (.accepted w) ∧ t = tickAccepted s w) ∨ MovesOn s t := by
  unfold tick at h
  split at h
  next w hp => exact .inr (.inl ⟨w, hp, (Host.Outcome.next.inj h).symm⟩)
  next => exact .inr (.inr (tickVol_movesOn h))
  next => exact .inr (.inr (tickMix_movesOn h))
  next => exact .inl (Host.Outcome.next.inj h).symm
  next => exact .inl (Host.Outcome.next.inj h).symm

/-- Settles O54: a running command changes memory and its own place only, the decode tick the error registers, `SMP` or
`CANON`. -/
theorem tickWritesOneByte : Obligations.TickWritesOneByte := by
  intro s t h
  obtain rfl | ⟨w, hp, rfl⟩ | rfl | ⟨m, job, hacc, rfl⟩ := tick_cases h
  · simp
  · obtain ⟨v, e⟩ | ⟨i, u, hd, hi, hb, e⟩ | ⟨job, -, e⟩ := tickAccepted_cases s w
    · simp [e, hp]
    · obtain ⟨f, rfl, -, rfl⟩ | ⟨f, rfl, -, rfl⟩ | ⟨f, rfl, -, -⟩ | ⟨f, nin, rfl, -, -⟩ := body_cases hb
      · simp [e, hp, hd]
      · simp [e, hp, hd]
      · simp at hi
      · simp at hi
    · simp [e]
  · simp
  · have hone : m = s.mem ∨ ∃ a b, inChunk s.dst a = true ∧ m = writeByte s.mem a b :=
      hacc.imp_right fun ⟨a, b, _, hin, e⟩ => ⟨a, b, hin, e⟩
    exact ⟨hone, by simp⟩

/-! ### No access leaves memory -/

/-- A byte of a sample of a checked chunk lies in memory (R65). -/
theorem sample_byte_in_memory {f : Fmt} {c : Chunk} {k j : Nat} (hw : addrWraps c = false) (hk : k < sampleCount f c)
    (hj : j < fmtWidth f) : sampleAddr f c k + j < Config.memSize := by
  have hin := sample_in_chunk hk
  have hmem := chunk_in_memory hw
  omega

/-- An input that is read at sample `k` has sample `k` (R228). -/
theorem lt_sampleCount_of_mixReads {f : Fmt} {s : State} {i k : Nat} (h : mixReads f s i k = true) :
    k < sampleCount f (inputAt s.inputs i).chunk := by
  unfold mixReads at h
  rw [Bool.and_eq_true, contributes_iff, ← Nat.succ_mul] at h
  exact (Nat.le_div_iff_mul_le (fmtWidth_pos f)).mpr h.1

theorem tickVol_goes_on {s : State} {f : Fmt} (k : Nat) (stage : Stage) (hw : addrWraps s.dst = false) :
    ∃ t, tickVol s f k stage = .next t := by
  unfold tickVol
  by_cases hk : sampleCount f s.dst ≤ k
  · exact ⟨_, if_pos hk⟩
  · rw [if_neg hk]
    rw [Nat.not_le] at hk
    cases stage with
    | reading j got =>
      dsimp only
      split
      · exact ⟨_, rfl⟩
      · split
        · exact ⟨_, rfl⟩
        · split
          · exact ⟨_, readAccess_eq _ (sample_byte_in_memory hw hk ‹_›)⟩
          · exact ⟨_, rfl⟩
    | writing j out =>
      dsimp only
      split
      · exact ⟨_, writeAccess_eq _ _ (sample_byte_in_memory hw hk ‹_›)⟩
      · exact ⟨_, rfl⟩

theorem tickMix_goes_on {s : State} {f : Fmt} {nin : Nat} (k i : Nat) (a : Accs) (stage : Stage)
    (hw : addrWraps s.dst = false) (hin : ∀ i < nin, addrWraps (inputAt s.inputs i).chunk = false) :
    ∃ t, tickMix s f nin k i a stage = .next t := by
  unfold tickMix
  by_cases hk : sampleCount f s.dst ≤ k
  · exact ⟨_, if_pos hk⟩
  · rw [if_neg hk]
    rw [Nat.not_le] at hk
    cases stage with
    | reading j got =>
      dsimp only
      split
      · exact ⟨_, rfl⟩
      · have hi : addrWraps (inputAt s.inputs i).chunk = false := hin i (by omega)
        split
        · split
          · exact ⟨_, readAccess_eq _ (sample_byte_in_memory hi (lt_sampleCount_of_mixReads ‹_›) ‹_›)⟩
          · exact ⟨_, rfl⟩
        · exact ⟨_, rfl⟩
    | writing j out =>
      dsimp only
      split
      · exact ⟨_, writeAccess_eq _ _ (sample_byte_in_memory hw hk ‹_›)⟩
      · exact ⟨_, rfl⟩

/-- A sound block never stops in a tick: the prechecks of its command keep every access in memory (R65, R255). -/
theorem tick_goes_on {s : State} (h : StateInv s) : ∃ t, tick s = .next t := by
  unfold tick
  split
  next => exact ⟨_, rfl⟩
  next f k stage hp =>
    obtain ⟨-, -, hcheck, -, -⟩ := stateInv_busy h hp
    obtain ⟨-, -, -, -, -, hw, -⟩ := (volCheck_eq_ok_iff s f).mp hcheck
    exact tickVol_goes_on k stage hw
  next f nin k i acc facc stage hp =>
    obtain ⟨-, -, hcheck, -, -, -⟩ := stateInv_busy h hp
    obtain ⟨-, -, -, -, hw, -, hinputs⟩ := (mixCheck_eq_ok_iff nin s f).mp hcheck
    refine tickMix_goes_on k i _ stage hw fun i' hi' => ?_
    obtain ⟨-, -, -, -, -, hwi⟩ := (inputCheck_eq_none_iff f s i').mp (hinputs i' hi')
    exact hwi
  next => exact ⟨_, rfl⟩
  next => exact ⟨_, rfl⟩

theorem tick_ne_fault {s : State} (h : StateInv s) (r : Fault) : tick s ≠ .fault r := by
  obtain ⟨t, e⟩ := tick_goes_on h
  simp [e]

/-- A word written to `CMD` is executed, accepted or discarded. -/
theorem writeCmd_goes_on (w : Word) (s : State) : ∃ t, writeCmd w s = .next t := by
  unfold writeCmd
  split
  · split
    · exact ⟨_, exec_eq_issue _ s⟩
    · exact ⟨_, rfl⟩
  · split
    · exact ⟨_, rfl⟩
    · exact ⟨_, rfl⟩

/-- A register write is served or refused. -/
theorem portWrite_ne_fault (off : Nat) (w : Word) (s : State) (r : Fault) : portWrite off w s ≠ .fault r := by
  unfold portWrite
  split
  · simp
  · obtain ⟨t, e⟩ := writeCmd_goes_on w s
    simp [e]
  · simp

/-- A register read is served or refused. -/
theorem portRead_ne_fault (off : Nat) (s : State) (r : Fault) : portRead off s ≠ .fault r := by
  unfold portRead
  split <;> simp

/-- No act of the host on a sound block ends in the model's fault: the acts that let a command go on are ticks, every
other is served or refused. -/
theorem serve_ne_fault {s : State} (act : HostAct) (h : StateInv s) (r : Fault) : serve act s ≠ .fault r := by
  cases act with
  | write off w => exact portWrite_ne_fault off w s r
  | read off => exact portRead_ne_fault off s r
  | store addr b =>
    rw [serve_store]
    unfold hostStore
    split <;> simp
  | load addr =>
    rw [serve_load]
    unfold hostLoad
    split <;> simp
  | hardReset => simp
  | run => exact tick_ne_fault h r
  | wait =>
    cases hb : statusBusy s with
    | false => simp [serve_wait_idle hb]
    | true =>
      rw [serve_wait_busy hb]
      exact tick_ne_fault (stateInv_host _ _ h h.memOk) r

/-- Settles O59: a step is a tick or serves one act of the host, and neither ends in the fault. -/
theorem noAccessLeavesMemory : Obligations.NoAccessLeavesMemory := by
  intro s r h
  cases hp : s.pending with
  | nil =>
    rw [step_nil hp]
    exact tick_ne_fault h r
  | cons act rest =>
    rw [step_cons hp]
    exact serve_ne_fault act (stateInv_host rest s.rdata h h.memOk) r

end Sys2Proof.Machine
end

section
/-! MIX on operands that no check fails on, as the statements write them (R221), and the memory in which it finds its
inputs when chunks overlap (R71, R78). -/

namespace Sys2Proof.Machine

/-! ### Operands that pass the prechecks -/

theorem addrWraps_eq_false_iff (c : Chunk) :
    addrWraps c = false ↔ c.base.toNat + c.offset.toNat + c.length.toNat ≤ 2 ^ 32 := by
  rw [← Bool.not_eq_true, addrWraps_iff, Nat.not_lt]

theorem badLength_eq_false_iff (f : Fmt) (n : Nat) (c : Chunk) :
    badLength f n c = false ↔ c.length.toNat % (fmtWidth f * n) = 0 := by
  rw [← Bool.not_eq_true, badLength_iff, ne_eq, not_not]

theorem badChannels_eq_false_iff (sp : SpecReg) :
    badChannels sp = false ↔ 1 ≤ sp.channels.toNat ∧ sp.channels.toNat ≤ 32 := by
  rw [← Bool.not_eq_true, badChannels_iff]
  omega

/-- An input that no check of R221 fails on, as the statements write it. -/
theorem inputCheck_of_inputOk {f : Fmt} {s : State} {i : Nat} (h : InputOk f s i) : inputCheck f s i = none := by
  obtain ⟨hspec, hrate, hvlen, hgain, hlen, hwrap⟩ := h
  exact (inputCheck_eq_none_iff f s i).mpr ⟨hspec, hrate, congrArg BitVec.toNat hvlen,
    (badGain_eq_none_iff _ _).mpr hgain, (badLength_eq_false_iff f _ _).mpr hlen, (addrWraps_eq_false_iff _).mpr hwrap⟩

/-- Operands that no check of R221 fails on, as the statements write them, pass the prechecks of MIX. -/
theorem mixCheck_of_mixOk {f : Fmt} {nin : Nat} {s : State} (h : MixOk f nin s) : mixCheck nin s = .ok f := by
  obtain ⟨⟨hnin, hfmt, hlo, hhi, hlen, hwrap, hexcl⟩, hinputs⟩ := h
  exact (mixCheck_eq_ok_iff nin s f).mpr ⟨hnin, hfmt, (badChannels_eq_false_iff _).mpr ⟨hlo, hhi⟩,
    (badLength_eq_false_iff f _ _).mpr hlen, (addrWraps_eq_false_iff _).mpr hwrap, hexcl,
    fun i hi => inputCheck_of_inputOk (hinputs i hi)⟩

/-! ### The result of MIX -/

/-- A block found in IDLE is back in IDLE when a command completes. -/
theorem complete_of_idle {s : State} (hs : s.phase = .idle) : complete s = { s with done := true } := by
  unfold complete
  rw [← hs]

/-- A MIX past its prechecks completes, having changed memory only (R220, R47). -/
theorem exec_mix_of_mixCheck {f : Fmt} {nin : Nat} {s : State} (hs : s.phase = .idle) (hc : mixCheck nin s = .ok f) :
    exec (.mix nin) s = .next { s with mem := mixMem f nin s (sampleCount f s.dst), done := true } := by
  have hbody : mixBody nin s = .ok { s with mem := mixMem f nin s (sampleCount f s.dst) } := by simp [mixBody, hc]
  rw [exec_eq_issue, bodyOf, issue_idle_ok hs hbody]
  exact congrArg Host.Outcome.next (complete_of_idle hs)

/-- What MIX has written below sample `n` stays to its end. -/
theorem readByte_mixMem_final (f : Fmt) (nin : Nat) (s : State) {a n : Nat} (h : a < sampleAddr f s.dst n)
    (hn : n ≤ sampleCount f s.dst) :
    readByte (mixMem f nin s n) a = readByte (mixMem f nin s (sampleCount f s.dst)) a := by
  obtain ⟨d, hd⟩ := Nat.exists_eq_add_of_le hn
  rw [hd, readByte_mixMem_stable f nin s h d]

/-- Settles O32: sample `k` is computed over memory after the first `k` samples. -/
theorem mixReadsWhatItWrote : Obligations.MixReadsWhatItWrote := by
  intro s f nin hs hm hok
  have hcheck := mixCheck_of_mixOk hok
  obtain ⟨-, -, -, -, hw, -, -⟩ := (mixCheck_eq_ok_iff nin s f).mp hcheck
  refine ⟨_, exec_mix_of_mixCheck hs hcheck, fun k hk => ⟨mixMem f nin s k, ?_, ?_, ?_⟩⟩
  · exact fun a _ ha => readByte_mixMem_final f nin s ha hk.le
  · rintro a (ha | ha)
    · exact readByte_mixMem_below f nin s ha k
    · exact readByte_mixMem_above f nin s k ha
  · exact memRead_mixMem hm hw hk le_rfl

end Sys2Proof.Machine
end

section
/-! The encoding of commands (R90 to R94): which words decode to which command, in terms of the fields of a word, of the
encoder and of the opcode table's match/mask pairs. -/

namespace Sys2Proof

/-! ### The fields of a command -/

/-- `OPCODE` of a command (R91). -/
def opcodeNum : Instr → Nat
  | .dec => 1
  | .enc => 2
  | .vol => 3
  | .mix _ => 4

/-- `NIN` of a command, 0 where it carries no operand (R91, R92). -/
def ninNum : Instr → Nat
  | .mix nin => nin
  | _ => 0

theorem opcodeNum_lt (i : Instr) : opcodeNum i < 256 := by cases i <;> simp [opcodeNum]

theorem encode_eq_commandWord (i : Instr) : encode i = commandWord (opcodeNum i) (ninNum i) := by cases i <;> rfl

/-- A command has a word exactly when its `NIN` fits the six bits of the field. -/
theorem wellFormed_iff_ninNum_lt (i : Instr) : i.WellFormed ↔ ninNum i < 64 := by
  cases i with
  | mix nin => exact Iff.rfl
  | _ => exact ⟨fun _ => by decide, fun _ => trivial⟩

theorem plainCommand_eq_ok_iff (nin : Nat) (i j : Instr) : plainCommand nin j = .ok i ↔ nin = 0 ∧ j = i := by
  unfold plainCommand
  split <;> simp [*]

/-- What the decoder accepts, by the three fields of the word (R90 to R93). -/
theorem decode_eq_ok_iff (w : Word) (i : Instr) :
    decode w = .ok i ↔ opcodeOf w = opcodeNum i ∧ ninOf w = ninNum i ∧ reservedOf w = 0 := by
  constructor
  · intro h
    unfold decode at h
    split at h
    · cases h
    next hreserved =>
      have hres : reservedOf w = 0 := not_not.mp hreserved
      split at h
      case h_4 hop =>
        obtain rfl := Except.ok.inj h
        exact ⟨hop, rfl, hres⟩
      case h_5 => cases h
      all_goals
        obtain ⟨hnin, rfl⟩ := (plainCommand_eq_ok_iff _ _ _).mp h
        exact ⟨‹_›, hnin, hres⟩
  · rintro ⟨hop, hnin, hres⟩
    cases i <;> simp [decode, plainCommand, hop, hnin, hres, opcodeNum, ninNum]

/-- Settles O1: both sides say the same of the fields of the word, the six bits of `NIN` making the command
well-formed. -/
theorem decodeInvertsEncode : Obligations.DecodeInvertsEncode := by
  intro w i
  rw [decode_eq_ok_iff, encode_eq_commandWord, wellFormed_iff_ninNum_lt]
  constructor
  · rintro ⟨hop, hnin, hres⟩
    have hlt : ninNum i < 64 := hnin ▸ ninOf_lt w
    exact ⟨hlt, (eq_commandWord_iff (opcodeNum_lt i) hlt w).mpr ⟨hop, hnin, hres⟩⟩
  · rintro ⟨hlt, hw⟩
    exact (eq_commandWord_iff (opcodeNum_lt i) hlt w).mp hw

/-- Every well-formed command decodes from its own word. -/
theorem decode_encode {i : Instr} (h : i.WellFormed) : decode (encode i) = .ok i :=
  (decodeInvertsEncode _ i).mpr ⟨h, rfl⟩

/-- Settles O3: each legal word is the encoding of its command. -/
theorem specWordsDecode : Obligations.SpecWordsDecode :=
  ⟨decode_encode (i := .dec) trivial, decode_encode (i := .enc) trivial, decode_encode (i := .vol) trivial,
    decode_encode (i := .mix 0) (by decide), decode_encode (i := .mix 1) (by decide),
    decode_encode (i := .mix 32) (by decide), decode_encode (i := .mix 63) (by decide), rfl, rfl, rfl⟩

/-! ### The match/mask pairs -/

/-- The mask of MIX keeps `OPCODE` and the reserved bits of a word and clears `NIN`. -/
theorem fields_and_mixMask (w : Word) :
    opcodeOf (w &&& 0xFFFFC0FF) = opcodeOf w ∧ ninOf (w &&& 0xFFFFC0FF) = 0 ∧
    reservedOf (w &&& 0xFFFFC0FF) = reservedOf w := by
  have hw : (w &&& 0xFFFFC0FF).toNat = w.toNat &&& 0xFFFFC0FF := BitVec.toNat_and _ _
  refine ⟨?_, ?_, ?_⟩
  · unfold opcodeOf
    rw [hw, Nat.and_mod_two_pow (n := 8)]
    exact (Nat.and_two_pow_sub_one_eq_mod _ 8).trans (Nat.mod_mod _ _)
  · unfold ninOf
    rw [hw, Nat.and_div_two_pow (n := 8), Nat.and_mod_two_pow (n := 6)]
    exact Nat.and_zero _
  · unfold reservedOf
    rw [hw, Nat.and_div_two_pow (n := 14)]
    exact (Nat.and_two_pow_sub_one_eq_mod _ 18).trans (Nat.mod_eq_of_lt (by omega))

/-- A word matches the pattern of MIX exactly when its `OPCODE` is 4 and its reserved bits are 0. -/
theorem and_mixMask_eq_iff (w : Word) : w &&& 0xFFFFC0FF = 0x00000004 ↔ opcodeOf w = 4 ∧ reservedOf w = 0 := by
  obtain ⟨hop, hnin, hres⟩ := fields_and_mixMask w
  have hpattern := eq_commandWord_iff (opcode := 4) (nin := 0) (by decide) (by decide) (w &&& 0xFFFFC0FF)
  rw [hop, hnin, hres] at hpattern
  exact eq_comm.trans (hpattern.trans (and_congr_right' (and_iff_right rfl)))

/-- `NIN` as the bits 13 to 8 of the word. -/
theorem extractLsb'_eq_ninOf (w : Word) : (w.extractLsb' 8 6).toNat = ninOf w := by
  rw [BitVec.extractLsb'_toNat, Nat.shiftRight_eq_div_pow]
  rfl

/-- A command without an operand decodes from its one word. -/
theorem decode_eq_ok_iff_of_fullMask {i : Instr} (h : i.WellFormed) (w : Word) :
    decode w = .ok i ↔ w &&& 0xFFFFFFFF = encode i := by
  rw [Machine.and_allOnes_word, decodeInvertsEncode w i, eq_comm (a := w)]
  exact and_iff_right h

theorem decode_eq_ok_mix_iff (w : Word) (n : Nat) :
    decode w = .ok (.mix n) ↔ w &&& 0xFFFFC0FF = 0x00000004 ∧ n = (w.extractLsb' 8 6).toNat := by
  rw [decode_eq_ok_iff, and_mixMask_eq_iff, extractLsb'_eq_ninOf, eq_comm (a := n), and_assoc,
    and_comm (a := reservedOf w = 0)]
  rfl

/-- Settles O2: the full mask leaves one word per command, that of MIX leaves `NIN` free. -/
theorem decodeMatchesTable : Obligations.DecodeMatchesTable := fun w =>
  ⟨decode_eq_ok_iff_of_fullMask (i := .dec) trivial w, decode_eq_ok_iff_of_fullMask (i := .enc) trivial w,
    decode_eq_ok_iff_of_fullMask (i := .vol) trivial w, decode_eq_ok_mix_iff w⟩

/-- A word that matches none of the four patterns is rejected (R93). -/
theorem decode_eq_error_of_no_pattern {w : Word} (h : ¬ (w = 1 ∨ w = 2 ∨ w = 3 ∨ w &&& 0xFFFFC0FF = 4)) :
    ∃ why, decode w = .error why := by
  obtain ⟨hdec, henc, hvol, hmix⟩ := decodeMatchesTable w
  rw [Machine.and_allOnes_word] at hdec henc hvol
  cases hd : decode w with
  | error why => exact ⟨why, rfl⟩
  | ok i =>
    refine absurd ?_ h
    cases i with
    | dec => exact .inl (hdec.mp hd)
    | enc => exact .inr (.inl (henc.mp hd))
    | vol => exact .inr (.inr (.inl (hvol.mp hd)))
    | mix n => exact .inr (.inr (.inr ((hmix n).mp hd).1))

end Sys2Proof
end

section
/-! An illegal command word (R93, R254), at either pace. -/

namespace Sys2Proof.Machine

/-- Within the CMD write an illegal word faults. -/
theorem writeCmd_atOnce_error {s : State} {w : Word} {why : BadWord} (hp : s.pace = .atOnce) (hs : s.phase = .idle)
    (hd : decode w = .error why) : writeCmd w s = .next (raise w (plainErr .badCmd) s) := by
  simp [writeCmd, hp, hd, issue_idle_error hs]

/-- An accepted illegal word faults at its decode tick. -/
theorem tick_accept_error {w : Word} {why : BadWord} (hd : decode w = .error why) (s : State) :
    tick (accept w s) = .next (raise w (plainErr .badCmd) (accept w s)) := by
  simp [tick, tickAccepted, hd]

/-- Settles O6: such a word is rejected by the decoder, and fault entry overwrites what acceptance changed. -/
theorem illegalWordFaults : Obligations.IllegalWordFaults := by
  intro s w rest hs h hw
  obtain ⟨why, hd⟩ := decode_eq_error_of_no_pattern hw
  refine ⟨fun hp => ?_, ?_⟩
  · exact (step_write_cmd h).trans (writeCmd_atOnce_error hp hs hd)
  · rw [tick_accept_error hd]
    rfl

end Sys2Proof.Machine
end

section
/-! The lines of a host program (R97, R98): the words they write and what `WAIT` does. -/

namespace Sys2Proof.Machine

/-! ### Words and tags -/

/-- A line that issues a well-formed command writes the command's encoding. -/
theorem issueLineWord_eq_encode {i : Instr} (h : i.WellFormed) : issueLineWord i = encode i := by
  cases i with
  | mix n => simp only [issueLineWord, encode, commandWord, Nat.mod_eq_of_lt h, Nat.mul_comm]
  | _ => rfl

/-- The tag of every format fits the field, and stands for that format (R95). -/
theorem fmtOfTag_tagOf (f : Fmt) : ∃ tag : BitVec 4, tag.toNat = tagOf f ∧ fmtOfTag tag = some f := by
  refine ⟨BitVec.ofNat 4 (tagOf f), ?_⟩
  cases f with
  | int f => cases f <;> exact ⟨rfl, rfl⟩
  | flt f => cases f <;> exact ⟨rfl, rfl⟩

/-! ### Gain vectors -/

theorem expand_setVol (gains : List Word) :
    expand (.setVol gains) = .write 0x0038 (BitVec.ofNat 32 gains.length) ::
      (List.range gains.length).map (fun c => .write (0x0080 + 4 * c) (gains.getD c 0)) := by
  simp only [expand, wrGains_eq, wrAct, offsetOf, Nat.zero_add]

theorem expand_setInVol (i : Nat) (gains : List Word) :
    expand (.setInVol i gains) = .write (0x1000 + 0x100 * i + 0x14) (BitVec.ofNat 32 gains.length) ::
      (List.range gains.length).map (fun c => .write (0x1000 + 0x100 * i + 0x80 + 4 * c) (gains.getD c 0)) := by
  simp only [expand, wrGains_eq, wrAct, offsetOf, bankOffset, Nat.zero_add, Nat.add_assoc]

/-! ### `WAIT` -/

theorem step_wait_not_busy {s : State} {rest : List HostAct} (h : s.pending = .wait :: rest)
    (hb : ∀ job, s.phase ≠ .busy job) : step s = .next { s with pending := rest, rdata := readReg s .status } := by
  have hidle : statusBusy { s with pending := rest } = false := statusBusy_of_not_busy hb
  rw [step_cons h, serve_wait_idle hidle]
  rfl

/-- In BUSY the act is put back on the list before the tick. -/
theorem step_wait_busy {s : State} {job : Job} {rest : List HostAct} (h : s.pending = .wait :: rest)
    (hb : s.phase = .busy job) : step s = tick { s with rdata := readReg s .status } := by
  have hbusy : statusBusy { s with pending := rest } = true := statusBusy_of_busy hb
  rw [step_cons h, serve_wait_busy hbusy, ← h]
  rfl

/-- A tick leaves the acts of the host as they are. -/
theorem tick_pending {s t : State} (h : tick s = .next t) : t.pending = s.pending := by
  obtain ⟨-, -, -, -, -, -, -, -, -, -, -, -, hpending, -, -⟩ := tickWritesOneByte s t h
  exact hpending

/-- Settles O48: the lines of registers and of `WAIT` by the lemmas on offsets, tags, words and steps, the others as
`expand` writes them. -/
theorem hostLinesAreAccesses : Obligations.HostLinesAreAccesses := by
  refine ⟨fun off r h hr => (offsetOf_of_regAt h hr).2, fun _ _ => rfl, fun _ => rfl, ⟨rfl, rfl, rfl, fun _ => rfl⟩,
    fun i hi => ⟨encode i, ?_, decode_encode hi⟩, rfl, rfl, rfl, fmtOfTag_tagOf, fun _ _ _ => rfl, fun _ _ _ => rfl,
    expand_setVol, fun _ _ _ _ _ _ _ => rfl, expand_setInVol, rfl, fun s rest h => ⟨step_wait_not_busy h, ?_, ?_⟩⟩
  · rw [← issueLineWord_eq_encode hi]
    rfl
  · exact fun job hb => step_wait_busy h hb
  · intro job t hb hstep
    rw [step_wait_busy h hb] at hstep
    exact (tick_pending hstep).trans h

end Sys2Proof.Machine
end

section
/-! The bytes of a word and the word of a byte list (R7, R8, R10), over numbers. -/

namespace Sys2Proof.Machine

/-! ### Bytes of a word -/

@[simp] theorem toNat_byteOf {n : Nat} (u : BitVec n) (j : Nat) : (byteOf u j).toNat = u.toNat / 2 ^ (8 * j) % 256 := by
  simp [byteOf, Nat.shiftRight_eq_div_pow]

theorem toNat_append_byte {n : Nat} (x : BitVec n) (b : Byte) : (x ++ b).toNat = b.toNat + 256 * x.toNat := by
  rw [BitVec.toNat_append, ← Nat.shiftLeft_add_eq_or_of_lt b.isLt, Nat.shiftLeft_eq]
  omega

/-- Byte 0 of a word with a byte put below it is that byte. -/
@[simp] theorem byteOf_append_zero {n : Nat} (x : BitVec n) (b : Byte) : byteOf (x ++ b) 0 = b := by
  apply BitVec.eq_of_toNat_eq
  rw [toNat_byteOf, toNat_append_byte]
  have := b.isLt
  omega

/-- The other bytes are those of the word. -/
@[simp] theorem byteOf_append_succ {n : Nat} (x : BitVec n) (b : Byte) (j : Nat) :
    byteOf (x ++ b) (j + 1) = byteOf x j := by
  apply BitVec.eq_of_toNat_eq
  have hb : (b.toNat + 256 * x.toNat) / 256 = x.toNat := by have := b.isLt; omega
  rw [toNat_byteOf, toNat_byteOf, toNat_append_byte, show 8 * (j + 1) = 8 + 8 * j by omega, Nat.pow_add,
    ← Nat.div_div_eq_div_mul, hb]

@[simp] theorem byteOf_byte (b : Byte) : byteOf b 0 = b := by
  apply BitVec.eq_of_toNat_eq
  simpa using b.isLt

theorem append_bytes16 (u : BitVec 16) : byteOf u 1 ++ byteOf u 0 = u := by
  apply BitVec.eq_of_toNat_eq
  have := u.isLt
  simp only [toNat_append_byte, toNat_byteOf]
  omega

theorem append_bytes24 (u : BitVec 24) : byteOf u 2 ++ byteOf u 1 ++ byteOf u 0 = u := by
  apply BitVec.eq_of_toNat_eq
  have := u.isLt
  simp only [toNat_append_byte, toNat_byteOf]
  omega

theorem append_bytes32 (u : BitVec 32) : byteOf u 3 ++ byteOf u 2 ++ byteOf u 1 ++ byteOf u 0 = u := by
  apply BitVec.eq_of_toNat_eq
  have := u.isLt
  simp only [toNat_append_byte, toNat_byteOf]
  omega

/-! ### The word of a byte list -/

theorem wordOfBytes_lt (bs : List Byte) : wordOfBytes bs < 2 ^ (8 * bs.length) := by
  induction bs with
  | nil => exact Nat.one_pos
  | cons b bs ih =>
    have := b.isLt
    rw [wordOfBytes, List.length_cons, Nat.mul_succ, Nat.pow_add]
    omega

theorem wordOfBytes_byte (bs : List Byte) (j : Nat) :
    wordOfBytes bs / 2 ^ (8 * j) % 256 = (bs.getD j 0).toNat := by
  induction bs generalizing j with
  | nil => simp [wordOfBytes]
  | cons b bs ih =>
    have := b.isLt
    cases j with
    | zero => simp only [wordOfBytes, List.getD_cons_zero]; omega
    | succ j =>
      have hb : (b.toNat + 256 * wordOfBytes bs) / 256 = wordOfBytes bs := by omega
      rw [wordOfBytes, List.getD_cons_succ, ← ih j, show 8 * (j + 1) = 8 + 8 * j by omega, Nat.pow_add,
        ← Nat.div_div_eq_div_mul, hb]

/-- A list of at most four bytes fits a word. -/
theorem toNat_ofNat_wordOfBytes {bs : List Byte} (h : bs.length ≤ 4) :
    (BitVec.ofNat 32 (wordOfBytes bs)).toNat = wordOfBytes bs := by
  have hpow : 2 ^ (8 * bs.length) ≤ 2 ^ 32 := Nat.pow_le_pow_right (by decide) (by omega)
  rw [BitVec.toNat_ofNat, Nat.mod_eq_of_lt ((wordOfBytes_lt bs).trans_le hpow)]

theorem byteOf_ofNat_wordOfBytes {bs : List Byte} (h : bs.length ≤ 4) (j : Nat) :
    byteOf (BitVec.ofNat 32 (wordOfBytes bs)) j = bs.getD j 0 := by
  apply BitVec.eq_of_toNat_eq
  rw [toNat_byteOf, toNat_ofNat_wordOfBytes h, wordOfBytes_byte]

theorem toNat_append4 (b0 b1 b2 b3 : Byte) : (b3 ++ b2 ++ b1 ++ b0).toNat = wordOfBytes [b0, b1, b2, b3] := by
  simp [toNat_append_byte, wordOfBytes]

/-- Four bytes, the first the lowest, are a word. -/
theorem ofNat_wordOfBytes_four (b0 b1 b2 b3 : Byte) :
    BitVec.ofNat 32 (wordOfBytes [b0, b1, b2, b3]) = b3 ++ b2 ++ b1 ++ b0 := by
  apply BitVec.eq_of_toNat_eq
  rw [toNat_ofNat_wordOfBytes (by simp), toNat_append4]

/-! ### Signed and unsigned readings (R8) -/

/-- The signed value of a word is `sext` of its number. -/
theorem toInt_eq_sext {n : Nat} (x : BitVec (n + 1)) : x.toInt = sext (n + 1) x.toNat := by
  have hcond : 2 * x.toNat < 2 ^ (n + 1) ↔ x.toNat < 2 ^ n := by rw [Nat.pow_succ']; omega
  rw [BitVec.toInt_eq_toNat_cond, sext, Nat.add_sub_cancel, if_congr hcond rfl rfl]
  push_cast
  rfl

/-- The word of an integer holds `u_N` of it. -/
theorem toNat_ofInt_eq_uN (n : Nat) (v : Int) : (BitVec.ofInt n v).toNat = uN n v := by
  simp [BitVec.toNat_ofInt, uN]

theorem uN_lt (n : Nat) (v : Int) : uN n v < 2 ^ n := by
  rw [← toNat_ofInt_eq_uN]
  exact BitVec.isLt _

theorem uN_mod {m n : Nat} (h : m ≤ n) (v : Int) : uN n v % 2 ^ m = uN m v := by
  have hpos : ∀ k : Nat, (2 : Int) ^ k ≠ 0 := fun k => by positivity
  zify
  rw [uN, uN, Int.toNat_of_nonneg (Int.emod_nonneg _ (hpos n)), Int.toNat_of_nonneg (Int.emod_nonneg _ (hpos m)),
    Int.emod_emod_of_dvd _ (pow_dvd_pow 2 h)]

/-- The low bytes of an integer's word do not depend on how wide the word is. -/
theorem byteOf_ofInt_of_le {m n j : Nat} (v : Int) (hj : 8 * j + 8 ≤ m) (hm : m ≤ n) :
    byteOf (BitVec.ofInt n v) j = byteOf (BitVec.ofInt m v) j := by
  have hlow : BitVec.ofInt m v = (BitVec.ofInt n v).setWidth m := by
    apply BitVec.eq_of_toNat_eq
    rw [BitVec.toNat_setWidth, toNat_ofInt_eq_uN, toNat_ofInt_eq_uN, uN_mod hm]
  rw [hlow, byteOf, byteOf, BitVec.extractLsb'_setWidth_of_le hj]

end Sys2Proof.Machine
end

section
/-! The linear integer formats and the float formats (40_format_registry.md): what a decode gives, what an encode gives,
and that each undoes the other. -/

namespace Sys2Proof.Machine

/-! ### Values within a format's range -/

theorem inRange_decInt (f : IntFmt) (bs : List Byte) : InRange f (decInt f bs) := decInt_range f bs

theorem inRange_satInt (f : IntFmt) (v : Int) : InRange f (satInt f v) :=
  clamp_mem (by cases f <;> decide) v

/-- A value of the format's range is the signed reading of its word. -/
theorem toInt_ofInt_of_inRange {f : IntFmt} {v : Int} (h : InRange f v) :
    (BitVec.ofInt (nativeBits f) v).toInt = v := by
  have hpos : 0 < nativeBits f := by cases f <;> decide
  obtain ⟨hlo, hhi⟩ := h
  exact BitVec.toInt_ofInt_eq_self hpos hlo (Int.lt_of_le_sub_one hhi)

/-! ### The padding byte of the two `S24_32` formats (R125 to R128) -/

/-- The sign extension of a 24-bit value to a fourth byte. -/
def padByte (v : Int) : Byte := if v < 0 then 0xFF else 0x00

@[simp] theorem toNat_padByte (v : Int) : (padByte v).toNat = if v < 0 then 255 else 0 := by
  unfold padByte
  split <;> rfl

theorem byteOf_ofInt_pad {v : Int} (h : InRange .s24le v) : byteOf (BitVec.ofInt 32 v) 3 = padByte v := by
  apply BitVec.eq_of_toNat_eq
  simp only [InRange, intLo, intHi, nativeBits] at h
  rw [toNat_byteOf, toNat_ofInt_eq_uN, uN, toNat_padByte]
  split <;> omega

theorem encInt_s24in32le {v : Int} (h : InRange .s24le v) :
    encInt .s24in32le v = encInt .s24le v ++ [padByte v] := by
  have hlow (j : Nat) (hj : 8 * j + 8 ≤ 24) := byteOf_ofInt_of_le (n := 32) v hj (by decide)
  simp [encInt, hlow, byteOf_ofInt_pad h]

theorem encInt_s24in32be {v : Int} (h : InRange .s24le v) :
    encInt .s24in32be v = padByte v :: encInt .s24be v := by
  have hlow (j : Nat) (hj : 8 * j + 8 ≤ 24) := byteOf_ofInt_of_le (n := 32) v hj (by decide)
  simp [encInt, hlow, byteOf_ofInt_pad h]

/-! ### `U8` (R113, R114) -/

theorem toNat_encInt_u8 {v : Int} (h : InRange .u8 v) :
    (encInt .u8 v).map BitVec.toNat = [(v / 256 + 128).toNat] := by
  simp only [InRange, intLo, intHi, nativeBits] at h
  have hbyte : uN 8 (asr v 8 + 128) = (v / 256 + 128).toNat := by
    simp only [uN, asr]
    omega
  simp only [encInt, List.map_cons, List.map_nil, toNat_ofInt_eq_uN, hbyte]

/-- `U8` keeps a value down to its multiple of 256. -/
theorem decInt_encInt_u8 {v : Int} (h : InRange .u8 v) : decInt .u8 (encInt .u8 v) = v / 256 * 256 := by
  have hbyte := toNat_encInt_u8 h
  simp only [InRange, intLo, intHi, nativeBits] at h
  simp only [encInt, List.map_cons, List.map_nil, List.cons.injEq, and_true] at hbyte
  simp only [encInt, decInt, byteAt, List.getD_cons_zero, hbyte]
  omega

theorem encInt_decInt_u8 (b : Byte) : encInt .u8 (decInt .u8 [b]) = [b] := by
  have hvalue : asr (((b.toNat : Int) - 128) * 256) 8 + 128 = b.toNat := by
    simp only [asr]
    omega
  simp [encInt, decInt, byteAt, hvalue]

/-! ### The linear formats -/

/-- A linear format decodes what it encodes, over its whole range. -/
theorem decInt_encInt_of_linear {f : IntFmt} (hf : LinearFmt f) {v : Int} (hv : InRange f v) :
    decInt f (encInt f v) = v := by
  have hword := toInt_ofInt_of_inRange hv
  obtain ⟨hu8, halaw, hulaw⟩ := hf
  cases f with
  | u8 => exact absurd rfl hu8
  | alaw => exact absurd rfl halaw
  | ulaw => exact absurd rfl hulaw
  | s16le | s16be => exact (congrArg BitVec.toInt (append_bytes16 _)).trans hword
  | s24le | s24be => exact (congrArg BitVec.toInt (append_bytes24 _)).trans hword
  | s32le | s32be => exact (congrArg BitVec.toInt (append_bytes32 _)).trans hword
  | s24in32le =>
    rw [encInt_s24in32le hv]
    exact (congrArg BitVec.toInt (append_bytes24 _)).trans hword
  | s24in32be =>
    rw [encInt_s24in32be hv]
    exact (congrArg BitVec.toInt (append_bytes24 _)).trans hword

/-- A linear format without a padding byte encodes what it decodes. -/
theorem encInt_decInt_of_linear {f : IntFmt} (hf : LinearFmt f) (hle : f ≠ .s24in32le) (hbe : f ≠ .s24in32be)
    {bs : List Byte} (h : bs.length = intWidth f) : encInt f (decInt f bs) = bs := by
  obtain ⟨hu8, halaw, hulaw⟩ := hf
  cases f with
  | u8 => exact absurd rfl hu8
  | alaw => exact absurd rfl halaw
  | ulaw => exact absurd rfl hulaw
  | s24in32le => exact absurd rfl hle
  | s24in32be => exact absurd rfl hbe
  | s16le | s16be =>
    obtain ⟨b0, b1, rfl⟩ := List.length_eq_two.mp h
    simp [encInt, decInt, byteAt, BitVec.ofInt_toInt]
  | s24le | s24be =>
    obtain ⟨b0, b1, b2, rfl⟩ := List.length_eq_three.mp h
    simp [encInt, decInt, byteAt, BitVec.ofInt_toInt]
  | s32le | s32be =>
    obtain ⟨b0, b1, b2, b3, rfl⟩ := List.length_eq_four.mp h
    simp [encInt, decInt, byteAt, BitVec.ofInt_toInt]

/-- The padding byte of a decoded 24-bit sample extends the sign bit of its top byte. -/
theorem padByte_append (b0 b1 b2 : Byte) : padByte (b2 ++ b1 ++ b0).toInt = if b2.msb then 0xFF else 0x00 := by
  have hsign : b2.msb = decide ((b2 ++ b1 ++ b0).toInt < 0) := by
    rw [← BitVec.msb_eq_toInt, BitVec.msb_append, if_neg (by decide), BitVec.msb_append, if_neg (by decide)]
  simp [padByte, hsign]

/-! ### The float formats -/

theorem decFlt_encFlt (f : FltFmt) (u : Word) : decFlt f (encFlt f u) = u := by
  cases f <;> exact append_bytes32 u

theorem encFlt_decFlt (f : FltFmt) {bs : List Byte} (h : bs.length = 4) : encFlt f (decFlt f bs) = bs := by
  obtain ⟨b0, b1, b2, b3, rfl⟩ := List.length_eq_four.mp h
  cases f <;> simp [encFlt, decFlt, byteAt]

end Sys2Proof.Machine
end

section
/-! The companded formats (41_g711_companding.md): the segment a search finds, the byte each encode gives, the tables
and the byte round trip. -/

namespace Sys2Proof.Machine

/-! ### Segments (R160) -/

theorem search_le_length (p : Nat) (T : List Nat) : search p T ≤ T.length := by
  induction T with
  | nil => exact Nat.le_refl 0
  | cons t ts ih =>
    unfold search
    split
    · exact Nat.zero_le _
    · exact Nat.succ_le_succ ih

/-- `search` finds the index below which every entry is too small and at which the entry, if there is one, is not. -/
theorem search_eq {p s : Nat} {T : List Nat} (hbelow : ∀ r < s, T.getD r 0 < p)
    (hat : s = T.length ∨ s < T.length ∧ p ≤ T.getD s 0) : search p T = s := by
  induction T generalizing s with
  | nil => exact (hat.resolve_right fun h => absurd h.1 (Nat.not_lt_zero s)).symm
  | cons t ts ih =>
    cases s with
    | zero =>
      have ht : p ≤ t := by simpa using hat
      simp [search, ht]
    | succ s =>
      have ht : t < p := hbelow 0 (Nat.succ_pos s)
      have hrest : search p ts = s :=
        ih (fun r hr => hbelow (r + 1) (Nat.succ_lt_succ hr)) (by simpa using hat)
      simp [search, ht, hrest]

theorem search_eq_of_isSegment {p s : Nat} {T : List Nat} (hT : T.length = 8) (h : IsSegment T p s) :
    search p T = s := search_eq h.1 (hT ▸ h.2)

/-! ### The byte of a segment and a position, under a mask -/

/-- The byte a companding procedure gives for a segment and a position in it: code 7F for a magnitude beyond the last
segment, and the mask of the sign on top. -/
theorem toNat_segmentByte {s pos : Nat} (hs : s ≤ 8) (hpos : pos < 16) (mask : Byte) :
    (if 8 ≤ s then 0x7F#8 ^^^ mask else BitVec.ofNat 8 (16 * s + pos) ^^^ mask).toNat =
      (if s = 8 then 0x7F else 16 * s + pos) ^^^ mask.toNat := by
  by_cases h : s = 8
  · simp [h]
  · have hlt : 16 * s + pos < 256 := by omega
    rw [if_neg (by omega), if_neg h, BitVec.toNat_xor, BitVec.toNat_ofNat, Nat.mod_eq_of_lt hlt]

/-- `enc_ULAW` by magnitude, segment and sign (R162). -/
theorem toNat_encUlaw {v : Int} {p s : Nat} (hp : p = min (v / 4).natAbs 8159 + 33) (hs : search p segU = s) :
    (encUlaw v).toNat =
      (if s = 8 then 0x7F else 16 * s + p / 2 ^ (s + 1) % 16) ^^^ (if v / 4 < 0 then 0x7F else 0xFF) := by
  have hle : s ≤ 8 := hs ▸ search_le_length p segU
  have hasr : asr v 2 = v / 4 := rfl
  have hmag : (if asr v 2 < 0 then (-asr v 2).toNat else (asr v 2).toNat) = (v / 4).natAbs := by
    rw [hasr]
    split <;> omega
  have hclip : (if uclip < (v / 4).natAbs then uclip else (v / 4).natAbs) + bias / 4 = p := by
    rw [hp, min_def, show bias / 4 = 33 from rfl, show uclip = 8159 from rfl]
    split <;> split <;> omega
  have hmask : (if asr v 2 < 0 then 0x7F#8 else 0xFF#8).toNat = if v / 4 < 0 then 0x7F else 0xFF := by
    rw [hasr]
    split <;> rfl
  rw [← hmask, ← toNat_segmentByte hle (Nat.mod_lt _ (by decide))]
  simp only [encUlaw, hmag, hclip, hs]

/-- `enc_ALAW` by magnitude, segment and sign (R164). -/
theorem toNat_encAlaw {v : Int} {p s : Nat} (hp : p = if 0 ≤ v / 8 then (v / 8).toNat else (-(v / 8) - 1).toNat)
    (hs : search p segA = s) :
    (encAlaw v).toNat =
      (if s = 8 then 0x7F else 16 * s + (if s < 2 then p / 2 % 16 else p / 2 ^ s % 16)) ^^^
        (if 0 ≤ v / 8 then 0xD5 else 0x55) := by
  have hle : s ≤ 8 := hs ▸ search_le_length p segA
  have hasr : asr v 3 = v / 8 := rfl
  have hmask : (if 0 ≤ asr v 3 then 0xD5#8 else 0x55#8).toNat = if 0 ≤ v / 8 then 0xD5 else 0x55 := by
    rw [hasr]
    split <;> rfl
  have hpos : (if s < 2 then p / 2 % 16 else p / 2 ^ s % 16) < 16 := by split <;> exact Nat.mod_lt _ (by decide)
  rw [← hmask, ← toNat_segmentByte hle hpos]
  simp only [encAlaw, hasr, ← hp, hs]

/-! ### All 256 codes -/

theorem decUlaw_eq_table (c : Byte) : some (decUlaw c) = ulawTable[c.toNat]? := by
  revert c
  decide +kernel

theorem decAlaw_eq_table (c : Byte) : some (decAlaw c) = alawTable[c.toNat]? := by
  revert c
  decide +kernel

/-- µ-law gives every code back but the negative zero (R137(b)). -/
theorem encUlaw_decUlaw (c : Byte) : encUlaw (decUlaw c) = if c = 0x7F then 0xFF else c := by
  revert c
  decide +kernel

theorem encAlaw_decAlaw (c : Byte) : encAlaw (decAlaw c) = c := by
  revert c
  decide +kernel

/-- Both zeros of µ-law decode to 0, so the exception costs no value. -/
theorem decUlaw_encUlaw_decUlaw (c : Byte) : decUlaw (encUlaw (decUlaw c)) = decUlaw c := by
  rw [encUlaw_decUlaw]
  split
  · rename_i hc
    rw [hc]
    rfl
  · rfl

end Sys2Proof.Machine
end

section
/-! The statements about the formats (40_format_registry.md R112 to R137). -/

namespace Sys2Proof.Machine

/-! ### Decodes over numbers -/

theorem decInt_s16le (b0 b1 : Byte) : decInt .s16le [b0, b1] = sext 16 (b0.toNat + b1.toNat * 2 ^ 8) := by
  refine (toInt_eq_sext _).trans (congrArg _ ?_)
  simp only [toNat_append_byte, byteAt, List.getD_cons_zero, List.getD_cons_succ]
  omega

theorem decInt_s24le (b0 b1 b2 : Byte) :
    decInt .s24le [b0, b1, b2] = sext 24 (b0.toNat + b1.toNat * 2 ^ 8 + b2.toNat * 2 ^ 16) := by
  refine (toInt_eq_sext _).trans (congrArg _ ?_)
  simp only [toNat_append_byte, byteAt, List.getD_cons_zero, List.getD_cons_succ]
  omega

theorem decInt_s32le (b0 b1 b2 b3 : Byte) :
    decInt .s32le [b0, b1, b2, b3] =
      sext 32 (b0.toNat + b1.toNat * 2 ^ 8 + b2.toNat * 2 ^ 16 + b3.toNat * 2 ^ 24) := by
  refine (toInt_eq_sext _).trans (congrArg _ ?_)
  simp only [toNat_append_byte, byteAt, List.getD_cons_zero, List.getD_cons_succ]
  omega

/-- Settles O9: a big-endian format decodes its bytes as the little-endian one decodes them in reverse, a padded one as
the unpadded one decodes the three bytes of the value. -/
theorem integerDecodeFormulas : Obligations.IntegerDecodeFormulas := fun b0 b1 b2 b3 =>
  ⟨rfl,
    decInt_s16le b0 b1, (decInt_s16le b1 b0).trans (congrArg (sext 16) (by omega)),
    decInt_s24le b0 b1 b2, (decInt_s24le b2 b1 b0).trans (congrArg (sext 24) (by omega)),
    decInt_s24le b0 b1 b2, (decInt_s24le b3 b2 b1).trans (congrArg (sext 24) (by omega)),
    decInt_s32le b0 b1 b2 b3, (decInt_s32le b3 b2 b1 b0).trans (congrArg (sext 32) (by omega)),
    decUlaw_eq_table b0, decAlaw_eq_table b0⟩

/-! ### Encodes over numbers -/

theorem toNat_encInt_s16le (v : Int) : (encInt .s16le v).map BitVec.toNat = [uN 16 v % 256, uN 16 v / 2 ^ 8] := by
  have hlt := uN_lt 16 v
  simp only [encInt, List.map_cons, List.map_nil, toNat_byteOf, toNat_ofInt_eq_uN, List.cons.injEq, and_true]
  omega

theorem toNat_encInt_s24le (v : Int) :
    (encInt .s24le v).map BitVec.toNat = [uN 24 v % 256, uN 24 v / 2 ^ 8 % 256, uN 24 v / 2 ^ 16] := by
  have hlt := uN_lt 24 v
  simp only [encInt, List.map_cons, List.map_nil, toNat_byteOf, toNat_ofInt_eq_uN, List.cons.injEq, and_true, true_and]
  omega

theorem toNat_encInt_s32le (v : Int) :
    (encInt .s32le v).map BitVec.toNat =
      [uN 32 v % 256, uN 32 v / 2 ^ 8 % 256, uN 32 v / 2 ^ 16 % 256, uN 32 v / 2 ^ 24] := by
  have hlt := uN_lt 32 v
  simp only [encInt, List.map_cons, List.map_nil, toNat_byteOf, toNat_ofInt_eq_uN, List.cons.injEq, and_true, true_and]
  omega

/-- Bytes in reverse order are the same numbers in reverse order. -/
theorem map_toNat_reverse {bs cs : List Byte} {ns : List Nat} (hr : cs = bs.reverse)
    (h : bs.map BitVec.toNat = ns) : cs.map BitVec.toNat = ns.reverse := by
  rw [hr, List.map_reverse, h]

/-- Settles O10: a big-endian format encodes to the little-endian bytes in reverse, a padded one adds the padding byte,
and a companded one finds the segment that the statement names. -/
theorem integerEncodeFormulas : Obligations.IntegerEncodeFormulas := by
  intro v
  refine ⟨toNat_encInt_u8, fun _ => ⟨toNat_encInt_s16le v, map_toNat_reverse rfl (toNat_encInt_s16le v)⟩,
    fun h => ?_, fun _ => ⟨toNat_encInt_s32le v, map_toNat_reverse rfl (toNat_encInt_s32le v)⟩, ?_, ?_⟩
  · have hle := toNat_encInt_s24le v
    have hbe : (encInt .s24be v).map BitVec.toNat = _ := map_toNat_reverse rfl hle
    refine ⟨hle, hbe, ?_, ?_⟩
    · rw [encInt_s24in32le h, List.map_append, hle, List.map_singleton, toNat_padByte]
      rfl
    · rw [encInt_s24in32be h, List.map_cons, hbe, toNat_padByte]
      rfl
  · intro _ s p mask hs
    exact congrArg (fun n => [n]) (toNat_encUlaw rfl (search_eq_of_isSegment rfl hs))
  · intro _ s p mask hs
    exact congrArg (fun n => [n]) (toNat_encAlaw rfl (search_eq_of_isSegment rfl hs))

/-! ### Float patterns -/

/-- Settles O11: the four bytes are those of the pattern, in the order of the format. -/
theorem floatCodecIsExact : Obligations.FloatCodecIsExact := by
  refine ⟨fun b0 b1 b2 b3 => ⟨?_, ?_, encFlt_decFlt .float32le rfl, encFlt_decFlt .float32be rfl⟩,
    decFlt_encFlt⟩
  · refine (toNat_append4 b0 b1 b2 b3).trans ?_
    simp only [wordOfBytes]
    omega
  · refine (toNat_append4 b3 b2 b1 b0).trans ?_
    simp only [wordOfBytes]
    omega

/-! ### Round trips -/

/-- Settles O12: a decoded sample lies in its format's range; a companded one is a byte that encoding gives back, but
for the negative zero of µ-law. -/
theorem valueRoundTrip : Obligations.ValueRoundTrip := by
  refine ⟨fun f bs hlen => ?_, fun f v hf hv => decInt_encInt_of_linear hf hv, fun n h1 h2 => ?_, decFlt_encFlt⟩
  · cases f with
    | u8 =>
      obtain ⟨b, rfl⟩ := List.length_eq_one_iff.mp hlen
      rw [encInt_decInt_u8]
    | alaw => exact congrArg decAlaw (encAlaw_decAlaw _)
    | ulaw => exact decUlaw_encUlaw_decUlaw _
    | _ => exact decInt_encInt_of_linear (by simp [LinearFmt]) (inRange_decInt _ bs)
  · have hv : InRange .u8 (256 * n) := by
      simp only [InRange, intLo, intHi, nativeBits]
      omega
    rw [decInt_encInt_u8 hv]
    omega

/-- Settles O13: the padding byte and the negative zero of µ-law are all that a decode forgets. -/
theorem byteRoundTrip : Obligations.ByteRoundTrip := by
  refine ⟨fun f bs hlen hulaw hle hbe => ?_, fun b => ?_, fun b0 b1 b2 b3 => ⟨?_, ?_⟩, encFlt_decFlt⟩
  · cases f with
    | u8 =>
      obtain ⟨b, rfl⟩ := List.length_eq_one_iff.mp hlen
      exact encInt_decInt_u8 b
    | alaw =>
      obtain ⟨b, rfl⟩ := List.length_eq_one_iff.mp hlen
      exact congrArg (fun c => [c]) (encAlaw_decAlaw b)
    | _ => exact encInt_decInt_of_linear ⟨by decide, by decide, hulaw⟩ hle hbe hlen
  · have hcode : encInt .ulaw (decInt .ulaw [b]) = [if b = 0x7F then 0xFF else b] :=
      congrArg (fun c => [c]) (encUlaw_decUlaw b)
    rw [hcode]
    split <;> rfl
  · have hvalue : encInt .s24le (decInt .s24le [b0, b1, b2]) = [b0, b1, b2] :=
      encInt_decInt_of_linear (by simp [LinearFmt]) (by decide) (by decide) rfl
    refine (encInt_s24in32le (inRange_decInt .s24le [b0, b1, b2])).trans ?_
    rw [hvalue]
    exact congrArg (fun pad => [b0, b1, b2, pad]) (padByte_append b0 b1 b2)
  · have hvalue : encInt .s24be (decInt .s24be [b1, b2, b3]) = [b1, b2, b3] :=
      encInt_decInt_of_linear (by simp [LinearFmt]) (by decide) (by decide) rfl
    refine (encInt_s24in32be (inRange_decInt .s24be [b1, b2, b3])).trans ?_
    rw [hvalue]
    exact congrArg (fun pad => [pad, b1, b2, b3]) (padByte_append b3 b2 b1)

/-! ### Saturation and the zero codes -/

/-- Settles O14: what saturation leaves lies in the format's range, where decoding undoes encoding. -/
theorem saturatedEncodeClips : Obligations.SaturatedEncodeClips := by
  refine ⟨fun f v hf => decInt_encInt_of_linear hf (inRange_satInt f v),
    fun v => decInt_encInt_u8 (inRange_satInt .u8 v), encSat_length, ?_, ?_, ?_⟩
  · rintro f (rfl | rfl | rfl | rfl | rfl) <;> exact ⟨rfl, rfl⟩
  · rintro f (rfl | rfl | rfl | rfl) <;> exact ⟨rfl, rfl⟩
  · rintro f (rfl | rfl) <;> exact ⟨rfl, rfl⟩

/-- 0 is in the range of every integer format. -/
theorem inRange_zero (f : IntFmt) : InRange f 0 := by
  cases f <;> exact ⟨by decide, by decide⟩

/-- Settles O15: a linear zero code is read off, and decodes to 0 as every value of the range does to itself. -/
theorem zeroCodes : Obligations.ZeroCodes := by
  refine ⟨rfl, by decide, by decide, fun f hf => ?_, fun f => ?_, fun f hf => ?_, by decide,
    fun f => decFlt_encFlt f 0⟩
  · obtain ⟨hu8, halaw, hulaw⟩ := hf
    cases f with
    | u8 => exact absurd rfl hu8
    | alaw => exact absurd rfl halaw
    | ulaw => exact absurd rfl hulaw
    | _ => rfl
  · cases f <;> rfl
  · cases f with
    | alaw => exact absurd rfl hf
    | u8 => rfl
    | ulaw => decide
    | _ => exact decInt_encInt_of_linear (by simp [LinearFmt]) (inRange_zero _)

end Sys2Proof.Machine
end

section
/-! DEC and ENC (40_format_registry.md R140, R141): one lemma for what each does under a format, one for a tag that is
none. -/

namespace Sys2Proof.Machine

/-! ### The two commands in IDLE -/

/-- A command whose body succeeds completes; what its body leaves in IDLE gets `DONE` only. -/
theorem exec_of_body_ok {i : Instr} {s t : State} (hs : s.phase = .idle) (ht : t.phase = .idle)
    (hb : bodyOf i s = .ok t) : exec i s = .next { t with done := true } := by
  rw [exec_eq_issue, issue_idle_ok hs hb, complete_of_idle ht]

theorem exec_of_body_error {i : Instr} {s : State} {v : Violation} (hs : s.phase = .idle)
    (hb : bodyOf i s = .error v) : exec i s = .next (raise (encode i) v s) := by
  rw [exec_eq_issue, issue_idle_error hs hb]

theorem exec_dec_of_format {s : State} {f : Fmt} (hs : s.phase = .idle) (hf : formatOf s.spec = some f) :
    exec .dec s = .next { s with canon := decodedCanon f s.smp, done := true } :=
  exec_of_body_ok (t := { s with canon := decodedCanon f s.smp }) hs hs (by simp [bodyOf, decBody, hf])

theorem exec_enc_of_format {s : State} {f : Fmt} (hs : s.phase = .idle) (hf : formatOf s.spec = some f) :
    exec .enc s = .next { s with smp := encodedSmp f s.canon, done := true } :=
  exec_of_body_ok (t := { s with smp := encodedSmp f s.canon }) hs hs (by simp [bodyOf, encBody, hf])

theorem exec_dec_of_badFormat {s : State} (hs : s.phase = .idle) (hf : formatOf s.spec = none) :
    exec .dec s = .next (faulted s 2 ErrInfo.zero 1) :=
  exec_of_body_error (v := plainErr .badFormat) hs (by simp [bodyOf, decBody, hf])

theorem exec_enc_of_badFormat {s : State} (hs : s.phase = .idle) (hf : formatOf s.spec = none) :
    exec .enc s = .next (faulted s 2 ErrInfo.zero 2) :=
  exec_of_body_error (v := plainErr .badFormat) hs (by simp [bodyOf, encBody, hf])

/-! ### The words they leave -/

theorem decodedCanon_float32le (smp : Word) : decodedCanon (.flt .float32le) smp = smp := append_bytes32 smp

/-- A float pattern in `SMP` is `CANON` in the byte order of the format. -/
theorem encodedSmp_float32le (canon : Word) : encodedSmp (.flt .float32le) canon = canon :=
  (ofNat_wordOfBytes_four _ _ _ _).trans (append_bytes32 canon)

theorem encodedSmp_float32be (canon : Word) : encodedSmp (.flt .float32be) canon =
    byteOf canon 0 ++ byteOf canon 1 ++ byteOf canon 2 ++ byteOf canon 3 := ofNat_wordOfBytes_four _ _ _ _

theorem encSat_length_le (f : IntFmt) (v : Int) : (encSat f v).length ≤ 4 := by
  rw [encSat_length]
  exact fmtWidth_le (.int f)

theorem byteOf_encodedSmp (f : IntFmt) (canon : Word) (j : Nat) :
    byteOf (encodedSmp (.int f) canon) j = (encSat f canon.toInt).getD j 0 :=
  byteOf_ofNat_wordOfBytes (encSat_length_le f _) j

/-- The bytes of `SMP` above an integer sample are 0. -/
theorem encodedSmp_lt (f : IntFmt) (canon : Word) : (encodedSmp (.int f) canon).toNat < 2 ^ (8 * intWidth f) := by
  have hlt := wordOfBytes_lt (encSat f canon.toInt)
  rw [encSat_length] at hlt
  exact (toNat_ofNat_wordOfBytes (encSat_length_le f _)).trans_lt hlt

/-- Settles O7: the command writes `decodedCanon`, which moves the four bytes of a float pattern only. -/
theorem decWritesCanon : Obligations.DecWritesCanon := by
  intro s hs
  refine ⟨fun h => exec_dec_of_badFormat hs ((formatOf_eq_none_iff _).mpr h), fun f hf => exec_dec_of_format hs hf,
    fun hf => ?_, fun hf => exec_dec_of_format hs hf⟩
  rw [exec_dec_of_format hs hf, decodedCanon_float32le]

/-- Settles O8: byte `j` of `encodedSmp` is byte `j` of the saturated encoding. -/
theorem encWritesSmp : Obligations.EncWritesSmp := by
  intro s hs
  refine ⟨fun h => exec_enc_of_badFormat hs ((formatOf_eq_none_iff _).mpr h), fun f hf => ?_, fun hf => ?_,
    fun hf => ?_⟩
  · exact ⟨encodedSmp (.int f) s.canon, exec_enc_of_format hs hf, fun j _ => byteOf_encodedSmp f s.canon j,
      encodedSmp_lt f s.canon⟩
  · rw [exec_enc_of_format hs hf, encodedSmp_float32le]
  · rw [exec_enc_of_format hs hf, encodedSmp_float32be]
    rfl

end Sys2Proof.Machine
end

section
/-! The properties of the companding rules (41_g711_companding.md R166). Both laws are one quantizer of a magnitude `p`:
it is cut into cells whose width doubles from segment to segment, and decoding gives the midpoint of the cell that
encoding found, scaled and with the sign. Monotonicity and the error bounds are facts about that quantizer. -/

namespace Sys2Proof.Machine

/-! ### The quantizer of both laws -/

/-- The cell of `p` is `2 ^ (cellExp p + 1)` wide: 2 below 64, then twice as wide from each power of two on. -/
def cellExp (p : Nat) : Nat := Nat.log 2 (p / 32)

/-- The midpoint of the cell of `p`. -/
def cellMid (p : Nat) : Nat := 2 ^ cellExp p * (2 * (p / 2 ^ (cellExp p + 1)) + 1)

theorem cellExp_mono {p q : Nat} (h : p ≤ q) : cellExp p ≤ cellExp q :=
  Nat.log_mono_right (Nat.div_le_div_right h)

/-- A cell's place among all cells of its width lies below 32. -/
theorem cell_lt (p : Nat) : p / 2 ^ (cellExp p + 1) < 32 := by
  have h : p / 32 < 2 ^ (cellExp p + 1) := Nat.lt_pow_succ_log_self (by decide) _
  rw [Nat.div_lt_iff_lt_mul (by decide)] at h
  exact Nat.div_lt_of_lt_mul h

/-- But for the first 16 cells it is not below 16, so that the four low bits of a code tell it. -/
theorem le_cell {p : Nat} (h : 32 ≤ p) : 16 ≤ p / 2 ^ (cellExp p + 1) := by
  have hle : 2 ^ cellExp p ≤ p / 32 := Nat.pow_log_le_self 2 (by omega)
  rw [Nat.le_div_iff_mul_le (by decide)] at hle
  rw [Nat.le_div_iff_mul_le (by positivity), pow_succ]
  omega

theorem cell_mod {p : Nat} (h : 32 ≤ p) : p / 2 ^ (cellExp p + 1) = 16 + p / 2 ^ (cellExp p + 1) % 16 := by
  have hlt := cell_lt p
  have hle := le_cell h
  omega

/-- A magnitude is at most half a cell's width from its midpoint. -/
theorem cellMid_near (p : Nat) : cellMid p ≤ p + 2 ^ cellExp p ∧ p < cellMid p + 2 ^ cellExp p := by
  have hdiv := Nat.div_add_mod p (2 ^ (cellExp p + 1))
  have hmod := Nat.mod_lt p (show 0 < 2 ^ (cellExp p + 1) by positivity)
  have hmid : cellMid p = 2 ^ (cellExp p + 1) * (p / 2 ^ (cellExp p + 1)) + 2 ^ cellExp p := by
    rw [cellMid]
    ring
  rw [pow_succ] at hmod
  rw [pow_succ] at hdiv hmid
  omega

/-- Within a width the cells are in order, and a wider cell starts at or above every narrower one. -/
theorem cellMid_mono {p q : Nat} (h : p ≤ q) : cellMid p ≤ cellMid q := by
  rcases (cellExp_mono h).eq_or_lt with he | he
  · have hcell : p / 2 ^ (cellExp q + 1) ≤ q / 2 ^ (cellExp q + 1) := Nat.div_le_div_right h
    rw [cellMid, cellMid, he]
    exact Nat.mul_le_mul_left _ (by omega)
  · have hq : 32 ≤ q := by
      have hpos : 0 < cellExp q := by omega
      have hge := (Nat.log_pos_iff.mp hpos).1
      omega
    have hlt := cell_lt p
    have hle := le_cell hq
    calc cellMid p ≤ 2 ^ cellExp p * 64 := Nat.mul_le_mul_left _ (by omega)
      _ = 2 ^ (cellExp p + 1) * 32 := by ring
      _ ≤ 2 ^ cellExp q * 32 := Nat.mul_le_mul_right _ (Nat.pow_le_pow_right (by decide) he)
      _ ≤ cellMid q := Nat.mul_le_mul_left _ (by omega)

/-! ### Segments are logarithms -/

/-- In a table of the powers of two from `2 * b` on, less 1, the search finds the logarithm. -/
theorem search_eq_log {p b : Nat} {T : List Nat} (hlen : T.length = 8)
    (hT : ∀ r < 8, T.getD r 0 = 2 ^ (r + 1) * b - 1) (hb : 0 < b) (hp : p < 2 ^ 8 * b) :
    search p T = Nat.log 2 (p / b) := by
  have hlog : Nat.log 2 (p / b) < 8 :=
    Nat.log_lt_of_lt_pow' (by decide) ((Nat.div_lt_iff_lt_mul hb).mpr hp)
  refine search_eq (fun r hr => ?_) (.inr ⟨hlen ▸ hlog, ?_⟩)
  · have hne : p / b ≠ 0 := fun h0 => by simp [h0] at hr
    have hpow : 2 ^ (r + 1) ≤ p / b := Nat.pow_le_of_le_log hne hr
    have hle : 2 ^ (r + 1) * b ≤ p := (Nat.le_div_iff_mul_le hb).mp hpow
    have hpos : 0 < 2 ^ (r + 1) * b := by positivity
    rw [hT r (by omega)]
    omega
  · have hlt : p < 2 ^ (Nat.log 2 (p / b) + 1) * b :=
      (Nat.div_lt_iff_lt_mul hb).mp (Nat.lt_pow_succ_log_self (by decide) _)
    rw [hT _ hlog]
    omega

theorem search_segU {p : Nat} (h : p < 8192) : search p segU = cellExp p :=
  search_eq_log rfl (by decide) (by decide) h

/-- The A-law has two segments with cells of width 2. -/
theorem search_segA {p : Nat} (h : p < 4096) :
    search p segA = if p < 32 then 0 else cellExp p + 1 := by
  rw [search_eq_log (b := 16) rfl (by decide) (by decide) h]
  split
  · exact Nat.log_eq_zero_iff.mpr (.inl (by omega))
  · rw [Nat.log_of_one_lt_of_le (by decide) (by omega), Nat.div_div_eq_div_mul, cellExp]

/-! ### Decoding a segment, a position in it and a sign -/

/-- On a code of seven bits, exclusive or with the sign bit adds it. -/
theorem xor_signBit {x : Nat} (hx : x < 128) : x ^^^ 128 = x + 128 := by
  have hall : ∀ y < 128, y ^^^ 128 = y + 128 := by decide
  exact hall x hx

/-- The fields a decode reads from a code under the mask of an encode. The decode's own mask `k` takes all of that mask
away but the sign bit. -/
theorem maskedCode_fields {c k : Byte} {s m mask : Nat} (hs : s < 8) (hm : m < 16) {sign : Prop} [Decidable sign]
    (hc : c.toNat = (16 * s + m) ^^^ mask) (hmask : mask ^^^ k.toNat = if sign then 128 else 0) :
    (c ^^^ k).toNat % 16 = m ∧ (c ^^^ k).toNat / 16 % 8 = s ∧ ((c ^^^ k).toNat / 128 = 1 ↔ sign) := by
  rw [BitVec.toNat_xor, hc, Nat.xor_assoc, hmask]
  by_cases h : sign
  · rw [if_pos h, xor_signBit (by omega)]
    exact ⟨by omega, by omega, iff_of_true (by omega) h⟩
  · rw [if_neg h, Nat.xor_zero]
    exact ⟨by omega, by omega, iff_of_false (by omega) h⟩

theorem decUlaw_of_code {c : Byte} {s m : Nat} (hs : s < 8) (hm : m < 16) (neg : Prop) [Decidable neg]
    (hc : c.toNat = (16 * s + m) ^^^ (if neg then 0x7F else 0xFF)) :
    decUlaw c = if neg then 132 - (((m * 8 + 132) * 2 ^ s : Nat) : Int)
      else (((m * 8 + 132) * 2 ^ s : Nat) : Int) - 132 := by
  obtain ⟨hpos, hseg, hsign⟩ := maskedCode_fields (k := 0xFF#8) (sign := neg) hs hm hc (by split <;> rfl)
  simp only [decUlaw, hpos, hseg, hsign]
  rfl

theorem decAlaw_of_code {c : Byte} {s m : Nat} (hs : s < 8) (hm : m < 16) (pos : Prop) [Decidable pos]
    (hc : c.toNat = (16 * s + m) ^^^ (if pos then 0xD5 else 0x55)) :
    decAlaw c =
      let t : Nat := if s = 0 then m * 16 + 8 else (m * 16 + 264) * 2 ^ (s - 1)
      if pos then (t : Int) else -(t : Int) := by
  obtain ⟨hpos, hseg, hsign⟩ := maskedCode_fields (k := 0x55#8) (sign := pos) hs hm hc (by split <;> rfl)
  have hone : (if s = 1 then m * 16 + 0x108 else (m * 16 + 0x108) * 2 ^ (s - 1)) = (m * 16 + 264) * 2 ^ (s - 1) := by
    split
    · rw [‹s = 1›, Nat.sub_self, pow_zero, mul_one]
    · rfl
  simp only [decAlaw, hpos, hseg, hsign, hone]

/-! ### Decoding what was encoded -/

/-- The biased and clipped magnitude that the µ-law quantizes. -/
def ulawMag (v : Int) : Nat := min ((v / 4).natAbs + 33) 8191

/-- The magnitude that the A-law quantizes. -/
def alawMag (v : Int) : Nat := if 0 ≤ v / 8 then (v / 8).toNat else (-(v / 8) - 1).toNat

theorem ulawMag_bounds (v : Int) : 33 ≤ ulawMag v ∧ ulawMag v ≤ 8191 := by
  unfold ulawMag
  omega

theorem alawMag_lt {v : Int} (h1 : -32768 ≤ v) (h2 : v ≤ 32767) : alawMag v < 4096 := by
  unfold alawMag
  split <;> omega

/-- The µ-law code by cell. A magnitude beyond the last segment gets the code of the last cell. -/
theorem toNat_encUlaw_cell (v : Int) :
    (encUlaw v).toNat =
      (16 * cellExp (ulawMag v) + ulawMag v / 2 ^ (cellExp (ulawMag v) + 1) % 16) ^^^
        (if v / 4 < 0 then 0x7F else 0xFF) := by
  by_cases hlast : (v / 4).natAbs < 8159
  · have hmag : ulawMag v = min (v / 4).natAbs 8159 + 33 := by unfold ulawMag; omega
    have hseg : search (ulawMag v) segU = cellExp (ulawMag v) := search_segU (by omega)
    have hexp : cellExp (ulawMag v) ≠ 8 := by
      have hle := cellExp_mono (ulawMag_bounds v).2
      have htop : cellExp 8191 = 7 := by decide
      omega
    rw [toNat_encUlaw hmag hseg, if_neg hexp]
  · have hmag : ulawMag v = 8191 := by unfold ulawMag; omega
    have hclip : 8192 = min (v / 4).natAbs 8159 + 33 := by omega
    rw [toNat_encUlaw hclip (by decide : search 8192 segU = 8), hmag]
    rfl

theorem decUlaw_encUlaw (v : Int) :
    decUlaw (encUlaw v) =
      if v / 4 < 0 then 132 - 4 * (cellMid (ulawMag v) : Int) else 4 * (cellMid (ulawMag v) : Int) - 132 := by
  obtain ⟨hlow, hhigh⟩ := ulawMag_bounds v
  have hexp : cellExp (ulawMag v) < 8 := (cellExp_mono hhigh).trans_lt (by decide)
  have hmid : (ulawMag v / 2 ^ (cellExp (ulawMag v) + 1) % 16 * 8 + 132) * 2 ^ cellExp (ulawMag v) =
      4 * cellMid (ulawMag v) := by
    rw [cellMid, cell_mod (by omega)]
    simp only [Nat.add_mod_left, Nat.mod_mod]
    ring
  rw [decUlaw_of_code hexp (Nat.mod_lt _ (by decide)) _ (toNat_encUlaw_cell v), hmid, Nat.cast_mul]
  rfl

theorem decAlaw_encAlaw {v : Int} (h1 : -32768 ≤ v) (h2 : v ≤ 32767) :
    decAlaw (encAlaw v) =
      if 0 ≤ v / 8 then 8 * (cellMid (alawMag v) : Int) else -(8 * (cellMid (alawMag v) : Int)) := by
  have hlt := alawMag_lt h1 h2
  have hexp : cellExp (alawMag v) ≤ 6 := cellExp_mono (Nat.le_of_lt_succ hlt)
  have hcode := toNat_encAlaw (p := alawMag v) rfl (search_segA hlt)
  by_cases hfirst : alawMag v < 32
  · have hzero : cellExp (alawMag v) = 0 := by
      rw [cellExp, Nat.div_eq_of_lt hfirst]
      rfl
    have hmid : alawMag v / 2 % 16 * 16 + 8 = 8 * cellMid (alawMag v) := by
      rw [cellMid, hzero]
      omega
    rw [if_pos hfirst] at hcode
    rw [decAlaw_of_code (by decide) (Nat.mod_lt _ (by decide)) _ hcode]
    simp [hmid]
  · have hmid : (alawMag v / 2 ^ (cellExp (alawMag v) + 1) % 16 * 16 + 264) * 2 ^ cellExp (alawMag v) =
        8 * cellMid (alawMag v) := by
      rw [cellMid, cell_mod (by omega)]
      simp only [Nat.add_mod_left, Nat.mod_mod]
      ring
    have hpos : (if cellExp (alawMag v) + 1 < 2 then alawMag v / 2 % 16
        else alawMag v / 2 ^ (cellExp (alawMag v) + 1) % 16) =
        alawMag v / 2 ^ (cellExp (alawMag v) + 1) % 16 := by
      split
      · rw [show cellExp (alawMag v) = 0 by omega, zero_add, pow_one]
      · rfl
    rw [if_neg hfirst, if_neg (by omega), hpos] at hcode
    rw [decAlaw_of_code (by omega) (Nat.mod_lt _ (by decide)) _ hcode]
    simp [hmid]

/-! ### Monotonicity and error -/

theorem ulawMag_mono {v w : Int} (h : (v / 4).natAbs ≤ (w / 4).natAbs) : ulawMag v ≤ ulawMag w := by
  unfold ulawMag
  omega

/-- Below 0 a larger sample has the smaller magnitude; a negative sample decodes to at most 0, any other to at
least 0. -/
theorem decUlaw_encUlaw_mono {v w : Int} (h : v ≤ w) : decUlaw (encUlaw v) ≤ decUlaw (encUlaw w) := by
  have hv : 33 ≤ cellMid (ulawMag v) := cellMid_mono (ulawMag_bounds v).1
  have hw : 33 ≤ cellMid (ulawMag w) := cellMid_mono (ulawMag_bounds w).1
  rw [decUlaw_encUlaw, decUlaw_encUlaw]
  by_cases hneg : v / 4 < 0 <;> by_cases hneg' : w / 4 < 0
  · have hmono := cellMid_mono (ulawMag_mono (v := w) (w := v) (by omega))
    rw [if_pos hneg, if_pos hneg']
    omega
  · rw [if_pos hneg, if_neg hneg']
    omega
  · omega
  · have hmono := cellMid_mono (ulawMag_mono (v := v) (w := w) (by omega))
    rw [if_neg hneg, if_neg hneg']
    omega

theorem decAlaw_encAlaw_mono {v w : Int} (h1 : -32768 ≤ v) (h : v ≤ w) (h2 : w ≤ 32767) :
    decAlaw (encAlaw v) ≤ decAlaw (encAlaw w) := by
  rw [decAlaw_encAlaw h1 (h.trans h2), decAlaw_encAlaw (h1.trans h) h2]
  by_cases hpos : 0 ≤ v / 8 <;> by_cases hpos' : 0 ≤ w / 8
  · have hmag : alawMag v ≤ alawMag w := by
      rw [alawMag, alawMag, if_pos hpos, if_pos hpos']
      omega
    have hmono := cellMid_mono hmag
    rw [if_pos hpos, if_pos hpos']
    omega
  · omega
  · rw [if_neg hpos, if_pos hpos']
    omega
  · have hmag : alawMag w ≤ alawMag v := by
      rw [alawMag, alawMag, if_neg hpos, if_neg hpos']
      omega
    have hmono := cellMid_mono hmag
    rw [if_neg hpos, if_neg hpos']
    omega

/-- Half the widest µ-law cell is 128 steps of 4; the clip costs up to 644. -/
theorem ulaw_error {v : Int} (h1 : -32768 ≤ v) (h2 : v ≤ 32767) : |v - decUlaw (encUlaw v)| ≤ 644 := by
  have hexp : 2 ^ cellExp (ulawMag v) ≤ 2 ^ 7 :=
    Nat.pow_le_pow_right (by decide) (cellExp_mono (ulawMag_bounds v).2)
  obtain ⟨hup, hdown⟩ := cellMid_near (ulawMag v)
  have hmag : ulawMag v = min ((v / 4).natAbs + 33) 8191 := rfl
  rw [decUlaw_encUlaw, abs_le]
  split <;> omega

/-- Half the widest A-law cell is 64 steps of 8. -/
theorem alaw_error {v : Int} (h1 : -32768 ≤ v) (h2 : v ≤ 32767) : |v - decAlaw (encAlaw v)| ≤ 512 := by
  have hexp : 2 ^ cellExp (alawMag v) ≤ 2 ^ 6 :=
    Nat.pow_le_pow_right (by decide) (cellExp_mono (Nat.le_of_lt_succ (alawMag_lt h1 h2)))
  obtain ⟨hup, hdown⟩ := cellMid_near (alawMag v)
  rw [decAlaw_encAlaw h1 h2, abs_le]
  by_cases hpos : 0 ≤ v / 8
  · have hmag : alawMag v = (v / 8).toNat := if_pos hpos
    rw [if_pos hpos]
    omega
  · have hmag : alawMag v = (-(v / 8) - 1).toNat := if_neg hpos
    rw [if_neg hpos]
    omega

/-! ### Injectivity -/

/-- Equal values have equal codes again, which are the codes themselves but for the negative zero. -/
theorem decUlaw_eq_imp {c d : Byte} (h : decUlaw c = decUlaw d) :
    c = d ∨ (c = 0xFF ∧ d = 0x7F) ∨ (c = 0x7F ∧ d = 0xFF) := by
  have hcodes : (if c = 0x7F then 0xFF else c) = if d = 0x7F then 0xFF else d := by
    rw [← encUlaw_decUlaw, ← encUlaw_decUlaw, h]
  split at hcodes <;> split at hcodes
  · exact .inl (by simp [*])
  · exact .inr (.inr ⟨‹_›, hcodes.symm⟩)
  · exact .inr (.inl ⟨hcodes, ‹_›⟩)
  · exact .inl hcodes

theorem decAlaw_injective : Function.Injective decAlaw :=
  Function.LeftInverse.injective encAlaw_decAlaw

/-- Settles O16: the round trips of the codes give injectivity, the quantizer of both laws monotonicity and the error
bounds; 16384 lies at the lower end of an A-law cell of the last segment. -/
theorem compandingProperties : Obligations.CompandingProperties :=
  ⟨fun _ _ => decUlaw_eq_imp, by decide, by decide, fun _ _ h => decAlaw_injective h,
    fun c => ⟨decUlaw_encUlaw_decUlaw c, congrArg decAlaw (encAlaw_decAlaw c)⟩,
    fun c => ⟨encAlaw_decAlaw c, encUlaw_decUlaw c⟩,
    fun _ _ h1 h h2 => ⟨decUlaw_encUlaw_mono h, decAlaw_encAlaw_mono h1 h h2⟩,
    by decide, by decide, fun _ h1 h2 => ⟨ulaw_error h1 h2, alaw_error h1 h2⟩,
    by decide, 16384, by decide, by decide, by decide⟩

end Sys2Proof.Machine
end

section
/-! The integer gain (42_volume_model.md R183) and the host's reference curve `LinToVol` (R189, R190). -/

namespace Sys2Proof.Machine

/-! ### The integer gain -/

/-- `imul` is monotone in the product. -/
theorem imul_le_imul {s s' : Int} {g g' : Word} (h : s * (g.toNat : Int) ≤ s' * g'.toNat) : imul s g ≤ imul s' g' := by
  rw [imul_eq, imul_eq]
  omega

/-- Settles O17: `imul` is the floor of the product over `2^16` plus one half. -/
theorem gainMultiplyRounds : Obligations.GainMultiplyRounds := by
  refine ⟨fun s g => ?_, imul_norm, imul_muted, imul_zero, fun s s' g h => ?_, fun s g g' hs h => ?_,
    fun s g => imul_abs_le⟩
  · rw [imul_eq]
    omega
  · exact imul_le_imul (mul_le_mul_of_nonneg_right h (Int.natCast_nonneg _))
  · exact imul_le_imul (mul_le_mul_of_nonneg_left (Int.ofNat_le.mpr h) hs)

/-! ### The reference curve -/

/-- The reference curve refuses exactly the arguments outside its domain. -/
theorem linToVolRef_eq_none_iff (l : Rat) : Config.linToVolRef l = none ↔ l < 0 ∨ 1 < l := by
  unfold Config.linToVolRef
  rw [ite_eq_right_iff, ← not_le, ← not_le, ← not_and_or]
  simp

/-- On its domain the number of the formula is a gain from MUTED to NORM. -/
theorem refFloor_bounds {l : Rat} (h0 : 0 ≤ l) (h1 : l ≤ 1) :
    0 ≤ (l * 65536 + 1 / 2).floor ∧ (l * 65536 + 1 / 2).floor ≤ 65536 := by
  constructor
  · rw [Rat.le_floor_iff, Int.cast_zero]
    linarith
  · rw [← Int.lt_add_one_iff, Rat.floor_lt_iff]
    norm_num
    linarith

/-- On its domain the reference curve is the formula, as a number. -/
theorem linToVolRef_eq_some {l : Rat} (h0 : 0 ≤ l) (h1 : l ≤ 1) :
    ∃ g : Word, Config.linToVolRef l = some g ∧ (g.toNat : Int) = (l * 65536 + 1 / 2).floor := by
  obtain ⟨hlo, hhi⟩ := refFloor_bounds h0 h1
  refine ⟨_, if_pos ⟨h0, h1⟩, ?_⟩
  rw [toNat_ofInt_eq_uN, uN]
  omega

/-- An argument with a result lies in the domain. -/
theorem linToVolRef_domain {l : Rat} {g : Word} (h : Config.linToVolRef l = some g) : 0 ≤ l ∧ l ≤ 1 := by
  by_contra hout
  have hnone : Config.linToVolRef l = none := if_neg hout
  rw [hnone] at h
  cases h

/-- A larger argument gives no smaller gain. -/
theorem linToVolRef_mono {a b : Rat} {g h : Word} (hab : a ≤ b) (ha : Config.linToVolRef a = some g)
    (hb : Config.linToVolRef b = some h) : g.toNat ≤ h.toNat := by
  obtain ⟨ha0, ha1⟩ := linToVolRef_domain ha
  obtain ⟨hb0, hb1⟩ := linToVolRef_domain hb
  obtain ⟨g', hg', hg⟩ := linToVolRef_eq_some ha0 ha1
  obtain ⟨h', hh', hh⟩ := linToVolRef_eq_some hb0 hb1
  obtain rfl := Option.some.inj (ha.symm.trans hg')
  obtain rfl := Option.some.inj (hb.symm.trans hh')
  have hmono : (a * 65536 + 1 / 2).floor ≤ (b * 65536 + 1 / 2).floor := Rat.floor_monotone (by linarith)
  omega

theorem linToVolRef_nine_tenths : Config.linToVolRef (9 / 10) = some 0xE666 := by decide +kernel

/-- Settles O19: the formula gives the laws, and three arguments are evaluated. -/
theorem referenceCurveMeetsLaws : Obligations.ReferenceCurveMeetsLaws :=
  ⟨⟨linToVolRef_eq_none_iff, fun _ _ _ _ => linToVolRef_mono, by decide +kernel, by decide +kernel,
      _, linToVolRef_nine_tenths, by decide, by decide⟩,
    fun _ => linToVolRef_eq_some, linToVolRef_nine_tenths⟩

end Sys2Proof.Machine
end

section
/-! VOL over whole chunks (43_volume_scaler.md R200, R205): it completes with the memory of `volMem`, and each sample is
`volBytes` of its own bytes. -/

namespace Sys2Proof.Machine

/-! ### VOL on operands that pass its prechecks -/

/-- Operands that no check of R201 fails on, as the statements write them, pass the prechecks of VOL. -/
theorem volCheck_of_volOk {f : Fmt} {s : State} (h : VolOk f s) : volCheck s = .ok f := by
  obtain ⟨hfmt, hlo, hhi, hlen, hgain, hdst, hwrap, hexcl⟩ := h
  exact (volCheck_eq_ok_iff s f).mpr ⟨hfmt, (badChannels_eq_false_iff _).mpr ⟨hlo, hhi⟩, congrArg BitVec.toNat hlen,
    (badGain_eq_none_iff _ _).mpr hgain, (badLength_eq_false_iff f _ _).mpr hdst, (addrWraps_eq_false_iff _).mpr hwrap,
    hexcl⟩

/-- A VOL past its prechecks completes, having changed memory only (R200, R47). -/
theorem exec_vol_of_volOk {f : Fmt} {s : State} (hs : s.phase = .idle) (h : VolOk f s) :
    exec .vol s = .next { s with mem := volMem f s (sampleCount f s.dst), done := true } :=
  exec_of_body_ok (t := { s with mem := volMem f s (sampleCount f s.dst) }) hs hs
    (by simp [bodyOf, volBody, volCheck_of_volOk h])

/-- Each sample of a finished VOL is `volBytes` of its own bytes. -/
theorem memRead_volMem_of_volOk {f : Fmt} {s : State} (hm : memWf s.mem = true) (h : VolOk f s) {k : Nat}
    (hk : k < sampleCount f s.dst) :
    memRead (volMem f s (sampleCount f s.dst)) (sampleAddr f s.dst k) (fmtWidth f) =
      volBytes f (volGain s k) (memRead s.mem (sampleAddr f s.dst k) (fmtWidth f)) := by
  obtain ⟨-, -, -, -, -, -, hwrap, -⟩ := h
  exact memRead_volMem hm ((addrWraps_eq_false_iff _).mpr hwrap) hk le_rfl

/-- A property of every gain below the channel count is one of every sample's gain (R203). -/
theorem volGain_of_all {f : Fmt} {s : State} {g : Word} (h : VolOk f s)
    (hall : ∀ c < s.spec.channels.toNat, gainAt s.vol c = g) (k : Nat) : volGain s k = g := by
  obtain ⟨-, hlo, -⟩ := h
  exact hall _ (Nat.mod_lt k hlo)

/-! ### NORM and MUTED on every channel -/

/-- NORM touches no sample. -/
theorem volMem_of_norm (f : Fmt) {s : State} (h : ∀ k, volGain s k = Config.volNorm) (n : Nat) :
    volMem f s n = s.mem := by
  induction n with
  | zero => rfl
  | succ n ih => rw [volMem, volSample, if_pos (h n), ih]

theorem volBytes_muted (f : Fmt) (bs : List Byte) : volBytes f Config.volMuted bs = zeroCode f := by
  rw [volBytes, if_neg (by decide), if_pos rfl]

/-- Settles O27: under NORM no sample is touched, under MUTED each becomes the zero code. -/
theorem volNormAndMutedLaws : Obligations.VolNormAndMutedLaws := by
  intro s f hs hm hok
  have hexec := exec_vol_of_volOk hs hok
  refine ⟨fun hnorm => ?_, fun hmuted => ⟨_, hexec, fun k hk => ?_⟩⟩
  · rw [hexec, volMem_of_norm f (volGain_of_all hok hnorm)]
  · rw [memRead_volMem_of_volOk hm hok hk, volGain_of_all hok hmuted, volBytes_muted]

/-! ### The golden fixture (R190) -/

/-- The byte VOL leaves of a `U8` sample. -/
def scaledU8 (g : Word) (b : Byte) : Byte := byteAt (volBytes (.int .u8) g [b]) 0

/-- On one `U8` channel VOL maps every byte of the chunk by itself. -/
theorem memRead_volMem_u8 {s : State} (hm : memWf s.mem = true) (h : VolOk (.int .u8) s) (hc : s.spec.channels = 1) :
    memRead (volMem (.int .u8) s (sampleCount (.int .u8) s.dst)) (chunkEA s.dst) s.dst.length.toNat =
      (memRead s.mem (chunkEA s.dst) s.dst.length.toNat).map (scaledU8 (gainAt s.vol 0)) := by
  have hgain : ∀ k, volGain s k = gainAt s.vol 0 := fun k => by
    rw [volGain, channelsOf, hc, show (1 : BitVec 6).toNat = 1 from rfl, Nat.mod_one]
  rw [memRead, memRead, List.map_map]
  refine List.map_congr_left fun k hk => ?_
  have hsample := memRead_volMem_of_volOk (k := k) hm h (by simpa [sampleCount, fmtWidth, intWidth] using hk)
  rw [hgain] at hsample
  simpa [memRead, sampleAddr, fmtWidth, intWidth, byteAt, scaledU8] using congrArg (fun bs => byteAt bs 0) hsample

theorem scaleSample_u8_norm (b : Byte) : scaleSample (.int .u8) Config.volNorm [b] = [b] := by
  rw [scaleSample, imul_norm, encSat, satInt, clamp_of_mem (decInt_range _ _).1 (decInt_range _ _).2, encInt_decInt_u8]

theorem scaleSample_int_muted (f : IntFmt) (bs : List Byte) :
    scaleSample (.int f) Config.volMuted bs = zeroCode (.int f) := by
  rw [scaleSample, imul_muted, encSat, satInt, clamp_of_mem (inRange_zero f).1 (inRange_zero f).2, zeroCode]

/-- On `U8` the two special gains are no exceptions to the scaling. -/
theorem volBytes_u8 (g : Word) (b : Byte) : volBytes (.int .u8) g [b] = scaleSample (.int .u8) g [b] := by
  unfold volBytes
  split
  · rw [‹g = _›, scaleSample_u8_norm]
  · split
    · rw [‹g = _›, scaleSample_int_muted]
    · rfl

/-- Before the clip, a `U8` sample is scaled in units of its code. -/
theorem imul_decInt_u8 (g : Word) (b : Byte) :
    imul (decInt .u8 [b]) g / 256 = (((b.toNat : Int) - 128) * g.toNat + 128) / 65536 := by
  rw [imul_eq, decInt, byteAt, List.getD_cons_zero, mul_right_comm]
  omega

/-- A byte away from the clip is reached exactly on an interval of the gain. -/
theorem scaledU8_eq_iff (g : Word) {b t : Byte} (h0 : 0 < t.toNat) (h255 : t.toNat < 255) :
    scaledU8 g b = t ↔
      ((t.toNat : Int) - 128) * 65536 ≤ ((b.toNat : Int) - 128) * g.toNat + 128 ∧
      ((b.toNat : Int) - 128) * g.toNat + 128 < ((t.toNat : Int) - 127) * 65536 := by
  have hscaled := imul_decInt_u8 g b
  have hcode := toNat_encInt_u8 (inRange_satInt .u8 (imul (decInt .u8 [b]) g))
  simp only [encInt, List.map_cons, List.map_nil, List.cons.injEq, and_true, satInt, clamp, intLo, intHi,
    nativeBits] at hcode
  rw [← BitVec.toNat_inj, scaledU8, volBytes_u8]
  simp only [scaleSample, encSat, encInt, byteAt, List.getD_cons_zero, satInt, clamp, intLo, intHi, nativeBits, hcode]
  generalize imul (decInt .u8 [b]) g = v at *
  generalize ((b.toNat : Int) - 128) * g.toNat = y at *
  omega

/-- Settles O18: the ten bytes leave exactly this interval of the gain. -/
theorem goldenFixtureGains : Obligations.GoldenFixtureGains := by
  intro s hs hm hok hc hlen hbytes
  refine ⟨_, exec_vol_of_volOk hs hok, ?_⟩
  have hmap := memRead_volMem_u8 hm hok hc
  rw [hlen, show (10 : Word).toNat = 10 from rfl, hbytes] at hmap
  rw [hmap]
  simp (disch := decide) only [List.map_cons, List.map_nil, List.cons.injEq, and_true, scaledU8_eq_iff,
    BitVec.ofNat_eq_ofNat, BitVec.toNat_ofNat]
  omega

end Sys2Proof.Machine
end

section
/-! The exact results of the float operations (42_volume_model.md R186): products, sums and what they do on NaNs and
infinities, over values, and what a rounding makes of each class of values. -/

namespace Sys2Proof.Machine

/-! ### Exact products and sums of finite values -/

theorem ratOf_mul (s t : Bool) (m n : Nat) (e g : Int) :
    ratOf (s ^^ t) (m * n) (e + g) = ratOf s m e * ratOf t n g := by
  simp only [ratOf, zpow_add₀ (two_ne_zero (α := Rat)), Nat.cast_mul]
  cases s <;> cases t <;> simp <;> ring

/-- An integer is its sign and its magnitude. -/
theorem ratOf_natAbs (z g : Int) : ratOf (decide (z < 0)) z.natAbs g = z * 2 ^ g := by
  have habs : ((z.natAbs : Int) : Rat) = |(z : Rat)| := by rw [Int.natCast_natAbs, Int.cast_abs]
  rw [Int.cast_natCast] at habs
  rw [ratOf, habs]
  by_cases hz : z < 0
  · have : (z : Rat) < 0 := by exact_mod_cast hz
    simp [hz, abs_of_neg this]
  · have : (0 : Rat) ≤ z := by exact_mod_cast not_lt.mp hz
    simp [hz, abs_of_nonneg this]

/-- The sum of two finite values is exact; a zero sum is negative only when both summands are. -/
theorem addVal_fin (s t : Bool) (m n : Nat) (e g : Int) :
    ∃ (u : Bool) (p : Nat) (x : Int), addVal (.fin s m e) (.fin t n g) = .fin u p x ∧
      ratOf u p x = ratOf s m e + ratOf t n g ∧ (p = 0 → u = (s && t)) := by
  have hsum : ((signedAt s m e (min e g) + signedAt t n g (min e g) : Int) : Rat) * 2 ^ min e g =
      ratOf s m e + ratOf t n g := by
    rw [Int.cast_add, add_mul, signedAt_value s m (min_le_left e g), signedAt_value t n (min_le_right e g), ratOf, ratOf]
  simp only [addVal]
  generalize signedAt s m e (min e g) + signedAt t n g (min e g) = z at *
  by_cases hz : z = 0
  · refine ⟨s && t, 0, min e g, if_pos hz, ?_, fun _ => rfl⟩
    rw [← hsum, hz]
    simp [ratOf]
  · refine ⟨decide (z < 0), z.natAbs, min e g, if_neg hz, ?_, fun h0 => absurd (Int.natAbs_eq_zero.mp h0) hz⟩
    rw [ratOf_natAbs, hsum]

/-! ### Products and sums by class of value -/

theorem mulVal_comm (v w : FVal) : mulVal v w = mulVal w v := by
  cases v <;> cases w <;> simp [mulVal, Bool.xor_comm, Nat.mul_comm, Int.add_comm]

theorem mulVal_of_nan {v w : FVal} (h : v = .nan ∨ w = .nan) : mulVal v w = .nan := by
  obtain rfl | rfl := h
  · rfl
  · rw [mulVal_comm]
    rfl

theorem mulVal_fin_fin (s t : Bool) (m n : Nat) (e g : Int) :
    mulVal (.fin s m e) (.fin t n g) = .fin (s ^^ t) (m * n) (e + g) := rfl

theorem mulVal_inf_inf (s t : Bool) : mulVal (.inf s) (.inf t) = .inf (s ^^ t) := rfl

theorem mulVal_inf_zero (s t : Bool) (e : Int) : mulVal (.inf s) (.fin t 0 e) = .nan := rfl

theorem mulVal_inf_fin {m : Nat} (hm : m ≠ 0) (s t : Bool) (e : Int) :
    mulVal (.inf s) (.fin t m e) = .inf (s ^^ t) := if_neg hm

theorem addVal_of_nan {v w : FVal} (h : v = .nan ∨ w = .nan) : addVal v w = .nan := by
  obtain rfl | rfl := h
  · rfl
  · cases v <;> rfl

theorem addVal_inf_fin (s t : Bool) (m : Nat) (e : Int) : addVal (.inf s) (.fin t m e) = .inf s := rfl

theorem addVal_fin_inf (s t : Bool) (m : Nat) (e : Int) : addVal (.fin t m e) (.inf s) = .inf s := rfl

/-! ### Roundings by class of value -/

theorem value32_round32_inf (s : Bool) : value32 (round32 (.inf s)) = .inf s := by cases s <;> decide

theorem value64_round64_inf (s : Bool) : value64 (round64 (.inf s)) = .inf s := by cases s <;> decide

theorem mul32_comm (a b : Word) : mul32 a b = mul32 b a := by rw [mul32, mulVal_comm, mul32]

theorem mul64_comm (a b : F64) : mul64 a b = mul64 b a := by rw [mul64, mulVal_comm, mul64]

/-- The product of finite operands is the exact product, rounded once. -/
theorem mul32_fin {a b : Word} {s t : Bool} {m n : Nat} {e g : Int} (ha : value32 a = .fin s m e)
    (hb : value32 b = .fin t n g) :
    ∃ (p : Nat) (x : Int), ratOf (s ^^ t) p x = ratOf s m e * ratOf t n g ∧ mul32 a b = round32 (.fin (s ^^ t) p x) :=
  ⟨m * n, e + g, ratOf_mul s t m n e g, by rw [mul32, ha, hb, mulVal_fin_fin]⟩

theorem mul64_fin {a b : F64} {s t : Bool} {m n : Nat} {e g : Int} (ha : value64 a = .fin s m e)
    (hb : value64 b = .fin t n g) :
    ∃ (p : Nat) (x : Int), ratOf (s ^^ t) p x = ratOf s m e * ratOf t n g ∧ mul64 a b = round64 (.fin (s ^^ t) p x) :=
  ⟨m * n, e + g, ratOf_mul s t m n e g, by rw [mul64, ha, hb, mulVal_fin_fin]⟩

theorem add64_fin {a b : F64} {s t : Bool} {m n : Nat} {e g : Int} (ha : value64 a = .fin s m e)
    (hb : value64 b = .fin t n g) :
    ∃ (u : Bool) (p : Nat) (x : Int), ratOf u p x = ratOf s m e + ratOf t n g ∧ add64 a b = round64 (.fin u p x) ∧
      (p = 0 → u = (s && t)) := by
  obtain ⟨u, p, x, hadd, hvalue, hzero⟩ := addVal_fin s t m n e g
  exact ⟨u, p, x, hvalue, by rw [add64, ha, hb, hadd], hzero⟩

/-- NaNs and infinities in a binary32 product. -/
theorem mul32_special (a b : Word) (s t : Bool) (m : Nat) (e : Int) :
    (value32 a = .nan ∨ value32 b = .nan → mul32 a b = 0x7FC00000) ∧
    (value32 a = .inf s → value32 b = .inf t → value32 (mul32 a b) = .inf (s ^^ t)) ∧
    (value32 a = .inf s → value32 b = .fin t m e →
      mul32 a b = mul32 b a ∧ (m = 0 → mul32 a b = 0x7FC00000) ∧ (m ≠ 0 → value32 (mul32 a b) = .inf (s ^^ t))) := by
  refine ⟨fun h => congrArg round32 (mulVal_of_nan h), fun ha hb => ?_,
    fun ha hb => ⟨mul32_comm a b, fun hm => ?_, fun hm => ?_⟩⟩
  · rw [mul32, ha, hb, mulVal_inf_inf, value32_round32_inf]
  · rw [mul32, ha, hb, hm, mulVal_inf_zero]
    rfl
  · rw [mul32, ha, hb, mulVal_inf_fin hm, value32_round32_inf]

/-- NaNs and infinities in a binary64 product. -/
theorem mul64_special (a b : F64) (s t : Bool) (m : Nat) (e : Int) :
    (value64 a = .nan ∨ value64 b = .nan → mul64 a b = .nan) ∧
    (value64 a = .inf s → value64 b = .inf t → value64 (mul64 a b) = .inf (s ^^ t)) ∧
    (value64 a = .inf s → value64 b = .fin t m e →
      mul64 a b = mul64 b a ∧ (m = 0 → mul64 a b = .nan) ∧ (m ≠ 0 → value64 (mul64 a b) = .inf (s ^^ t))) := by
  refine ⟨fun h => congrArg round64 (mulVal_of_nan h), fun ha hb => ?_,
    fun ha hb => ⟨mul64_comm a b, fun hm => ?_, fun hm => ?_⟩⟩
  · rw [mul64, ha, hb, mulVal_inf_inf, value64_round64_inf]
  · rw [mul64, ha, hb, hm, mulVal_inf_zero]
    rfl
  · rw [mul64, ha, hb, mulVal_inf_fin hm, value64_round64_inf]

/-- NaNs and infinities in a binary64 sum. -/
theorem add64_special (a b : F64) (s t : Bool) (m : Nat) (e : Int) :
    (value64 a = .nan ∨ value64 b = .nan → add64 a b = .nan) ∧
    (value64 a = .inf s → value64 b = .inf t →
      (s = t → value64 (add64 a b) = .inf s) ∧ (s ≠ t → add64 a b = .nan)) ∧
    (value64 a = .inf s → value64 b = .fin t m e →
      value64 (add64 a b) = .inf s ∧ value64 (add64 b a) = .inf s) := by
  refine ⟨fun h => congrArg round64 (addVal_of_nan h), fun ha hb => ⟨fun hst => ?_, fun hst => ?_⟩,
    fun ha hb => ⟨?_, ?_⟩⟩
  · rw [add64, ha, hb, addVal, if_pos hst, value64_round64_inf]
  · rw [add64, ha, hb, addVal, if_neg hst]
    rfl
  · rw [add64, ha, hb, addVal_inf_fin, value64_round64_inf]
  · rw [add64, ha, hb, addVal_fin_inf, value64_round64_inf]

/-- Settles O60: each operation is the rounding of the exact result, and a conversion the rounding of a value. -/
theorem floatOperationsRoundExactResults : Obligations.FloatOperationsRoundExactResults := by
  refine ⟨fun _ _ _ _ _ _ _ _ => mul32_fin, fun _ _ _ _ _ _ _ _ ha hb => ⟨mul64_fin ha hb, add64_fin ha hb⟩,
    mul32_special, fun a b s t m e => ?_, fun _ => rfl, fun _ => rfl⟩
  obtain ⟨hmulNan, hmulInf, hmulFin⟩ := mul64_special a b s t m e
  obtain ⟨haddNan, haddInf, haddFin⟩ := add64_special a b s t m e
  refine ⟨fun h => ⟨hmulNan h, haddNan h⟩, fun ha hb => ⟨hmulInf ha hb, haddInf ha hb⟩, fun ha hb => ?_⟩
  obtain ⟨hcomm, hzero, hinf⟩ := hmulFin ha hb
  exact ⟨hcomm, hzero, hinf, haddFin ha hb⟩

end Sys2Proof.Machine
end

section
/-! The float gains and samples (42_volume_model.md R184 to R186, R191): what a rounding to nearest gives as a value,
when it is exact, and that it keeps the sign. -/

namespace Sys2Proof.Machine

/-! ### The value of a rounding -/

theorem value32_round32_fin (neg : Bool) (m : Nat) (e : Int) :
    value32 (round32 (.fin neg m e)) =
      fieldsValue binary32 neg (roundFields binary32 m e).1 (roundFields binary32 m e).2 := by
  obtain ⟨hex, hfr⟩ := roundFields_range binary32 m e
  exact value32_assemble (lt_of_le_of_lt hex (by decide)) hfr

theorem value64_round64_fin (neg : Bool) (m : Nat) (e : Int) :
    value64 (round64 (.fin neg m e)) =
      fieldsValue binary64 neg (roundFields binary64 m e).1 (roundFields binary64 m e).2 := by
  obtain ⟨hex, hfr⟩ := roundFields_range binary64 m e
  exact pattern64Value_assemble (lt_of_le_of_lt hex (by decide)) hfr

/-- Equal values of one sign round alike. -/
theorem round32_congr (neg : Bool) {m m' : Nat} {e e' : Int} (h : (m : Rat) * 2 ^ e = m' * 2 ^ e') :
    round32 (.fin neg m e) = round32 (.fin neg m' e') := by
  rw [round32, round32, roundFields_congr binary32 h]

/-- A significand of 24 bits, or the next one, is kept by binary32 at every exponent in its range. -/
theorem round32_exact (neg : Bool) {m : Nat} {e : Int} (hm : m ≤ 2 ^ 24) (hlo : -149 ≤ e) (hhi : e ≤ 103) :
    ∃ (m' : Nat) (e' : Int), value32 (round32 (.fin neg m e)) = .fin neg m' e' ∧ (m' : Rat) * 2 ^ e' = m * 2 ^ e := by
  rcases hm.lt_or_eq with hlt | rfl
  · rw [value32_round32_fin]
    exact roundFields_exact binary32 neg hlt hlo (by simp only [binary32]; omega) (by decide)
  · have hcarry : ((2 ^ 24 : Nat) : Rat) * 2 ^ e = ((2 ^ 23 : Nat) : Rat) * 2 ^ (e + 1) := by
      rw [zpow_add_one₀ (two_ne_zero (α := Rat))]
      push_cast
      ring
    rw [round32_congr neg hcarry, hcarry, value32_round32_fin]
    exact roundFields_exact binary32 neg (by decide) (by simp only [binary32]; omega) (by simp only [binary32]; omega)
      (by decide)

/-- A significand of 53 bits is kept by binary64 at every exponent in its range. -/
theorem round64_exact (neg : Bool) {m : Nat} {e : Int} (hm : m < 2 ^ 53) (hlo : -1074 ≤ e) (hhi : e ≤ 971) :
    ∃ (m' : Nat) (e' : Int), value64 (round64 (.fin neg m e)) = .fin neg m' e' ∧ (m' : Rat) * 2 ^ e' = m * 2 ^ e := by
  rw [value64_round64_fin]
  exact roundFields_exact binary64 neg hm hlo (by simp only [binary64]; omega) (by decide)

/-- Equal magnitudes are equal under a sign. -/
theorem ratOf_congr (neg : Bool) {m m' : Nat} {e e' : Int} (h : (m : Rat) * 2 ^ e = m' * 2 ^ e') :
    ratOf neg m e = ratOf neg m' e' := by
  rw [ratOf, ratOf, mul_assoc, mul_assoc, h]

/-! ### Widening (R186, R191) -/

/-- The significand and the exponent of a finite binary32 pattern. -/
theorem value32_fin_range {x : Word} {neg : Bool} {m : Nat} {e : Int} (h : value32 x = .fin neg m e) :
    m < 2 ^ 24 ∧ -149 ≤ e ∧ e ≤ 104 := by
  obtain ⟨-, hne, hfields⟩ := fieldsValue_fin h
  simp only [binary32] at hne hfields
  omega

/-- A finite pattern keeps sign and value in binary64. -/
theorem value64_cvtF32F64_fin {x : Word} {neg : Bool} {m : Nat} {e : Int} (h : value32 x = .fin neg m e) :
    ∃ (m' : Nat) (e' : Int), value64 (cvtF32F64 x) = .fin neg m' e' ∧ (m' : Rat) * 2 ^ e' = m * 2 ^ e := by
  obtain ⟨hm, hlo, hhi⟩ := value32_fin_range h
  rw [cvtF32F64, h]
  exact round64_exact neg (by omega) (by omega) (by omega)

theorem value64_cvtF32F64_inf {x : Word} {neg : Bool} (h : value32 x = .inf neg) :
    value64 (cvtF32F64 x) = .inf neg := by
  rw [cvtF32F64, h, value64_round64_inf]

theorem cvtF32F64_nan {x : Word} (h : isNaN32 x = true) : cvtF32F64 x = .nan := by
  rw [cvtF32F64, (value32_nan_iff x).mpr h]
  rfl

/-- Narrowing undoes widening: both values round to the same pattern. -/
theorem cvtF64F32_cvtF32F64 {x : Word} (h : isNaN32 x = false) : cvtF64F32 (cvtF32F64 x) = x := by
  rw [cvtF64F32]
  refine Eq.trans ?_ (round32_value32 h)
  cases hv : value32 x with
  | nan => simp [(value32_nan_iff x).mp hv] at h
  | inf neg => rw [value64_cvtF32F64_inf hv]
  | fin neg m e =>
    obtain ⟨m', e', hwide, hvalue⟩ := value64_cvtF32F64_fin hv
    rw [hwide, round32_congr neg hvalue]

/-- Settles O22: every significand and exponent of binary32 fits binary64. -/
theorem wideningIsExact : Obligations.WideningIsExact := by
  refine fun x => ⟨fun h => ⟨cvtF64F32_cvtF32F64 h, fun neg m e hv => ?_, fun neg => value64_cvtF32F64_inf⟩,
    cvtF32F64_nan⟩
  obtain ⟨m', e', hwide, hvalue⟩ := value64_cvtF32F64_fin hv
  exact ⟨m', e', hwide, ratOf_congr neg hvalue⟩

/-! ### The multipliers of a gain (R184, R191) -/

/-- What binary32 keeps of a gain has 24 bits, or is the next significand. -/
theorem keptSig_gain_bounds {g : Word} (h : g ≠ 0) :
    2 ^ 23 ≤ keptSig binary32 g.toNat 0 ∧ keptSig binary32 g.toNat 0 ≤ 2 ^ 24 := by
  have hg : g.toNat ≠ 0 := BitVec.toNat_ne_iff_ne.mpr h
  refine ⟨(keptSig_ge binary32 0 hg ?_).2, keptSig_le binary32 g.toNat 0⟩
  simp only [keptExp, binary32]
  omega

theorem keptExp_gain (n : Nat) : keptExp binary32 n 0 = (Nat.log2 n : Int) - 23 := by
  simp only [keptExp, binary32]
  omega

/-- A gain has 32 bits. -/
theorem log2_gain_le (g : Word) : Nat.log2 g.toNat ≤ 31 := by
  by_cases h : g.toNat = 0
  · simp [h]
  · exact Nat.le_of_lt_succ ((Nat.log2_lt h).mpr g.isLt)

/-- Below `2^24` a gain loses nothing. -/
theorem keptSig_exact_of_lt {n : Nat} (h : n < 2 ^ 24) :
    (keptSig binary32 n 0 : Rat) * 2 ^ keptExp binary32 n 0 = n := by
  have hexp : keptExp binary32 n 0 ≤ 0 := by
    rw [keptExp_gain]
    by_cases hn : n = 0
    · simp [hn]
    · have := (Nat.log2_lt hn).mpr h
      omega
  have hvalue := signedAt_value false n hexp
  rw [keptSig, if_pos hexp]
  simpa [signedAt] using hvalue

/-- The conversion of a gain denotes what binary32 keeps of it. -/
theorem value32_cvtU32F32 (g : Word) :
    ∃ (m : Nat) (e : Int), value32 (cvtU32F32 g) = .fin false m e ∧
      (m : Rat) * 2 ^ e = keptSig binary32 g.toNat 0 * 2 ^ keptExp binary32 g.toNat 0 := by
  by_cases h : g = 0
  · subst h
    exact ⟨0, -149, by decide, by rw [keptSig_exact_of_lt (by decide)]; simp⟩
  · have hg : g.toNat ≠ 0 := BitVec.toNat_ne_iff_ne.mpr h
    have hlog := log2_gain_le g
    have hsmall : (keptSig binary32 g.toNat 0 : Rat) * 2 ^ keptExp binary32 g.toNat 0 < 2 ^ (128 : Int) := by
      calc (keptSig binary32 g.toNat 0 : Rat) * 2 ^ keptExp binary32 g.toNat 0
          ≤ ((2 ^ 24 : Nat) : Rat) * 2 ^ (8 : Int) :=
            mul_le_mul (by exact_mod_cast (keptSig_gain_bounds h).2)
              (zpow_le_zpow_right₀ (by norm_num) (by rw [keptExp_gain]; omega)) (by positivity) (by positivity)
        _ < 2 ^ (128 : Int) := by norm_num
    obtain ⟨m, e, hfields, hvalue, -⟩ := roundFields_value binary32 false 0 hg (by decide) (by decide) hsmall
    exact ⟨m, e, (value32_round32_fin false g.toNat 0).trans hfields, hvalue⟩

/-- The binary32 multiplier denotes what binary32 keeps of the gain, over `2^16`. -/
theorem value32_gainF32 (g : Word) :
    ∃ (m : Nat) (e : Int), value32 (gainF32 g) = .fin false m e ∧
      ratOf false m e = keptSig binary32 g.toNat 0 * 2 ^ keptExp binary32 g.toNat 0 / 2 ^ 16 := by
  obtain ⟨m', e', hcvt, hvalue⟩ := value32_cvtU32F32 g
  have hlog := log2_gain_le g
  have hscaled : ∀ (n : Nat) (k : Int), (n : Rat) * 2 ^ (k + -16) = n * 2 ^ k / 2 ^ 16 := fun n k => by
    rw [zpow_add₀ (two_ne_zero (α := Rat)), zpow_neg, ← mul_assoc, ← div_eq_mul_inv]
    norm_num
  obtain ⟨m, e, hgain, hexact⟩ := round32_exact false (keptSig_le binary32 g.toNat 0)
    (e := keptExp binary32 g.toNat 0 + -16) (by rw [keptExp_gain]; omega) (by rw [keptExp_gain]; omega)
  refine ⟨m, e, ?_, by rw [ratOf_false, hexact, hscaled]⟩
  rw [gainF32, hcvt, scaleVal, ← hgain]
  exact congrArg value32 (round32_congr false (by rw [hscaled, hscaled, hvalue]))

/-- Between two powers of two a gain is rounded to a multiple of the last of 24 bits. -/
theorem keptExp_gain_eq {n k : Nat} (hlo : 2 ^ (23 + k) ≤ n) (hhi : n < 2 ^ (24 + k)) : keptExp binary32 n 0 = k := by
  have hn : n ≠ 0 := (lt_of_lt_of_le (Nat.two_pow_pos _) hlo).ne'
  have hlog : Nat.log2 n = 23 + k := (Nat.log2_eq_iff hn).mpr ⟨hlo, by rwa [Nat.add_right_comm]⟩
  rw [keptExp_gain, hlog]
  omega

/-- The binary64 multiplier is exact. -/
theorem value64_gainF64 (g : Word) :
    ∃ (m : Nat) (e : Int), value64 (gainF64 g) = .fin false m e ∧ ratOf false m e = (g.toNat : Rat) / 2 ^ 16 := by
  have hg := g.isLt
  obtain ⟨m, e, hgain, hvalue⟩ := round64_exact false (m := g.toNat) (e := -16) (by omega) (by decide) (by decide)
  refine ⟨m, e, hgain, ?_⟩
  rw [ratOf_false, hvalue, zpow_neg, ← div_eq_mul_inv]
  norm_num

/-- The contribution of a finite sample is the exact product, rounded once. -/
theorem fcontrib64_fin {x : Word} {neg : Bool} {m : Nat} {e : Int} (g : Word) (h : value32 x = .fin neg m e) :
    ∃ (p : Nat) (y : Int), ratOf neg p y = ratOf neg m e * ((g.toNat : Rat) / 2 ^ 16) ∧
      fcontrib64 x g = round64 (.fin neg p y) := by
  obtain ⟨m', e', hwide, hvalue⟩ := value64_cvtF32F64_fin h
  obtain ⟨n, k, hgain, hfactor⟩ := value64_gainF64 g
  obtain ⟨p, y, hproduct, hmul⟩ := mul64_fin hwide hgain
  rw [Bool.xor_false] at hproduct hmul
  exact ⟨p, y, by rw [hproduct, hfactor, ratOf_congr neg hvalue], hmul⟩

/-- Settles O20: both multipliers and the contribution by their values. -/
theorem floatGainMultipliers : Obligations.FloatGainMultipliers := by
  intro g
  obtain ⟨m, e, hgain, hvalue⟩ := value32_gainF32 g
  obtain ⟨m', e', hcvt, hkept⟩ := value32_cvtU32F32 g
  refine ⟨⟨m, e, hgain, ⟨m', e', hcvt, by rw [hvalue, ratOf_false, hkept]⟩, fun hlt => ?_, fun k hlo hhi => ?_⟩,
    value64_gainF64 g, fun _ => rfl, fun x neg m e => fcontrib64_fin g⟩
  · rw [hvalue, keptSig_exact_of_lt hlt]
  · have hg : g ≠ 0 := by
      rintro rfl
      exact absurd hlo (Nat.not_le.mpr (Nat.two_pow_pos _))
    obtain ⟨h23, h24⟩ := keptSig_gain_bounds hg
    have hnear := keptSig_near binary32 g.toNat 0
    rw [keptExp_gain_eq hlo hhi, zpow_natCast] at hvalue hnear
    rw [zpow_zero, mul_one] at hnear
    exact ⟨_, h23, h24, hvalue, hnear⟩

/-! ### Scaling a sample (R185) -/

/-- A value that is no NaN has a sign. -/
def HasSign (v : FVal) (neg : Bool) : Prop := v = .inf neg ∨ ∃ m e, v = .fin neg m e

/-- A pattern whose value has a sign is no NaN and has that sign bit. -/
theorem sign_of_hasSign {x : Word} {neg : Bool} (h : HasSign (value32 x) neg) : isNaN32 x = false ∧ x.msb = neg := by
  have hnan : ∀ v, value32 x = v → v ≠ .nan → isNaN32 x = false := fun v hv hne =>
    Bool.eq_false_iff.mpr fun hx => hne (hv.symm.trans ((value32_nan_iff x).mpr hx))
  obtain hv | ⟨m, e, hv⟩ := h
  · exact ⟨hnan _ hv (by simp), (fieldsValue_inf hv).1.symm⟩
  · exact ⟨hnan _ hv (by simp), (fieldsValue_fin hv).1.symm⟩

theorem hasSign_value32 {x : Word} (h : isNaN32 x = false) : HasSign (value32 x) x.msb := by
  cases hv : value32 x with
  | nan => simp [(value32_nan_iff x).mp hv] at h
  | inf neg => exact .inl (by rw [(fieldsValue_inf hv).1])
  | fin neg m e => exact .inr ⟨m, e, by rw [(fieldsValue_fin hv).1]⟩

/-- A rounding keeps the sign, whether it overflows or not. -/
theorem hasSign_round32 {v : FVal} {neg : Bool} (h : HasSign v neg) : HasSign (value32 (round32 v)) neg := by
  obtain rfl | ⟨m, e, rfl⟩ := h
  · exact .inl (value32_round32_inf neg)
  · obtain ⟨hnearest, hoverflow⟩ := roundingIsNearestEven.1 neg m e
    rcases lt_or_ge (ratOf false m e) (2 ^ 128 - 2 ^ 103) with hlt | hge
    · obtain ⟨m', e', hfin, -⟩ := hnearest hlt
      exact .inr ⟨m', e', hfin⟩
    · rw [hoverflow hge]
      exact .inl (by cases neg <;> decide)

/-- A positive finite factor keeps the sign. -/
theorem hasSign_mulVal {v : FVal} {neg : Bool} {n : Nat} (hn : n ≠ 0) (k : Int) (h : HasSign v neg) :
    HasSign (mulVal v (.fin false n k)) neg := by
  obtain rfl | ⟨m, e, rfl⟩ := h
  · exact .inl (by rw [mulVal_inf_fin hn, Bool.xor_false])
  · exact .inr ⟨m * n, e + k, by rw [mulVal_fin_fin, Bool.xor_false]⟩

/-- The multiplier of a gain other than MUTED is a positive finite number. -/
theorem gainF32_pos {g : Word} (hg : g ≠ 0) : ∃ (n : Nat) (k : Int), value32 (gainF32 g) = .fin false n k ∧ n ≠ 0 := by
  obtain ⟨n, k, hgain, hvalue⟩ := value32_gainF32 g
  refine ⟨n, k, hgain, ?_⟩
  rintro rfl
  have hsig : (0 : Rat) < keptSig binary32 g.toNat 0 := by
    exact_mod_cast lt_of_lt_of_le (Nat.two_pow_pos 23) (keptSig_gain_bounds hg).1
  have hpos : (0 : Rat) < keptSig binary32 g.toNat 0 * 2 ^ keptExp binary32 g.toNat 0 / 2 ^ 16 := by positivity
  rw [← hvalue, ratOf_false, Nat.cast_zero, zero_mul] at hpos
  exact lt_irrefl _ hpos

theorem fscale32_of_nan {x : Word} (g : Word) (h : isNaN32 x = true) : fscale32 x g = 0x7FC00000 := if_pos h

theorem fscale32_eq_mul32 {x : Word} (g : Word) (h : isNaN32 x = false) : fscale32 x g = mul32 x (gainF32 g) :=
  if_neg (by simp [h])

/-- A scaled sample has the sign of the sample. -/
theorem hasSign_fscale32 {x g : Word} (hg : g ≠ 0) (h : isNaN32 x = false) :
    HasSign (value32 (fscale32 x g)) x.msb := by
  obtain ⟨n, k, hgain, hn⟩ := gainF32_pos hg
  rw [fscale32_eq_mul32 g h, mul32, hgain]
  exact hasSign_round32 (hasSign_mulVal hn k (hasSign_value32 h))

/-- The infinities and the zeros are fixed by a positive finite factor. -/
theorem fscale32_of_inf_or_zero {x g : Word} {s : Bool} (hg : g ≠ 0)
    (h : value32 x = .inf s ∨ ∃ e, value32 x = .fin s 0 e) : fscale32 x g = x := by
  obtain ⟨n, k, hgain, hn⟩ := gainF32_pos hg
  have hnan : isNaN32 x = false := (sign_of_hasSign (h.imp_right fun ⟨e, he⟩ => ⟨0, e, he⟩)).1
  rw [fscale32_eq_mul32 g hnan, mul32, hgain]
  refine Eq.trans ?_ (round32_value32 hnan)
  obtain hv | ⟨e, hv⟩ := h
  · rw [hv, mulVal_inf_fin hn, Bool.xor_false]
  · rw [hv, mulVal_fin_fin, Bool.xor_false]
    exact round32_congr s (by simp)

/-- Settles O21: the multiplier of such a gain is a positive finite number. -/
theorem floatSampleScaling : Obligations.FloatSampleScaling := by
  intro x g hg _
  refine ⟨fscale32_of_nan g, fun h => ⟨fscale32_eq_mul32 g h, sign_of_hasSign (hasSign_fscale32 hg h)⟩,
    fun neg m n e k hx hgain => ?_, ?_⟩
  · have hnan := (sign_of_hasSign (.inr ⟨m, e, hx⟩)).1
    obtain ⟨p, y, hproduct, hmul⟩ := mul32_fin hx hgain
    rw [Bool.xor_false] at hproduct hmul
    exact ⟨p, y, hproduct, (fscale32_eq_mul32 g hnan).trans hmul⟩
  · rintro (rfl | rfl | rfl | rfl)
    · exact fscale32_of_inf_or_zero (s := false) hg (.inl (by decide))
    · exact fscale32_of_inf_or_zero (s := true) hg (.inl (by decide))
    · exact fscale32_of_inf_or_zero (s := false) hg (.inr ⟨-149, by decide⟩)
    · exact fscale32_of_inf_or_zero (s := true) hg (.inr ⟨-149, by decide⟩)

end Sys2Proof.Machine
end

section
/-! VOL's prechecks, the whole chunk it leaves and what that depends on (43_volume_scaler.md R201 to R205). -/

namespace Sys2Proof.Machine

/-! ### The prechecks, each where those before it pass (R201) -/

section
variable {s : State} {f : Fmt}

theorem volCheck_of_badFormat (hfmt : formatOf s.spec = none) : volCheck s = .error (plainErr .badFormat) := by
  simp [volCheck, hfmt]

variable (hfmt : formatOf s.spec = some f)
include hfmt

theorem volCheck_of_badChannels (hbad : badChannels s.spec = true) : volCheck s = .error (plainErr .badSpec) := by
  simp [volCheck, hfmt, hbad]

variable (hch : badChannels s.spec = false)
include hch

theorem volCheck_of_volLen_ne (hbad : s.volLen ≠ s.spec.channels) : volCheck s = .error (plainErr .volLen) := by
  have hne : s.volLen.toNat ≠ channelsOf s.spec := BitVec.toNat_ne_iff_ne.mpr hbad
  simp [volCheck, hfmt, hch, hne]

variable (hlen : s.volLen.toNat = channelsOf s.spec)
include hlen

theorem volCheck_of_badGain {c : Nat} (hbad : badGain s.vol (channelsOf s.spec) = some c) :
    volCheck s = .error (volumeErr c) := by
  simp [volCheck, hfmt, hch, hlen, hbad]

variable (hgain : badGain s.vol (channelsOf s.spec) = none)
include hgain

theorem volCheck_of_badLength (hbad : badLength f (channelsOf s.spec) s.dst = true) :
    volCheck s = .error (plainErr .badLength) := by
  simp [volCheck, hfmt, hch, hlen, hgain, hbad]

variable (hmul : badLength f (channelsOf s.spec) s.dst = false)
include hmul

theorem volCheck_of_addrWraps (hbad : addrWraps s.dst = true) : volCheck s = .error (plainErr .addrWrap) := by
  simp [volCheck, hfmt, hch, hlen, hgain, hmul, hbad]

theorem volCheck_of_not_excl (hend : addrWraps s.dst = false) (hbad : s.excl = false) :
    volCheck s = .error (plainErr .notExcl) := by
  simp [volCheck, hfmt, hch, hlen, hgain, hmul, hend, hbad]

end

/-- A failing precheck of VOL is the fault it enters, with its own word (R254). -/
theorem exec_vol_of_volCheck_error {s : State} {v : Violation} (hs : s.phase = .idle) (h : volCheck s = .error v) :
    exec .vol s = .next (faulted s (errNum v.code) v.info 3) :=
  exec_of_body_error hs (by simp [bodyOf, volBody, h])

/-- Settles O25: the first failing check decides, and operands that pass them all are `VolOk`. -/
theorem volFaultOrder : Obligations.VolFaultOrder := by
  intro s hs
  refine ⟨fun htag => exec_vol_of_volCheck_error hs (volCheck_of_badFormat ((formatOf_eq_none_iff _).mpr htag)),
    fun f hfmt => ⟨fun hbad => exec_vol_of_volCheck_error hs
      (volCheck_of_badChannels hfmt ((badChannels_iff _).mpr hbad)), fun hlo hhi => ?_⟩⟩
  have hch := (badChannels_eq_false_iff s.spec).mpr ⟨hlo, hhi⟩
  refine ⟨fun hbad => exec_vol_of_volCheck_error hs (volCheck_of_volLen_ne hfmt hch hbad), fun hvlen => ?_⟩
  have hlen : s.volLen.toNat = channelsOf s.spec := congrArg BitVec.toNat hvlen
  refine ⟨fun c hc hbad hlow =>
    exec_vol_of_volCheck_error hs (volCheck_of_badGain hfmt hch hlen (badGain_eq_some hc hbad hlow)),
    fun hlegal => ?_⟩
  have hgain := (badGain_eq_none_iff s.vol (channelsOf s.spec)).mpr hlegal
  refine ⟨fun hbad => exec_vol_of_volCheck_error hs
    (volCheck_of_badLength hfmt hch hlen hgain ((badLength_iff _ _ _).mpr hbad)), fun hframes => ?_⟩
  have hmul := (badLength_eq_false_iff f (channelsOf s.spec) s.dst).mpr hframes
  refine ⟨fun hbad => exec_vol_of_volCheck_error hs
    (volCheck_of_addrWraps hfmt hch hlen hgain hmul ((addrWraps_iff _).mpr hbad)), fun hfits => ?_⟩
  have hend := (addrWraps_eq_false_iff s.dst).mpr hfits
  exact ⟨fun hbad => exec_vol_of_volCheck_error hs (volCheck_of_not_excl hfmt hch hlen hgain hmul hend hbad),
    fun hexcl => ⟨_, exec_vol_of_volOk hs ⟨hfmt, hlo, hhi, hvlen, hlegal, hframes, hfits, hexcl⟩⟩⟩

/-! ### The chunk VOL leaves (R202, R203) -/

/-- The bytes of a sample under an integer format: its value scaled, clipped and encoded unless the gain is NORM or
MUTED (R202). -/
theorem volBytes_int (f : IntFmt) (g : Word) (bs : List Byte) :
    volBytes (.int f) g bs =
      if g = 0x00010000 then bs else if g = 0 then zeroCode (.int f)
      else encInt f (clamp (intLo f) (intHi f) (imul (decInt f bs) g)) := rfl

/-- The bytes of a sample under a float format: its pattern multiplied unless the gain is NORM or MUTED (R202). -/
theorem volBytes_flt (f : FltFmt) (g : Word) (bs : List Byte) :
    volBytes (.flt f) g bs =
      if g = 0x00010000 then bs else if g = 0 then zeroCode (.flt f)
      else encFlt f (fscale32 (decFlt f bs) g) := rfl

/-- Settles O26: each sample is `volBytes` of its own bytes under its channel's gain, and no sample reaches outside the
chunk. -/
theorem volTransformsEverySample : Obligations.VolTransformsEverySample := by
  intro s f hs hm hok
  refine ⟨_, exec_vol_of_volOk hs hok, fun k hk => ?_, fun a ha => readByte_volMem_outside f s ha⟩
  have hsample := memRead_volMem_of_volOk hm hok hk
  cases f with
  | int f => exact hsample.trans (volBytes_int f _ _)
  | flt f => exact hsample.trans (volBytes_flt f _ _)

/-! ### What the chunk depends on (R205) -/

/-- Two chunks of whole samples hold the same bytes exactly when they hold the same samples (20_memory.md R66). -/
theorem readByte_chunk_eq_iff_memRead_sample_eq {f : Fmt} {c c' : Chunk} {m m' : List Host.Cell}
    (hfill : sampleCount f c * fmtWidth f = c.length.toNat) :
    (∀ j < c.length.toNat, readByte m (chunkEA c + j) = readByte m' (chunkEA c' + j)) ↔
      ∀ k < sampleCount f c, memRead m (sampleAddr f c k) (fmtWidth f) = memRead m' (sampleAddr f c' k) (fmtWidth f) := by
  simp only [memRead_eq_iff, sampleAddr, Nat.add_assoc]
  constructor
  · intro h k hk r hr
    refine h _ ?_
    calc k * fmtWidth f + r < (k + 1) * fmtWidth f := by rw [Nat.succ_mul]; omega
      _ ≤ sampleCount f c * fmtWidth f := Nat.mul_le_mul_right _ hk
      _ = c.length.toNat := hfill
  · intro h j hj
    rw [← Nat.div_add_mod' j (fmtWidth f)]
    exact h _ (Nat.div_lt_of_lt_mul (by rwa [Nat.mul_comm, hfill])) _ (Nat.mod_lt _ (fmtWidth_pos f))

/-- Equal channel counts and equal gains below them give every sample the same gain (R203). -/
theorem volGain_congr {f : Fmt} {s s' : State} (h : VolOk f s) (hspec : s.spec = s'.spec)
    (hgain : ∀ c < s.spec.channels.toNat, gainAt s.vol c = gainAt s'.vol c) (k : Nat) : volGain s k = volGain s' k := by
  obtain ⟨-, hlo, -⟩ := h
  rw [volGain, volGain, ← hspec]
  exact hgain _ (Nat.mod_lt k hlo)

/-- The samples of a chunk that VOL accepts fill it. -/
theorem samples_fill_of_volOk {f : Fmt} {s : State} (h : VolOk f s) :
    sampleCount f s.dst * fmtWidth f = s.dst.length.toNat := by
  obtain ⟨-, -, -, -, -, hmul, -⟩ := h
  exact samples_fill ((badLength_eq_false_iff f _ _).mpr hmul)

/-- Settles O28: sample by sample, both results are `volBytes` of the same bytes under the same gain. -/
theorem volDeterminism : Obligations.VolDeterminism := by
  intro s s' f hs hs' hm hm' hok hok' hspec hlen hgain hbytes
  refine ⟨_, _, exec_vol_of_volOk hs hok, exec_vol_of_volOk hs' hok', ?_⟩
  have hfill := samples_fill_of_volOk hok
  rw [readByte_chunk_eq_iff_memRead_sample_eq hfill] at hbytes ⊢
  intro k hk
  have hk' : k < sampleCount f s'.dst := by rwa [sampleCount, ← hlen]
  rw [memRead_volMem_of_volOk hm hok hk, memRead_volMem_of_volOk hm' hok' hk', hbytes k hk,
    volGain_congr hok hspec hgain]

end Sys2Proof.Machine
end

section
/-! The float final step of MIX and a single float input at NORM (44_mixer.md R227, R231). -/

namespace Sys2Proof.Machine

/-! ### Magnitudes -/

/-- A magnitude aligned to a lower exponent is the same number. -/
theorem aligned_magnitude (m : Nat) {e f : Int} (h : f ≤ e) :
    ((m * 2 ^ (e - f).toNat : Nat) : Rat) * 2 ^ f = m * 2 ^ e := by
  have hvalue := signedAt_value false m h
  rwa [signedAt, if_neg Bool.false_ne_true, if_neg Bool.false_ne_true, Int.cast_natCast, one_mul] at hvalue

/-- `magLe` compares the magnitudes. -/
theorem magLe_iff (m n : Nat) (e f : Int) : magLe m e n f = true ↔ (m : Rat) * 2 ^ e ≤ n * 2 ^ f := by
  unfold magLe
  by_cases h : f ≤ e
  · rw [if_pos h, decide_eq_true_eq, ← aligned_magnitude m h, mul_le_mul_iff_left₀ (by positivity), Nat.cast_le]
  · rw [if_neg h, decide_eq_true_eq, ← aligned_magnitude n (le_of_not_ge h), mul_le_mul_iff_left₀ (by positivity),
      Nat.cast_le]

/-- Equal values other than zero have one sign and one magnitude. -/
theorem ratOf_eq_ratOf {s t : Bool} {m n : Nat} {e f : Int} (h : ratOf s m e = ratOf t n f) (hm : m ≠ 0) :
    s = t ∧ (m : Rat) * 2 ^ e = n * 2 ^ f := by
  have hpos : (0 : Rat) < m * 2 ^ e := by positivity
  have hnonneg : (0 : Rat) ≤ n * 2 ^ f := by positivity
  rw [ratOf, ratOf, mul_assoc, mul_assoc] at h
  cases s <;> cases t <;> simp only [if_true, Bool.false_eq_true, if_false] at h
  · exact ⟨rfl, by linarith⟩
  · linarith
  · linarith
  · exact ⟨rfl, by linarith⟩

/-! ### The final step (R227) -/

/-- The magnitude of `fltMax` as R12 writes it. -/
theorem fltMax_magnitude : ((2 ^ 24 - 1 : Nat) : Rat) * 2 ^ (104 : Int) = (2 - 1 / 2 ^ 23) * 2 ^ 127 := by norm_num

theorem round32_fltMax (neg : Bool) : round32 (fltMax neg) = if neg then 0xFF7FFFFF else 0x7F7FFFFF := by
  cases neg <;> rfl

theorem fsat32_nan {d : F64} (h : value64 d = .nan) : fsat32 d = 0x7FC00000 := by
  rw [fsat32, h]
  rfl

theorem fsat32_inf {d : F64} {neg : Bool} (h : value64 d = .inf neg) :
    fsat32 d = if neg then 0xFF7FFFFF else 0x7F7FFFFF := by
  rw [fsat32, h, clampVal, round32_fltMax]

/-- Up to `FLT_MAX` the final step is the plain conversion. -/
theorem fsat32_of_le {d : F64} {neg : Bool} {m : Nat} {e : Int} (hd : value64 d = .fin neg m e)
    (h : (m : Rat) * 2 ^ e ≤ (2 - 1 / 2 ^ 23) * 2 ^ 127) : fsat32 d = cvtF64F32 d := by
  rw [← fltMax_magnitude, ← magLe_iff] at h
  rw [fsat32, cvtF64F32, hd, clampVal, if_pos h]

/-- Beyond `FLT_MAX` it is the bound of the sign. -/
theorem fsat32_of_lt {d : F64} {neg : Bool} {m : Nat} {e : Int} (hd : value64 d = .fin neg m e)
    (h : (2 - 1 / 2 ^ 23) * 2 ^ 127 < (m : Rat) * 2 ^ e) : fsat32 d = if neg then 0xFF7FFFFF else 0x7F7FFFFF := by
  rw [← fltMax_magnitude, ← not_le, ← magLe_iff] at h
  rw [fsat32, hd, clampVal, if_neg h, round32_fltMax]

theorem finite32_of_value32_fin {x : Word} {neg : Bool} {m : Nat} {e : Int} (h : value32 x = .fin neg m e) :
    Finite32 x := by
  obtain ⟨-, hex, -⟩ := fieldsValue_fin h
  exact hex

theorem finite32_fltMax (neg : Bool) : Finite32 (if neg then 0xFF7FFFFF else 0x7F7FFFFF) :=
  finite32_of_value32_fin (neg := neg) (m := 2 ^ 24 - 1) (e := 104) (by cases neg <;> decide)

/-- Up to `FLT_MAX`, which lies below the overflow threshold, a conversion is finite. -/
theorem finite32_round32 (neg : Bool) {m : Nat} {e : Int} (h : (m : Rat) * 2 ^ e ≤ (2 - 1 / 2 ^ 23) * 2 ^ 127) :
    Finite32 (round32 (.fin neg m e)) := by
  have hbelow : ratOf false m e < 2 ^ 128 - 2 ^ 103 := by
    rw [ratOf_false]
    exact lt_of_le_of_lt h (by norm_num)
  obtain ⟨m', e', hfin, -⟩ := round32_nearest neg m e hbelow
  exact finite32_of_value32_fin hfin

/-- The final step never gives an infinity. -/
theorem fsat32_qnan_or_finite (d : F64) : fsat32 d = 0x7FC00000 ∨ Finite32 (fsat32 d) := by
  cases hd : value64 d with
  | nan => exact .inl (fsat32_nan hd)
  | inf neg =>
    rw [fsat32_inf hd]
    exact .inr (finite32_fltMax neg)
  | fin neg m e =>
    right
    rcases le_or_gt ((m : Rat) * 2 ^ e) ((2 - 1 / 2 ^ 23) * 2 ^ 127) with hle | hlt
    · rw [fsat32_of_le hd hle, cvtF64F32, hd]
      exact finite32_round32 neg hle
    · rw [fsat32_of_lt hd hlt]
      exact finite32_fltMax neg

/-- Settles O24: the class of the value, and for a finite one its side of `FLT_MAX`, decide the result. -/
theorem floatFinalStep : Obligations.FloatFinalStep := by
  refine ⟨fsat32_nan rfl, fsat32_qnan_or_finite, fun d neg m e hd => ?_, fun d neg => fsat32_inf⟩
  rw [ratOf_false]
  exact ⟨fsat32_of_le hd, fsat32_of_lt hd⟩

/-! ### One input at NORM (R231) -/

/-- At NORM the contribution of a sample is the sample, widened. -/
theorem fcontrib64_norm (x : Word) : fcontrib64 x Config.volNorm = cvtF32F64 x := by
  obtain ⟨n, k, hgain, hone⟩ := value64_gainF64 Config.volNorm
  rw [show (Config.volNorm.toNat : Rat) / 2 ^ 16 = 1 by norm_num [Config.volNorm], ratOf_false] at hone
  rw [fcontrib64, mul64, hgain]
  cases hx : value32 x with
  | nan =>
    rw [cvtF32F64_nan ((value32_nan_iff x).mp hx)]
    rfl
  | inf neg =>
    have hn : n ≠ 0 := by
      rintro rfl
      simp at hone
    rw [value64_cvtF32F64_inf hx, mulVal_inf_fin hn, Bool.xor_false, cvtF32F64, hx]
  | fin neg m e =>
    obtain ⟨m', e', hwide, hvalue⟩ := value64_cvtF32F64_fin hx
    have hproduct : ((m' * n : Nat) : Rat) * 2 ^ (e' + k) = m * 2 ^ e := by
      rw [Nat.cast_mul, zpow_add₀ two_ne_zero, mul_mul_mul_comm, hone, mul_one, hvalue]
    rw [hwide, mulVal_fin_fin, Bool.xor_false, cvtF32F64, hx, round64, round64, roundFields_congr _ hproduct]

theorem isNaN32_of_value32_fin {x : Word} {neg : Bool} {m : Nat} {e : Int} (h : value32 x = .fin neg m e) :
    isNaN32 x = false := (sign_of_hasSign (.inr ⟨m, e, h⟩)).1

/-- A negative zero is one pattern. -/
theorem eq_negZero_of_value32 {x : Word} {e : Int} (h : value32 x = .fin true 0 e) : x = 0x80000000 := by
  rw [← round32_value32 (isNaN32_of_value32_fin h), h,
    round32_congr true (m' := 0) (e' := 0) (by simp)]
  rfl

/-- `+0.0` plus a widened sample other than `-0.0` is that sample. -/
theorem add64_zero_cvtF32F64 {x : Word} (h : x ≠ 0x80000000) : add64 (.bits 0) (cvtF32F64 x) = cvtF32F64 x := by
  have hzero : value64 (.bits 0) = .fin false 0 (-1074) := by decide
  cases hx : value32 x with
  | nan =>
    rw [cvtF32F64_nan ((value32_nan_iff x).mp hx)]
    rfl
  | inf neg => rw [add64, hzero, value64_cvtF32F64_inf hx, addVal_fin_inf, cvtF32F64, hx]
  | fin neg m e =>
    obtain ⟨m', e', hwide, hvalue⟩ := value64_cvtF32F64_fin hx
    obtain ⟨u, p, y, hsum, hadd, hsign⟩ := add64_fin hzero hwide
    rw [ratOf_congr neg hvalue, show ratOf false 0 (-1074) = 0 by simp [ratOf], zero_add] at hsum
    obtain ⟨hu, hmag⟩ : u = neg ∧ (p : Rat) * 2 ^ y = m * 2 ^ e := by
      by_cases hp : p = 0
      · have hm : m = 0 := by
          by_contra hm
          have hmag := (ratOf_eq_ratOf hsum.symm hm).2
          rw [hp, Nat.cast_zero, zero_mul] at hmag
          exact absurd hmag (by positivity)
        subst hp hm
        have hneg : neg = false := by
          by_contra hneg
          rw [Bool.not_eq_false] at hneg
          exact h (eq_negZero_of_value32 (hneg ▸ hx))
        exact ⟨by rw [hsign rfl, hneg, Bool.and_false], by simp⟩
      · exact ratOf_eq_ratOf hsum hp
    rw [hadd, cvtF32F64, hx, round64, round64, hu, roundFields_congr _ hmag]

/-- A finite sample lies within `FLT_MAX`, so the final step gives back what was widened. -/
theorem fsat32_cvtF32F64_fin {x : Word} {neg : Bool} {m : Nat} {e : Int} (h : value32 x = .fin neg m e) :
    fsat32 (cvtF32F64 x) = x := by
  obtain ⟨m', e', hwide, hvalue⟩ := value64_cvtF32F64_fin h
  obtain ⟨hm, -, he⟩ := value32_fin_range h
  have hbound : (m : Rat) * 2 ^ e ≤ (2 - 1 / 2 ^ 23) * 2 ^ 127 := by
    rw [← fltMax_magnitude]
    exact mul_le_mul (by exact_mod_cast Nat.le_sub_one_of_lt hm) (zpow_le_zpow_right₀ (by norm_num) he)
      (by positivity) (by positivity)
  rw [fsat32_of_le hwide (hvalue.trans_le hbound), cvtF64F32_cvtF32F64 (isNaN32_of_value32_fin h)]

/-- The final step keeps `+0.0`, the sum where nothing is added. -/
theorem fsat32_zero : fsat32 (.bits 0) = 0 := by
  have hwide : cvtF32F64 0 = .bits 0 := by decide
  rw [← hwide]
  exact fsat32_cvtF32F64_fin (neg := false) (m := 0) (e := -149) (by decide)

/-- Settles O36: `-0.0` apart, the sum is the widened sample, whose class the final step decides on. -/
theorem floatNormCopy : Obligations.FloatNormCopy := by
  intro x
  rw [fcontrib64_norm]
  by_cases hneg : x = 0x80000000
  · have hsum : add64 (.bits 0) (cvtF32F64 0x80000000) = .bits 0 := by decide
    rw [hneg, hsum, fsat32_zero]
    rfl
  rw [add64_zero_cvtF32F64 hneg, if_neg hneg]
  cases hx : value32 x with
  | nan =>
    have hnan := (value32_nan_iff x).mp hx
    rw [if_pos hnan, cvtF32F64_nan hnan, fsat32_nan rfl]
  | inf neg =>
    have hnan := (sign_of_hasSign (.inl hx)).1
    have hpattern : x = round32 (.inf neg) := by rw [← hx, round32_value32 hnan]
    rw [fsat32_inf (value64_cvtF32F64_inf hx), hpattern]
    cases neg <;> rfl
  | fin neg m e =>
    have hnan := isNaN32_of_value32_fin hx
    have hinf : ∀ s, x ≠ round32 (.inf s) := by
      rintro s rfl
      rw [value32_round32_inf] at hx
      cases hx
    have hpos : x ≠ 0x7F800000 := hinf false
    have hmin : x ≠ 0xFF800000 := hinf true
    rw [if_neg (by simp [hnan]), if_neg hpos, if_neg hmin, fsat32_cvtF32F64_fin hx]

end Sys2Proof.Machine
end

section
/-! The accumulators and the output samples of MIX (44_mixer.md R220 to R236): what each accumulator holds, the samples
a completed MIX leaves, and what they depend on. -/

namespace Sys2Proof.Machine

/-! ### Complementary gains (R235) -/

/-- Settles O37: the two products are `s * 2^16` in all, and each is rounded once. -/
theorem halfWeightWithinOneUnit : Obligations.HalfWeightWithinOneUnit := by
  refine fun s => ⟨fun g g' hsum => ?_, ?_⟩
  · have htotal : s * (g.toNat : Int) + s * g'.toNat = s * 65536 := by
      rw [← mul_add]
      congr 1
      exact_mod_cast hsum
    rw [imul_eq, imul_eq]
    omega
  · rw [imul_eq, show ((0x8000 : Word).toNat : Int) = 32768 from rfl]
    omega

/-! ### The integer accumulator (R223, R224) -/

/-- The contribution of input `i` to output sample `k` over memory `m`: 0 where the input has no bytes left. -/
def intContribution (f : IntFmt) (s : State) (m : List Host.Cell) (k i : Nat) : Int :=
  if k * intWidth f + intWidth f ≤ (inputAt s.inputs i).chunk.length.toNat then
    imul (decInt f (memRead m (sampleAddr (.int f) (inputAt s.inputs i).chunk k) (intWidth f))) (mixGain s i k)
  else 0

/-- A legal gain makes a contribution of at most `2^46` (R183). -/
theorem intContribution_abs_le (f : IntFmt) {s : State} (m : List Host.Cell) {k i : Nat}
    (hg : (mixGain s i k).toNat ≤ 0x7FFFFFFF) : |intContribution f s m k i| ≤ 2 ^ 46 := by
  unfold intContribution
  split
  · exact imul_abs_le (decInt_abs_le f _) hg
  · norm_num

/-- An input that is not read contributes 0: it has no bytes left, or it is MUTED. -/
theorem intContribution_of_not_mixReads {f : IntFmt} {s : State} (m : List Host.Cell) {k i : Nat}
    (h : mixReads (.int f) s i k = false) : intContribution f s m k i = 0 := by
  unfold intContribution
  split
  next hbytes =>
    have hmuted : mixGain s i k = Config.volMuted := by
      simpa [mixReads, (contributes_iff (.int f) (inputAt s.inputs i) k).mpr hbytes] using h
    rw [hmuted, imul_muted]
  next => rfl

theorem intContribution_of_mixReads {f : IntFmt} {s : State} (m : List Host.Cell) {k i : Nat}
    (h : mixReads (.int f) s i k = true) :
    intContribution f s m k i =
      imul (decInt f (memRead m (sampleAddr (.int f) (inputAt s.inputs i).chunk k) (fmtWidth (.int f))))
        (mixGain s i k) := by
  obtain ⟨hbytes, -⟩ := Bool.and_eq_true_iff.mp h
  exact if_pos ((contributes_iff (.int f) _ _).mp hbytes)

/-- Each input, read or not, adds its contribution while the sum fits the 64 bits (R224). -/
theorem mixAccs_int_succ {f : IntFmt} {s : State} {m : List Host.Cell} {k n : Nat}
    (hfit : |(mixAccs (.int f) s m k n).acc.toInt + intContribution f s m k n| ≤ 2 ^ 62) :
    (mixAccs (.int f) s m k (n + 1)).acc.toInt =
      (mixAccs (.int f) s m k n).acc.toInt + intContribution f s m k n := by
  rw [mixAccs]
  cases hreads : mixReads (.int f) s n k with
  | false => rw [if_neg Bool.false_ne_true, intContribution_of_not_mixReads m hreads, add_zero]
  | true =>
    rw [intContribution_of_mixReads m hreads, abs_le] at hfit
    rw [if_pos rfl, intContribution_of_mixReads m hreads]
    exact sadd64_exact (by omega) (by omega)

/-- The accumulator after `n` inputs is their exact sum, at most `n * 2^46`. -/
theorem mixAccs_int_exact {f : IntFmt} {s : State} (m : List Host.Cell) {k : Nat} : ∀ n ≤ 32,
    (∀ i < n, (mixGain s i k).toNat ≤ 0x7FFFFFFF) →
    (mixAccs (.int f) s m k n).acc.toInt = ((List.range n).map (intContribution f s m k)).sum ∧
    |(mixAccs (.int f) s m k n).acc.toInt| ≤ n * 2 ^ 46
  | 0, _, _ => ⟨rfl, by simp [mixAccs, accsZero]⟩
  | n + 1, hn, hgain => by
    obtain ⟨hsum, hbound⟩ := mixAccs_int_exact m n (by omega) fun i hi => hgain i (by omega)
    have hlast := intContribution_abs_le f m (hgain n n.lt_succ_self)
    have htotal : |(mixAccs (.int f) s m k n).acc.toInt + intContribution f s m k n| ≤ (n + 1 : Nat) * 2 ^ 46 := by
      refine (abs_add_le _ _).trans ((add_le_add hbound hlast).trans_eq ?_)
      push_cast
      ring
    rw [mixAccs_int_succ (htotal.trans (by omega)), List.sum_range_succ, ← hsum]
    exact ⟨rfl, htotal⟩

/-- Settles O33: 32 contributions of at most `2^46` make at most `2^51`. -/
theorem accumulatorIsExact : Obligations.AccumulatorIsExact := by
  intro s f m k nin hnin hgain
  obtain ⟨hsum, hbound⟩ := mixAccs_int_exact m nin hnin hgain
  exact ⟨hsum, hbound.trans (by omega)⟩

/-! ### The float accumulator (R226, R229) -/

/-- The float accumulator of output sample `k` after input `i`, from `acc` before it: inputs without bytes and MUTED
inputs are passed over. -/
def fltStep (f : FltFmt) (s : State) (m : List Host.Cell) (k : Nat) (acc : F64) (i : Nat) : F64 :=
  if k * 4 + 4 ≤ (inputAt s.inputs i).chunk.length.toNat ∧ mixGain s i k ≠ 0 then
    add64 acc (fcontrib64 (decFlt f (memRead m (chunkEA (inputAt s.inputs i).chunk + k * 4) 4)) (mixGain s i k))
  else acc

theorem mixReads_flt_iff (f : FltFmt) (s : State) (i k : Nat) :
    mixReads (.flt f) s i k = true ↔
      k * 4 + 4 ≤ (inputAt s.inputs i).chunk.length.toNat ∧ mixGain s i k ≠ 0 := by
  rw [mixReads, Bool.and_eq_true, contributes_iff, decide_eq_true_eq]
  rfl

/-- The inputs are added in ascending index from `+0.0`. -/
theorem mixAccs_flt_eq_foldl (f : FltFmt) (s : State) (m : List Host.Cell) (k : Nat) : ∀ n,
    (mixAccs (.flt f) s m k n).facc = (List.range n).foldl (fltStep f s m k) (.bits 0)
  | 0 => rfl
  | n + 1 => by
    rw [List.range_succ, List.foldl_append, ← mixAccs_flt_eq_foldl f s m k n, List.foldl_cons, List.foldl_nil,
      mixAccs, fltStep]
    by_cases hreads : mixReads (.flt f) s n k = true
    · rw [if_pos hreads, if_pos ((mixReads_flt_iff f s n k).mp hreads)]
      rfl
    · rw [if_neg hreads, if_neg (mt (mixReads_flt_iff f s n k).mpr hreads)]

/-! ### The destination of a completed MIX (R220) -/

section
variable {f : Fmt} {nin : Nat} {s : State}

theorem exec_mix_of_mixOk (hs : s.phase = .idle) (hok : MixOk f nin s) :
    exec (.mix nin) s = .next { s with mem := mixMem f nin s (sampleCount f s.dst), done := true } :=
  exec_mix_of_mixCheck hs (mixCheck_of_mixOk hok)

theorem nin_le_of_mixOk (hok : MixOk f nin s) : nin ≤ 32 := by
  obtain ⟨⟨hnin, -⟩, -⟩ := hok
  exact hnin

theorem addrWraps_dst_of_mixOk (hok : MixOk f nin s) : addrWraps s.dst = false := by
  obtain ⟨⟨-, -, -, -, -, hwrap, -⟩, -⟩ := hok
  exact (addrWraps_eq_false_iff _).mpr hwrap

theorem samples_fill_of_mixOk (hok : MixOk f nin s) : sampleCount f s.dst * fmtWidth f = s.dst.length.toNat := by
  obtain ⟨⟨-, -, -, -, hlen, -⟩, -⟩ := hok
  exact samples_fill ((badLength_eq_false_iff f _ _).mpr hlen)

/-- The gains of a MIX past its prechecks are legal. -/
theorem mixGain_le_of_mixOk (hok : MixOk f nin s) {i : Nat} (hi : i < nin) (k : Nat) :
    (mixGain s i k).toNat ≤ 0x7FFFFFFF := by
  obtain ⟨⟨-, -, hpos, -⟩, hinputs⟩ := hok
  obtain ⟨-, -, -, hgain, -⟩ := hinputs i hi
  exact hgain _ (Nat.mod_lt k hpos)

/-- Each sample of a finished MIX is what the accumulators give over memory as that sample finds it. -/
theorem memRead_mixMem_of_mixOk (hm : memWf s.mem = true) (hok : MixOk f nin s) {k : Nat}
    (hk : k < sampleCount f s.dst) :
    memRead (mixMem f nin s (sampleCount f s.dst)) (sampleAddr f s.dst k) (fmtWidth f) =
      mixOut f (mixAccs f s (mixMem f nin s k) k nin) :=
  memRead_mixMem hm (addrWraps_dst_of_mixOk hok) hk le_rfl

/-- Where no input byte is overwritten before it is read, that is memory as it was (R78). -/
theorem memRead_mixMem_of_readBeforeOverwritten (hm : memWf s.mem = true) (hok : MixOk f nin s)
    (hread : ∀ i < nin, ReadBeforeOverwritten s i) {k : Nat} (hk : k < sampleCount f s.dst) :
    memRead (mixMem f nin s (sampleCount f s.dst)) (sampleAddr f s.dst k) (fmtWidth f) =
      mixOut f (mixAccs f s s.mem k nin) := by
  have hbytes := fun i hi hc j hj =>
    readByte_mixMem_input f nin s (j := j) hj ((contributes_iff f (inputAt s.inputs i) k).mp hc) (hread i hi)
  rw [memRead_mixMem_of_mixOk hm hok hk, mixAccs_congr f s k nin hbytes]

end

/-- Settles O30: the accumulator is the exact sum, clipped once on the way out. -/
theorem mixIntegerSamples : Obligations.MixIntegerSamples := by
  intro s f nin hs hm hok hread
  refine ⟨_, exec_mix_of_mixOk hs hok, fun k hk => ?_, fun a ha => readByte_mixMem_outside (.int f) nin s ha⟩
  have hnin := nin_le_of_mixOk hok
  obtain ⟨hsum, -⟩ := accumulatorIsExact s f s.mem k nin hnin fun i hi => mixGain_le_of_mixOk hok hi k
  refine (memRead_mixMem_of_readBeforeOverwritten hm hok hread hk).trans ?_
  exact congrArg (fun v => encInt f (clamp (intLo f) (intHi f) v)) hsum

/-- Settles O31: the accumulator is the sum in ascending input index. -/
theorem mixFloatSamples : Obligations.MixFloatSamples := by
  intro s f nin hs hm hok hread
  refine ⟨_, exec_mix_of_mixOk hs hok, fun k hk => ?_, fun a ha => readByte_mixMem_outside (.flt f) nin s ha⟩
  refine (memRead_mixMem_of_readBeforeOverwritten hm hok hread hk).trans ?_
  exact congrArg (fun d => encFlt f (fsat32 d)) (mixAccs_flt_eq_foldl f s s.mem k nin)

/-- The output of untouched accumulators is the zero code (R231). -/
theorem mixOut_accsZero (f : Fmt) : mixOut f accsZero = zeroCode f := by
  cases f with
  | int f =>
    obtain ⟨hlo, hhi⟩ := inRange_zero f
    exact congrArg (encInt f) (clamp_of_mem hlo hhi)
  | flt f => exact congrArg (encFlt f) fsat32_zero

/-- Settles O34: without a contributing input the accumulators stay as they started. -/
theorem mixSilenceWithoutInput : Obligations.MixSilenceWithoutInput := by
  intro s f nin hs hm hok
  refine ⟨_, exec_mix_of_mixOk hs hok, fun k hk hshort => ?_⟩
  have hsilent : ∀ i < nin, contributes f (inputAt s.inputs i) k = false := fun i hi => by
    rw [← Bool.not_eq_true, contributes_iff, not_le]
    exact hshort i hi
  rw [memRead_mixMem_of_mixOk hm hok hk, mixAccs_silent f s _ k nin hsilent, mixOut_accsZero]

/-- Settles O35: every sample is the encoding of a final step. -/
theorem mixNeverWritesInfinity : Obligations.MixNeverWritesInfinity := by
  intro s f nin hs hm hok
  refine ⟨_, exec_mix_of_mixOk hs hok, fun k hk => ?_⟩
  have hsample : memRead (mixMem (.flt f) nin s (sampleCount (.flt f) s.dst)) (sampleAddr (.flt f) s.dst k) 4 = _ :=
    memRead_mixMem_of_mixOk hm hok hk
  rw [hsample, mixOut, decFlt_encFlt]
  exact fsat32_qnan_or_finite _

/-! ### What the destination depends on (R236) -/

/-- `a` is a byte of an input below `nin`. -/
def InputByte (s : State) (nin a : Nat) : Prop :=
  ∃ i < nin, ∃ j < (inputAt s.inputs i).chunk.length.toNat, a = chunkEA (inputAt s.inputs i).chunk + j

/-- One list written at one place of two memories: they agree there, and where they agreed before. -/
theorem readByte_memWrite_congr {m m' : List Host.Cell} {a x : Nat} {bs : List Byte} (hm : memWf m = true)
    (hm' : memWf m' = true) (hend : a + bs.length ≤ Config.memSize)
    (h : readByte m x = readByte m' x ∨ a ≤ x ∧ x < a + bs.length) :
    readByte (memWrite m a bs) x = readByte (memWrite m' a bs) x := by
  by_cases hin : a ≤ x ∧ x < a + bs.length
  · obtain ⟨j, rfl⟩ := Nat.exists_eq_add_of_le hin.1
    rw [readByte_memWrite_inside bs j hm hend (by omega), readByte_memWrite_inside bs j hm' hend (by omega)]
  · rw [readByte_memWrite_outside bs m (by omega), readByte_memWrite_outside bs m' (by omega), h.resolve_right hin]

/-- Memories that agree on the input bytes give the same accumulators. -/
theorem mixAccs_congr_inputs {f : Fmt} {s s' : State} {m m' : List Host.Cell} {nin : Nat} (hspec : s.spec = s'.spec)
    (hin : ∀ i < nin, inputAt s.inputs i = inputAt s'.inputs i)
    (hbytes : ∀ a, InputByte s nin a → readByte m a = readByte m' a) (k : Nat) :
    mixAccs f s m k nin = mixAccs f s' m' k nin := by
  rw [← mixAccs_congr_state f hspec m' k nin hin]
  refine mixAccs_congr f s k nin fun i hi hc j hj => hbytes _ ⟨i, hi, k * fmtWidth f + j, ?_, ?_⟩
  · have := (contributes_iff f _ k).mp hc
    omega
  · rw [sampleAddr, Nat.add_assoc]

/-- Two MIX commands on one destination chunk: after each output sample the memories agree on what is written and on the
input bytes, whatever overlaps. -/
theorem readByte_mixMem_congr {f : Fmt} {s s' : State} {nin : Nat} (hm : memWf s.mem = true)
    (hm' : memWf s'.mem = true) (hend : addrWraps s.dst = false) (hspec : s.spec = s'.spec) (hdst : s.dst = s'.dst)
    (hin : ∀ i < nin, inputAt s.inputs i = inputAt s'.inputs i)
    (hbytes : ∀ a, InputByte s nin a → readByte s.mem a = readByte s'.mem a) : ∀ n ≤ sampleCount f s.dst, ∀ a,
    (InputByte s nin a ∨ chunkEA s.dst ≤ a ∧ a < sampleAddr f s.dst n) →
    readByte (mixMem f nin s n) a = readByte (mixMem f nin s' n) a
  | 0, _, a, h => by
    rcases h with h | ⟨hlo, hhi⟩
    · exact hbytes a h
    · rw [sampleAddr, Nat.zero_mul] at hhi
      omega
  | n + 1, hn, a, h => by
    have ih := readByte_mixMem_congr (f := f) hm hm' hend hspec hdst hin hbytes n (Nat.le_of_succ_le hn)
    have hout := mixAccs_congr_inputs (f := f) hspec hin (fun a ha => ih a (.inl ha)) n
    have hfit := (sample_in_chunk (f := f) hn).trans (chunk_in_memory hend)
    rw [mixMem, mixMem, mixSample, mixSample, ← hdst, ← hout]
    have hle : n ≤ sampleCount f s.dst := Nat.le_of_succ_le hn
    have hwf := memWf_mixMem (f := f) (nin := nin) hm hend n hle
    have hwf' := memWf_mixMem (f := f) (nin := nin) hm' (hdst ▸ hend) n (hdst ▸ hle)
    refine readByte_memWrite_congr hwf hwf' (by rwa [mixOut_length]) ?_
    rw [mixOut_length]
    by_cases hnew : sampleAddr f s.dst n ≤ a ∧ a < sampleAddr f s.dst n + fmtWidth f
    · exact .inr hnew
    · rw [sampleAddr_succ] at h
      exact .inl (ih a (h.imp_right fun ⟨hlo, hhi⟩ => ⟨hlo, by omega⟩))

/-- Settles O38: on one destination chunk the two runs agree sample by sample as they go; elsewhere each sample is
computed over the input bytes as they were. -/
theorem mixPurity : Obligations.MixPurity := by
  intro s s' f nin hs hs' hm hm' hok hok' hspec hlen hplace hin hinBytes
  refine ⟨_, _, exec_mix_of_mixOk hs hok, exec_mix_of_mixOk hs' hok', ?_⟩
  have hfill := samples_fill_of_mixOk hok
  have hcount : sampleCount f s.dst = sampleCount f s'.dst := by rw [sampleCount, sampleCount, hlen]
  have hbytes : ∀ a, InputByte s nin a → readByte s.mem a = readByte s'.mem a := by
    rintro _ ⟨i, hi, j, hj, rfl⟩
    exact hinBytes i hi j hj
  rcases hplace with hdst | hread
  · intro j hj
    rw [← hcount, ← hdst]
    refine readByte_mixMem_congr hm hm' (addrWraps_dst_of_mixOk hok) hspec hdst hin hbytes _ le_rfl _ (.inr ⟨?_, ?_⟩)
    · omega
    · rw [sampleAddr, hfill]
      omega
  · rw [readByte_chunk_eq_iff_memRead_sample_eq hfill]
    intro k hk
    rw [memRead_mixMem_of_readBeforeOverwritten hm hok (fun i hi => (hread i hi).1) hk,
      memRead_mixMem_of_readBeforeOverwritten hm' hok' (fun i hi => (hread i hi).2) (hcount ▸ hk),
      mixAccs_congr_inputs hspec hin hbytes]

end Sys2Proof.Machine
end

section
/-! MIX's prechecks (44_mixer.md R221): each where those before it pass, those of an input where every earlier input
passes. -/

namespace Sys2Proof.Machine

/-! ### The checks of one input (R221, 7a to 7e) -/

section
variable {s : State} {f : Fmt} {i : Nat}

theorem inputCheck_of_mismatch (hbad : (inputAt s.inputs i).spec ≠ s.spec ∨ (inputAt s.inputs i).rate ≠ s.rate) :
    inputCheck f s i = some (inputErr .specMismatch i) := if_pos hbad

variable (hspec : (inputAt s.inputs i).spec = s.spec) (hrate : (inputAt s.inputs i).rate = s.rate)
include hspec hrate

theorem inputCheck_of_vlen_ne (hbad : (inputAt s.inputs i).vlen ≠ s.spec.channels) :
    inputCheck f s i = some (inputErr .volLen i) := by
  have hne : (inputAt s.inputs i).vlen.toNat ≠ channelsOf s.spec := BitVec.toNat_ne_iff_ne.mpr hbad
  simp [inputCheck, hspec, hrate, hne]

variable (hvlen : (inputAt s.inputs i).vlen.toNat = channelsOf s.spec)
include hvlen

theorem inputCheck_of_badGain {c : Nat} (hbad : badGain (inputAt s.inputs i).vol (channelsOf s.spec) = some c) :
    inputCheck f s i = some (inputVolumeErr i c) := by
  simp [inputCheck, hspec, hrate, hvlen, hbad]

variable (hgain : badGain (inputAt s.inputs i).vol (channelsOf s.spec) = none)
include hgain

theorem inputCheck_of_badLength (hbad : badLength f (channelsOf s.spec) (inputAt s.inputs i).chunk = true) :
    inputCheck f s i = some (inputErr .badLength i) := by
  simp [inputCheck, hspec, hrate, hvlen, hgain, hbad]

theorem inputCheck_of_addrWraps (hmul : badLength f (channelsOf s.spec) (inputAt s.inputs i).chunk = false)
    (hbad : addrWraps (inputAt s.inputs i).chunk = true) : inputCheck f s i = some (inputErr .addrWrap i) := by
  simp [inputCheck, hspec, hrate, hvlen, hgain, hmul, hbad]

end

/-! ### The checks before the inputs, and the first input that fails -/

section
variable {s : State} {f : Fmt} {nin : Nat}

theorem mixCheck_of_badCount (hbad : 32 < nin) : mixCheck nin s = .error (plainErr .badCount) := if_pos hbad

variable (hnin : nin ≤ 32)
include hnin

theorem mixCheck_of_badFormat (hfmt : formatOf s.spec = none) : mixCheck nin s = .error (plainErr .badFormat) := by
  simp [mixCheck, Config.nMax, hnin.not_gt, hfmt]

variable (hfmt : formatOf s.spec = some f)
include hfmt

theorem mixCheck_of_badChannels (hbad : badChannels s.spec = true) : mixCheck nin s = .error (plainErr .badSpec) := by
  simp [mixCheck, Config.nMax, hnin.not_gt, hfmt, hbad]

variable (hch : badChannels s.spec = false)
include hch

theorem mixCheck_of_badLength (hbad : badLength f (channelsOf s.spec) s.dst = true) :
    mixCheck nin s = .error (plainErr .badLength) := by
  simp [mixCheck, Config.nMax, hnin.not_gt, hfmt, hch, hbad]

variable (hmul : badLength f (channelsOf s.spec) s.dst = false)
include hmul

theorem mixCheck_of_addrWraps (hbad : addrWraps s.dst = true) : mixCheck nin s = .error (plainErr .addrWrap) := by
  simp [mixCheck, Config.nMax, hnin.not_gt, hfmt, hch, hmul, hbad]

variable (hend : addrWraps s.dst = false)
include hend

theorem mixCheck_of_not_excl (hbad : s.excl = false) : mixCheck nin s = .error (plainErr .notExcl) := by
  simp [mixCheck, Config.nMax, hnin.not_gt, hfmt, hch, hmul, hend, hbad]

theorem mixCheck_of_inputCheck (hexcl : s.excl = true) {i : Nat} {v : Violation} (hi : i < nin)
    (hbad : inputCheck f s i = some v) (hlow : ∀ i' < i, inputCheck f s i' = none) : mixCheck nin s = .error v := by
  simp [mixCheck, Config.nMax, hnin.not_gt, hfmt, hch, hmul, hend, hexcl, inputsCheck_eq_some hi hbad hlow]

end

/-! ### The fault of a failing check -/

theorem encode_mix {nin : Nat} (h : nin < 64) : encode (.mix nin) = BitVec.ofNat 32 (4 + 256 * nin) := by
  rw [encode, commandWord, Nat.mod_eq_of_lt h]

/-- A failing precheck of MIX is the fault it enters, with its own word (R254). -/
theorem exec_mix_of_mixCheck_error {s : State} {nin : Nat} {v : Violation} (hs : s.phase = .idle) (hn : nin < 64)
    (h : mixCheck nin s = .error v) :
    exec (.mix nin) s = .next (faulted s (errNum v.code) v.info (BitVec.ofNat 32 (4 + 256 * nin))) := by
  rw [← encode_mix hn]
  exact exec_of_body_error hs (by simp [bodyOf, mixBody, h])

/-- Settles O29: the first failing check decides, input by input, and operands that pass them all are `MixOk`. -/
theorem mixFaultOrder : Obligations.MixFaultOrder := by
  intro s nin hs hn bad
  have hfault : ∀ v : Violation, mixCheck nin s = .error v → bad (errNum v.code) v.info :=
    fun v => exec_mix_of_mixCheck_error hs hn
  refine ⟨fun hcount => hfault _ (mixCheck_of_badCount hcount), fun hnin =>
    ⟨fun htag => hfault _ (mixCheck_of_badFormat hnin ((formatOf_eq_none_iff _).mpr htag)), fun f hfmt =>
    ⟨fun hbad => hfault _ (mixCheck_of_badChannels hnin hfmt ((badChannels_iff _).mpr hbad)), fun hlo hhi => ?_⟩⟩⟩
  have hch := (badChannels_eq_false_iff s.spec).mpr ⟨hlo, hhi⟩
  refine ⟨fun hbad => hfault _ (mixCheck_of_badLength hnin hfmt hch ((badLength_iff _ _ _).mpr hbad)),
    fun hframes => ?_⟩
  have hmul := (badLength_eq_false_iff f (channelsOf s.spec) s.dst).mpr hframes
  refine ⟨fun hbad => hfault _ (mixCheck_of_addrWraps hnin hfmt hch hmul ((addrWraps_iff _).mpr hbad)),
    fun hfits => ?_⟩
  have hend := (addrWraps_eq_false_iff s.dst).mpr hfits
  refine ⟨fun hbad => hfault _ (mixCheck_of_not_excl hnin hfmt hch hmul hend hbad), fun hexcl =>
    ⟨fun i hi hlow => ?_, fun hinputs =>
      ⟨_, exec_mix_of_mixOk hs ⟨⟨hnin, hfmt, hlo, hhi, hframes, hfits, hexcl⟩, hinputs⟩⟩⟩⟩
  have hinput : ∀ v : Violation, inputCheck f s i = some v → bad (errNum v.code) v.info := fun v hv =>
    hfault v (mixCheck_of_inputCheck hnin hfmt hch hmul hend hexcl hi hv fun i' hi' =>
      inputCheck_of_inputOk (hlow i' hi'))
  refine ⟨fun hbad => hinput _ (inputCheck_of_mismatch hbad), fun hspec hrate =>
    ⟨fun hbad => hinput _ (inputCheck_of_vlen_ne hspec hrate hbad), fun hvlenEq => ?_⟩⟩
  have hvlen : (inputAt s.inputs i).vlen.toNat = channelsOf s.spec := congrArg BitVec.toNat hvlenEq
  refine ⟨fun c hc hbad hlegal =>
    hinput _ (inputCheck_of_badGain hspec hrate hvlen (badGain_eq_some hc hbad hlegal)), fun hlegal => ?_⟩
  have hgain := (badGain_eq_none_iff (inputAt s.inputs i).vol (channelsOf s.spec)).mpr hlegal
  refine ⟨fun hbad => hinput _ (inputCheck_of_badLength hspec hrate hvlen hgain ((badLength_iff _ _ _).mpr hbad)),
    fun hwhole hbad => hinput _ (inputCheck_of_addrWraps hspec hrate hvlen hgain
      ((badLength_eq_false_iff f _ _).mpr hwhole) ((addrWraps_iff _).mpr hbad))⟩

end Sys2Proof.Machine
end

section
/-! What a block in FAULT does with each act of the host: a reset clears it, every other act leaves the fault as it
stands (R256 to R258). -/

namespace Sys2Proof.Machine

/-- The two acts that are a reset: the reset input, and a `CTRL` write with bit 0 set (R290, R291). -/
def IsReset (act : HostAct) : Prop := act = .hardReset ∨ ∃ w : Word, w.getLsbD 0 = true ∧ act = .write 0x0008 w

/-- `t` is in FAULT with the fault that `s` has recorded (R258). -/
def KeepsFault (s t : State) : Prop :=
  t.phase = .fault ∧ t.errCode = s.errCode ∧ t.errInfo = s.errInfo ∧ t.errCmd = s.errCmd

theorem keepsFault_refl {s : State} (hs : s.phase = .fault) : KeepsFault s s := ⟨hs, rfl, rfl, rfl⟩

theorem not_busy_of_fault {s : State} (hs : s.phase = .fault) : ∀ job, s.phase ≠ .busy job := by simp [hs]

/-- An idle or a faulted block given time waits unchanged (R256, R264). -/
theorem tick_of_not_busy {s : State} (h : ∀ job, s.phase ≠ .busy job) : tick s = .next s := by
  cases hp : s.phase with
  | busy job => exact absurd hp (h job)
  | idle | fault => simp [tick, hp]

/-- A register write in FAULT: `CTRL` with bit 0 set resets the block; no other register reaches the fault. -/
theorem storeReg_in_fault {s : State} (r : PortReg) (w : Word) (hs : s.phase = .fault) :
    (r = .ctrl ∧ w.getLsbD 0 = true ∧ storeReg s r w = resetBlock s) ∨ KeepsFault s (storeReg s r w) := by
  by_cases hr : r = .ctrl
  · subst hr
    rw [storeReg_ctrl]
    split
    · exact .inl ⟨rfl, ‹_›, rfl⟩
    · exact .inr (keepsFault_refl hs)
  · obtain ⟨hphase, -, herr⟩ := writeReg_phase s r w
    rw [storeReg_idle w (statusBusy_of_not_busy (not_busy_of_fault hs)) hr]
    exact .inr ⟨hphase.trans hs, herr⟩

/-- A write through the port in FAULT: a command word is discarded, and `CTRL` stands at `0x0008` only. -/
theorem portWrite_in_fault {s t : State} {off : Nat} {w : Word} (hs : s.phase = .fault)
    (h : portWrite off w s = .next t) : (IsReset (.write off w) ∧ t = resetBlock s) ∨ KeepsFault s t := by
  cases hreg : regAt off with
  | none => simp [portWrite_none hreg] at h
  | some r =>
    by_cases hcmd : r = .cmd
    · have hdiscard : portWrite off w s = .next s := by
        simpa [portWrite, hreg, hcmd] using writeCmd_not_idle w (s := s) (by simp [hs])
      obtain rfl := Host.Outcome.next.inj (hdiscard.symm.trans h)
      exact .inr (keepsFault_refl hs)
    · obtain rfl := Host.Outcome.next.inj ((portWrite_reg hreg hcmd w s).symm.trans h)
      obtain ⟨rfl, hbit, e⟩ | hkeep := storeReg_in_fault r w hs
      · obtain rfl : 0x0008 = off := (offsetOf_of_regAt hreg (by decide)).2
        exact .inl ⟨.inr ⟨w, hbit, rfl⟩, e⟩
      · exact .inr hkeep

/-- Every act of the host on a block in FAULT. -/
theorem serve_in_fault {s t : State} {act : HostAct} (hs : s.phase = .fault) (h : serve act s = .next t) :
    (IsReset act ∧ t = resetBlock s) ∨ KeepsFault s t := by
  have hbusy := not_busy_of_fault hs
  cases act with
  | write off w => exact portWrite_in_fault hs h
  | read off =>
    cases hreg : regAt off with
    | none => simp [portRead_none hreg] at h
    | some r =>
      obtain rfl := Host.Outcome.next.inj ((portRead_reg hreg s).symm.trans h)
      exact .inr (keepsFault_refl hs)
  | store addr b =>
    rw [serve_store] at h
    unfold hostStore at h
    split at h
    · cases h
    · obtain rfl := Host.Outcome.next.inj h
      exact .inr (keepsFault_refl hs)
  | load addr =>
    rw [serve_load] at h
    unfold hostLoad at h
    split at h
    · cases h
    · obtain rfl := Host.Outcome.next.inj h
      exact .inr (keepsFault_refl hs)
  | hardReset => exact .inl ⟨.inl rfl, (Host.Outcome.next.inj h).symm⟩
  | run =>
    obtain rfl := Host.Outcome.next.inj ((tick_of_not_busy hbusy).symm.trans h)
    exact .inr (keepsFault_refl hs)
  | wait =>
    obtain rfl := Host.Outcome.next.inj ((serve_wait_idle (statusBusy_of_not_busy hbusy)).symm.trans h)
    exact .inr (keepsFault_refl hs)

/-- Settles O42: with nothing pending the block waits, and of the host's acts only a reset leaves FAULT. -/
theorem faultLeftOnlyByReset : Obligations.FaultLeftOnlyByReset := by
  intro s t hs h
  cases hp : s.pending with
  | nil =>
    obtain rfl := Host.Outcome.next.inj ((tick_of_not_busy (not_busy_of_fault hs)).symm.trans (step_nil hp ▸ h))
    exact .inr (keepsFault_refl hs)
  | cons act rest =>
    rw [step_cons hp] at h
    obtain ⟨hact, rfl⟩ | hkeep := serve_in_fault (s := { s with pending := rest }) hs h
    · refine .inl ⟨⟨rest, ?_⟩, rfl, fun _ r _ => readReg_resetBlock _ r⟩
      obtain rfl | ⟨w, hbit, rfl⟩ := hact
      · exact .inl rfl
      · exact .inr ⟨w, hbit, rfl⟩
    · exact .inr hkeep

end Sys2Proof.Machine
end

section
/-! How a command from IDLE ends: completed or faulted (R254), the codes it can raise (R251), and the interrupt line
after it (R260). -/

namespace Sys2Proof.Machine

/-! ### The two ends of a command -/

/-- From IDLE a command completes with its body's result or faults with its body's violation. -/
theorem exec_idle_cases {i : Instr} {s t : State} (hs : s.phase = .idle) (h : exec i s = .next t) :
    (∃ u, bodyOf i s = .ok u ∧ t = complete u) ∨ ∃ v, bodyOf i s = .error v ∧ t = raise (encode i) v s := by
  rw [exec_eq_issue] at h
  obtain rfl := Host.Outcome.next.inj h
  obtain ⟨hne, -⟩ | ⟨-, hcomplete⟩ | ⟨-, hraise⟩ := issue_cases (encode i) (bodyOf i) s
  · contradiction
  · exact .inl hcomplete
  · exact .inr hraise

/-- A command that ends in FAULT ends in the fault entry of its body's violation. -/
theorem exec_faulted {i : Instr} {s t : State} (hs : s.phase = .idle) (h : exec i s = .next t)
    (ht : t.phase = .fault) : ∃ v, bodyOf i s = .error v ∧ t = raise (encode i) v s := by
  obtain ⟨u, -, rfl⟩ | hraise := exec_idle_cases hs h
  · cases ht
  · exact hraise

/-! ### The interrupt line (R260) -/

theorem irq_complete (s : State) : irq (complete s) = s.inten.doneIe := by simp [irq, statusErr]

theorem irq_raise (w : Word) (v : Violation) (s : State) : irq (raise w v s) = s.inten.errIe := by
  simp [irq, statusErr]

/-- Bit 1 of `STATUS` is DONE (R34). -/
theorem statusWord_done (s : State) : (statusWord s).getLsbD 1 = s.done := by
  have hbits : ∀ busy done err, (BitVec.ofNat 32 (bit busy + 2 * bit done + 4 * bit err)).getLsbD 1 = done := by decide
  exact hbits _ _ _

/-- Bit 2 of `STATUS` is ERR (R34). -/
theorem statusWord_err (s : State) : (statusWord s).getLsbD 2 = statusErr s := by
  have hbits : ∀ busy done err, (BitVec.ofNat 32 (bit busy + 2 * bit done + 4 * bit err)).getLsbD 2 = err := by decide
  exact hbits _ _ _

/-- The two bits of `INTEN` (R37). -/
theorem intenWord_bits (e : IntEnable) :
    (intenWord e).getLsbD 0 = e.doneIe ∧ (intenWord e).getLsbD 1 = e.errIe := by
  have hbits : ∀ done err, (BitVec.ofNat 32 (bit done + 2 * bit err)).getLsbD 0 = done ∧
      (BitVec.ofNat 32 (bit done + 2 * bit err)).getLsbD 1 = err := by decide
  exact hbits _ _

/-- Settles O39: the fault entry of the violation, with the command's own word. -/
theorem faultHasNoOtherEffect : Obligations.FaultHasNoOtherEffect := by
  intro i s t hs _ h ht
  obtain ⟨v, -, rfl⟩ := exec_faulted hs h ht
  obtain ⟨hlo, hhi⟩ := errNum_range v.code
  exact ⟨rfl, hlo, hhi, irq_raise _ v s⟩

/-- Settles O45: the words of `STATUS` and `INTEN` hold the four bits, and a command keeps `INTEN` at both its ends. -/
theorem interruptFollowsOutcome : Obligations.InterruptFollowsOutcome := by
  refine ⟨fun s => ?_, fun i s t hs h => ?_⟩
  · obtain ⟨hdoneIe, herrIe⟩ := intenWord_bits s.inten
    simp only [readReg, statusWord_done, statusWord_err, hdoneIe, herrIe, irq]
  · obtain ⟨u, hu, rfl⟩ | ⟨v, -, rfl⟩ := exec_idle_cases hs h
    · have hinten : u.inten = s.inten := by rw [(body_frame hu).1]
      exact .inl ⟨rfl, rfl, (irq_complete u).trans (congrArg IntEnable.doneIe hinten)⟩
    · exact .inr ⟨rfl, rfl, irq_raise _ v s⟩

/-! ### The codes of the prechecks (R251) -/

theorem decBody_error {s : State} {v : Violation} (h : decBody s = .error v) : v = plainErr .badFormat := by
  unfold decBody at h
  split at h
  · exact (Except.error.inj h).symm
  · cases h

theorem encBody_error {s : State} {v : Violation} (h : encBody s = .error v) : v = plainErr .badFormat := by
  unfold encBody at h
  split at h
  · exact (Except.error.inj h).symm
  · cases h

/-- VOL has neither inputs to match nor an input count, and no check of it is for an illegal word. -/
theorem volCheck_error_code {s : State} {v : Violation} (h : volCheck s = .error v) :
    v.code ≠ .badCmd ∧ v.code ≠ .specMismatch ∧ v.code ≠ .badCount := by
  unfold volCheck at h
  repeat' split at h
  all_goals cases h
  all_goals exact ⟨nofun, nofun, nofun⟩

/-- No check of an input is for an illegal word. -/
theorem inputCheck_some_code {f : Fmt} {s : State} {i : Nat} {v : Violation} (h : inputCheck f s i = some v) :
    v.code ≠ .badCmd := by
  simp only [inputCheck] at h
  repeat' split at h
  all_goals cases h
  all_goals exact nofun

theorem inputsCheck_some_code {f : Fmt} {s : State} {nin : Nat} {v : Violation} (h : inputsCheck f s nin = some v) :
    v.code ≠ .badCmd := by
  obtain ⟨i, -, hi⟩ := List.exists_of_findSome?_eq_some h
  exact inputCheck_some_code hi

/-- No check of MIX is for an illegal word; past the destination's the violation is an input's. -/
theorem mixCheck_error_code {nin : Nat} {s : State} {v : Violation} (h : mixCheck nin s = .error v) :
    v.code ≠ .badCmd := by
  have hplain : ∀ c, c ≠ .badCmd → Except.error (plainErr c) = (.error v : Except Violation Fmt) → v.code ≠ .badCmd := by
    rintro c hc ⟨⟩
    exact hc
  unfold mixCheck at h
  split at h
  · exact hplain .badCount nofun h
  split at h
  · exact hplain .badFormat nofun h
  split at h
  · exact hplain .badSpec nofun h
  split at h
  · exact hplain .badLength nofun h
  split at h
  · exact hplain .addrWrap nofun h
  split at h
  · exact hplain .notExcl nofun h
  split at h
  next hinputs =>
    obtain rfl := Except.error.inj h
    exact inputsCheck_some_code hinputs
  next => cases h

/-- Every cause but an illegal word has a code from 2 on. -/
theorem two_le_errNum {c : ErrCode} (h : c ≠ .badCmd) : 2 ≤ (errNum c).toNat := by
  cases c with
  | badCmd => contradiction
  | _ => decide

/-- The codes left to VOL. -/
theorem errNum_of_vol_cause {c : ErrCode} (hcmd : c ≠ .badCmd) (hspec : c ≠ .specMismatch) (hcount : c ≠ .badCount) :
    errNum c = 2 ∨ errNum c = 3 ∨ errNum c = 4 ∨ errNum c = 5 ∨ errNum c = 7 ∨ errNum c = 8 ∨ errNum c = 10 := by
  cases c with
  | badCmd | specMismatch | badCount => contradiction
  | _ => decide

theorem volBody_error {s : State} {v : Violation} (h : volBody s = .error v) : volCheck s = .error v := by
  unfold volBody at h
  split at h
  next hcheck => exact Except.error.inj h ▸ hcheck
  next => cases h

theorem mixBody_error {nin : Nat} {s : State} {v : Violation} (h : mixBody nin s = .error v) :
    mixCheck nin s = .error v := by
  unfold mixBody at h
  split at h
  next hcheck => exact Except.error.inj h ▸ hcheck
  next => cases h

/-- Settles O40: a command raises what its prechecks report. -/
theorem faultCodesByCommand : Obligations.FaultCodesByCommand := by
  intro s t hs ht
  refine ⟨fun h => ?_, fun h => ?_, fun h => ?_, fun nin h => ?_⟩
  · obtain ⟨v, hb, rfl⟩ := exec_faulted hs h ht
    obtain rfl := decBody_error hb
    rfl
  · obtain ⟨v, hb, rfl⟩ := exec_faulted hs h ht
    obtain rfl := encBody_error hb
    rfl
  · obtain ⟨v, hb, rfl⟩ := exec_faulted hs h ht
    obtain ⟨hcmd, hspec, hcount⟩ := volCheck_error_code (volBody_error hb)
    exact errNum_of_vol_cause hcmd hspec hcount
  · obtain ⟨v, hb, rfl⟩ := exec_faulted hs h ht
    exact ⟨two_le_errNum (mixCheck_error_code (mixBody_error hb)), (errNum_range v.code).2⟩

end Sys2Proof.Machine
end

section
/-! A block that is not busy waits and leaves sample memory to the host; a busy one ticks (R76, R256, R264). -/

namespace Sys2Proof.Machine

/-- Outside BUSY no chunk is guarded (R294). -/
theorem not_guarded_of_not_busy {s : State} (a : Nat) (h : ∀ job, s.phase ≠ .busy job) :
    writeGuarded s a = false ∧ readGuarded s a = false := by
  cases hp : s.phase with
  | busy job => exact absurd hp (h job)
  | idle | fault => simp [writeGuarded, readGuarded, hp]

theorem step_run {s : State} {rest : List HostAct} (h : s.pending = .run :: rest) :
    step s = tick { s with pending := rest } := by rw [step_cons h, serve_run]

/-- Settles O46: a tick outside BUSY waits, and no chunk is guarded there. -/
theorem idleBlockWaitsBusyBlockTicks : Obligations.IdleBlockWaitsBusyBlockTicks := by
  intro s addr b rest
  refine ⟨fun hbusy => ?_, fun _ _ => ⟨step_nil, step_run⟩⟩
  obtain ⟨hstore, hload⟩ := not_guarded_of_not_busy addr.toNat hbusy
  refine ⟨fun h => ?_, fun h => ?_, fun h => ?_, fun h => ?_⟩
  · exact (step_nil h).trans (tick_of_not_busy hbusy)
  · exact (step_run h).trans (tick_of_not_busy (s := { s with pending := rest }) hbusy)
  · exact (step_store h).trans (if_neg (by simp [hstore]))
  · exact (step_load h).trans (if_neg (by simp [hload]))

end Sys2Proof.Machine
end

section
/-! The register port beside a running command (R296, R36, R291): which writes are discarded, and the word each register
reads as over the fields of the state (R21, R34 to R39). -/

namespace Sys2Proof.Machine

/-! ### Writes while BUSY and reads in every STATE -/

/-- A register at an offset other than `0x0008` is not `CTRL`. -/
theorem ne_ctrl_of_regAt {off : Nat} {r : PortReg} (h : regAt off = some r) (hoff : off ≠ 0x0008) : r ≠ .ctrl := by
  rintro rfl
  exact hoff (offsetOf_of_regAt h (by decide)).2.symm

/-- While BUSY a write to any register but `CTRL` is discarded, a command word among them (R35, R296). -/
theorem step_write_busy {s : State} {job : Job} {off : Nat} {r : PortReg} {w : Word} {rest : List HostAct}
    (hp : s.phase = .busy job) (h : s.pending = .write off w :: rest) (hreg : regAt off = some r) (hctrl : r ≠ .ctrl) :
    step s = .next { s with pending := rest } := by
  by_cases hcmd : r = .cmd
  · rw [step_cons h, serve_write, portWrite, hreg, hcmd]
    exact writeCmd_not_idle w (by simp [hp])
  · have hbusy : statusBusy { s with pending := rest } = true := statusBusy_of_busy hp
    rw [step_write_reg h hreg hcmd, storeReg_busy w hbusy hctrl]

/-- A `CTRL` write resets the block exactly when its bit 0 is set, in every STATE (R36, R291). -/
theorem step_write_ctrl {s : State} {w : Word} {rest : List HostAct} (h : s.pending = .write 0x0008 w :: rest) :
    step s = .next (if w.getLsbD 0 then resetBlock { s with pending := rest } else { s with pending := rest }) := by
  rw [step_write_reg (r := .ctrl) h rfl (by decide), storeReg_ctrl]

theorem step_read_reg {s : State} {off : Nat} {r : PortReg} {rest : List HostAct} (h : s.pending = .read off :: rest)
    (hreg : regAt off = some r) : step s = .next { s with pending := rest, rdata := readReg s r } := by
  rw [step_cons h, serve_read, portRead_reg hreg, readReg_pending]

/-! ### Words and their fields -/

theorem statusWord_toNat (s : State) :
    (statusWord s).toNat = bit (statusBusy s) + 2 * bit s.done + 4 * bit (statusErr s) := by
  have hword : ∀ busy done err, (BitVec.ofNat 32 (bit busy + 2 * bit done + 4 * bit err)).toNat =
      bit busy + 2 * bit done + 4 * bit err := by decide
  exact hword _ _ _

/-- `BUSY` and `ERR` are the STATE (R34, R40). -/
theorem statusWord_by_phase (s : State) :
    (statusWord s).toNat =
      (match s.phase with
        | .idle => 0
        | .busy _ => 1
        | .fault => 4) + (if s.done then 2 else 0) := by
  rw [statusWord_toNat]
  cases hp : s.phase <;> cases s.done <;> simp [statusBusy, statusErr, hp, bit]

theorem errInfoWord_toNat (e : ErrInfo) :
    (errInfoWord e).toNat = e.ch.toNat + 2 ^ 8 * e.idx.toNat + (if e.inp then 2 ^ 16 else 0) := by
  have hch := e.ch.isLt
  have hidx := e.idx.isLt
  rw [errInfoWord, BitVec.toNat_ofNat]
  cases e.inp <;> simp [bit] <;> omega

theorem intenWord_toNat (e : IntEnable) :
    (intenWord e).toNat = (if e.doneIe then 1 else 0) + (if e.errIe then 2 else 0) := by
  have hword : ∀ done err, (BitVec.ofNat 32 (bit done + 2 * bit err)).toNat =
      (if done then 1 else 0) + (if err then 2 else 0) := by decide
  exact hword _ _

theorem specWord_toNat (sp : SpecReg) : (specWord sp).toNat = sp.format.toNat + 2 ^ 8 * sp.channels.toNat := by
  have hformat := sp.format.isLt
  have hchannels := sp.channels.isLt
  rw [specWord, BitVec.toNat_ofNat]
  omega

theorem bitWord_toNat (b : Bool) : (BitVec.ofNat 32 (bit b)).toNat = if b then 1 else 0 := by cases b <;> rfl

theorem gainAt_of_lt (v : Vector Word 32) {c : Nat} (h : c < 32) : gainAt v c = v[c] := dif_pos h

theorem inputAt_of_lt (ins : Vector MixInput 32) {i : Nat} (h : i < 32) : inputAt ins i = ins[i] := dif_pos h

/-- The word of each register of a mix input, by its fields (R30 to R32). -/
theorem readReg_input (s : State) {i : Nat} (h : i < 32) (b : BankReg) :
    readReg s (.input i b) = readBank s.inputs[i] b := by rw [← inputAt_of_lt s.inputs h, readReg]

/-- Settles O51: while BUSY `CTRL` alone takes a write, and each register's word is the sum of its fields. -/
theorem busyDiscardsWrites : Obligations.BusyDiscardsWrites := by
  refine ⟨fun s off r w rest hreg => ⟨fun job hp h => ⟨fun hoff => ?_, ?_, ?_⟩, fun h => step_read_reg h hreg⟩,
    fun s => ?_⟩
  · exact step_write_busy hp h hreg (ne_ctrl_of_regAt hreg hoff)
  · rintro rfl hw
    rw [step_write_ctrl h, hw]
    rfl
  · rintro rfl hw
    rw [step_write_ctrl h, if_pos hw]
  · refine ⟨statusWord_by_phase s, BitVec.toNat_setWidth_of_le (by decide), errInfoWord_toNat _, rfl, rfl, rfl, rfl,
      intenWord_toNat _, rfl, rfl, rfl, specWord_toNat _, rfl, rfl, rfl, bitWord_toNat _,
      BitVec.toNat_setWidth_of_le (by decide), fun c h => gainAt_of_lt s.vol h, fun i h => ?_⟩
    simp only [readReg_input s h]
    exact ⟨rfl, rfl, rfl, specWord_toNat _, rfl, BitVec.toNat_setWidth_of_le (by decide), fun c h' => gainAt_of_lt _ h'⟩

end Sys2Proof.Machine
end

section
/-! A command accepted in IDLE and left to run one byte access at a time (R70, R71, R299): where it stands after any
number of ticks, that it reaches what `exec` gives, and what an abandoned one leaves in memory (R290, R291, U8). -/

namespace Sys2Proof.Machine

/-! ### The decode tick -/

theorem tick_accept (w : Word) (s : State) : tick (accept w s) = .next (tickAccepted (accept w s) w) := rfl

/-- Fault entry overwrites what acceptance changed (R254). -/
theorem raise_accept (w : Word) (v : Violation) (s : State) : raise w v (accept w s) = raise w v s := rfl

/-- DEC does not look at what acceptance changed. -/
theorem decBody_accept (w : Word) (s : State) : decBody (accept w s) = (decBody s).map (accept w) := by
  unfold decBody
  rw [accept_spec]
  split <;> rfl

/-- ENC does not look at what acceptance changed. -/
theorem encBody_accept (w : Word) (s : State) : encBody (accept w s) = (encBody s).map (accept w) := by
  unfold encBody
  rw [accept_spec]
  split <;> rfl

section
variable {w : Word} {s t : State} {v : Violation}

/-- A failing check faults in the decode tick. -/
theorem tick_accept_of_body_error {i : Instr} (hd : decode w = .ok i) (hb : bodyOf i s = .error v) :
    tick (accept w s) = .next (raise w v s) := by
  rw [tick_accept, ← raise_accept]
  cases i with
  | dec =>
    rw [bodyOf] at hb
    simp [tickAccepted, hd, decBody_accept, hb, Except.map]
  | enc =>
    rw [bodyOf] at hb
    simp [tickAccepted, hd, encBody_accept, hb, Except.map]
  | vol =>
    have hcheck : volCheck (accept w s) = .error v := volBody_error (s := s) hb
    simp [tickAccepted, hd, hcheck]
  | mix nin =>
    have hcheck : mixCheck nin (accept w s) = .error v := mixBody_error (s := s) hb
    simp [tickAccepted, hd, hcheck]

/-- DEC and ENC complete in the decode tick. -/
theorem tick_accept_of_dec_or_enc {i : Instr} (hi : i = .dec ∨ i = .enc) (hd : decode w = .ok i)
    (hb : bodyOf i s = .ok t) : tick (accept w s) = .next (complete t) := by
  rw [tick_accept]
  obtain rfl | rfl := hi
  · rw [bodyOf] at hb
    simp only [tickAccepted, hd, decBody_accept, hb]
    rfl
  · rw [bodyOf] at hb
    simp only [tickAccepted, hd, encBody_accept, hb]
    rfl

end

/-! ### The ticks after it -/

theorem one_le_tickBound (s : State) (i : Instr) : 1 ≤ tickBound s i := by
  unfold tickBound
  cases formatOf s.spec with
  | none => exact le_rfl
  | some f => cases i <;> dsimp only <;> omega

/-- A block that is not busy stays as it is. -/
theorem tickN_of_not_busy {s : State} (h : ∀ job, s.phase ≠ .busy job) (n : Nat) : tickN n s = .next s := by
  cases hp : s.phase with
  | busy job => exact absurd hp (h job)
  | idle => exact tickN_idle hp n
  | fault => exact tickN_fault hp n

/-- A command that ends in its decode tick. -/
theorem tickN_accept_of_ended {w : Word} {s t : State} {n : Nat} (h : tick (accept w s) = .next t)
    (ht : ∀ job, t.phase ≠ .busy job) (hn : 1 ≤ n) : tickN n (accept w s) = .next t := by
  obtain ⟨n, rfl⟩ := Nat.exists_eq_add_of_le' hn
  rw [tickN_succ n h, tickN_of_not_busy ht]

/-- After any number of ticks an accepted command is not decoded yet or stands at one of its places `At`; after `bound`
ticks it stands at the end. -/
def RunsThrough (w : Word) (s : State) (At : State → Prop) (bound : Nat) (last : State) : Prop :=
  ∀ n, ∃ t, tickN n (accept w s) = .next t ∧ (t = accept w s ∨ At t) ∧ (bound ≤ n → t = last)

/-- From the place `t` where the decode tick leaves a command, with at most `left` ticks to go. -/
theorem runsThrough_of_started {w : Word} {s t last : State} {At : State → Prop} {left : Nat}
    (hstart : tick (accept w s) = .next t)
    (hrun : ∀ n, ∃ t', tickN n t = .next t' ∧ At t' ∧ (left ≤ n → t'.phase = .idle))
    (hlast : ∀ t', At t' → t'.phase = .idle → t' = last) : RunsThrough w s At (left + 1) last := by
  intro n
  cases n with
  | zero => exact ⟨_, tickN_zero _, .inl rfl, fun h => absurd h (by omega)⟩
  | succ n =>
    obtain ⟨t', ht', hat, hidle⟩ := hrun n
    exact ⟨t', (tickN_succ n hstart).trans ht', .inr hat, fun h => hlast t' hat (hidle (by omega))⟩

/-- The decode tick of a VOL that passes its prechecks leaves it before the first sample. -/
theorem tick_accept_vol {w : Word} {f : Fmt} {s : State} (hd : decode w = .ok .vol) (hc : volCheck s = .ok f) :
    ∃ t, tick (accept w s) = .next t ∧ VolAt f s t ∧ tickBound s .vol = volLeft f s t + 1 := by
  have hcheck : volCheck (accept w s) = .ok f := hc
  obtain ⟨hfmt, -⟩ := (volCheck_eq_ok_iff s f).mp hc
  refine ⟨_, ?_, VolAt.reading 0 0 (Nat.zero_le _) (Nat.zero_le _), ?_⟩
  · simp only [tick_accept, tickAccepted, hd, hcheck]
    rfl
  · simp only [tickBound, volLeft, hfmt, runAt_phase, ite_self, Nat.sub_zero]
    omega

/-- The decode tick of a MIX that passes its prechecks leaves it before the first input of the first sample. -/
theorem tick_accept_mix {w : Word} {f : Fmt} {nin : Nat} {s : State} (hd : decode w = .ok (.mix nin))
    (hc : mixCheck nin s = .ok f) :
    ∃ t, tick (accept w s) = .next t ∧ MixAt f nin s t ∧ tickBound s (.mix nin) = mixLeft f nin s t + 1 := by
  have hcheck : mixCheck nin (accept w s) = .ok f := hc
  obtain ⟨-, hfmt, -⟩ := (mixCheck_eq_ok_iff nin s f).mp hc
  refine ⟨_, ?_, MixAt.reading 0 0 0 (Nat.zero_le _) (Nat.zero_le _) (Nat.zero_le _) (fun h => absurd h (by decide)), ?_⟩
  · simp only [tick_accept, tickAccepted, hd, hcheck]
    rfl
  · simp only [tickBound, mixLeft, hfmt, runAt_phase, Nat.zero_mul, Nat.zero_add, ite_self, Nat.sub_zero]
    omega

/-- A VOL past its prechecks, from its acceptance on. -/
theorem vol_runsThrough {w : Word} {f : Fmt} {s : State} (hd : decode w = .ok .vol) (hc : volCheck s = .ok f) :
    RunsThrough w s (VolAt f s) (tickBound s .vol) (complete { s with mem := volMem f s (sampleCount f s.dst) }) := by
  obtain ⟨-, -, -, -, -, hw, -⟩ := (volCheck_eq_ok_iff s f).mp hc
  obtain ⟨t, hstart, hplace, hbound⟩ := tick_accept_vol hd hc
  rw [hbound]
  exact runsThrough_of_started hstart (fun n => volAt_tickN hw n hplace) fun _ => volAt_idle

/-- A MIX past its prechecks, from its acceptance on. -/
theorem mix_runsThrough {w : Word} {f : Fmt} {nin : Nat} {s : State} (hd : decode w = .ok (.mix nin))
    (hc : mixCheck nin s = .ok f) :
    RunsThrough w s (MixAt f nin s) (tickBound s (.mix nin))
      (complete { s with mem := mixMem f nin s (sampleCount f s.dst) }) := by
  obtain ⟨-, -, -, -, hw, -, hinputs⟩ := (mixCheck_eq_ok_iff nin s f).mp hc
  have hwi : ∀ i < nin, addrWraps (inputAt s.inputs i).chunk = false := fun i hi => by
    obtain ⟨-, -, -, -, -, h⟩ := (inputCheck_eq_none_iff f s i).mp (hinputs i hi)
    exact h
  obtain ⟨t, hstart, hplace, hbound⟩ := tick_accept_mix hd hc
  rw [hbound]
  exact runsThrough_of_started hstart (fun n => mixAt_tickN hw hwi n hplace) fun _ => mixAt_idle

/-! ### The end: what `exec` gives -/

/-- Past the bound a command that runs through its places is at its end. -/
theorem tickN_of_runsThrough {w : Word} {s last : State} {At : State → Prop} {bound n : Nat}
    (h : RunsThrough w s At bound last) (hn : bound ≤ n) : tickN n (accept w s) = .next last := by
  obtain ⟨t, ht, -, hlast⟩ := h n
  rw [ht, hlast hn]

/-- A command whose body succeeds completes with the body's result. -/
theorem tickN_accept_of_body_ok {w : Word} {i : Instr} {s t : State} {n : Nat} (hd : decode w = .ok i)
    (hb : bodyOf i s = .ok t) (hn : tickBound s i ≤ n) : tickN n (accept w s) = .next (complete t) := by
  have hone : 1 ≤ n := (one_le_tickBound s i).trans hn
  obtain ⟨f, rfl, -, -⟩ | ⟨f, rfl, -, -⟩ | ⟨f, rfl, hc, rfl⟩ | ⟨f, nin, rfl, hc, rfl⟩ := body_cases hb
  · exact tickN_accept_of_ended (tick_accept_of_dec_or_enc (.inl rfl) hd hb) (by simp) hone
  · exact tickN_accept_of_ended (tick_accept_of_dec_or_enc (.inr rfl) hd hb) (by simp) hone
  · exact tickN_of_runsThrough (vol_runsThrough hd hc) hn
  · exact tickN_of_runsThrough (mix_runsThrough hd hc) hn

/-- Settles O53: a failing check faults in the decode tick; otherwise the command runs through its places to the end of
its body. -/
theorem stepwiseEqualsAtOnce : Obligations.StepwiseEqualsAtOnce := by
  intro s w i n hs hd hn
  rw [exec_eq_issue]
  cases hb : bodyOf i s with
  | error v =>
    obtain ⟨-, rfl⟩ := (decodeInvertsEncode w i).mp hd
    rw [issue_idle_error hs hb]
    exact tickN_accept_of_ended (tick_accept_of_body_error hd hb) (by simp) ((one_le_tickBound s i).trans hn)
  | ok t =>
    rw [issue_idle_ok hs hb]
    exact tickN_accept_of_body_ok hd hb hn

/-! ### An abandoned command -/

/-- Byte by byte, `m` is `final` below byte `j` of sample `k` of the destination and `start` from there on. -/
def PrefixAt (f : Fmt) (c : Chunk) (start final m : List Host.Cell) (k j : Nat) : Prop :=
  (∀ a, a < sampleAddr f c k + j → readByte m a = readByte final a) ∧
  (∀ a, sampleAddr f c k + j ≤ a → readByte m a = readByte start a)

/-- Between two samples, in the middle of writing the bytes `out` of sample `k`. -/
theorem prefixAt_of_take {f : Fmt} {c : Chunk} {start final m : List Host.Cell} {k : Nat} (j : Nat) {out : List Byte}
    (hlen : out.length = fmtWidth f) (hj : j ≤ fmtWidth f) (hbefore : PrefixAt f c start final m k 0)
    (hafter : PrefixAt f c start final (memWrite m (sampleAddr f c k) out) (k + 1) 0) :
    PrefixAt f c start final (memWrite m (sampleAddr f c k) (out.take j)) k j := by
  obtain ⟨-, hold⟩ := hbefore
  obtain ⟨hnew, -⟩ := hafter
  have htake : (out.take j).length = j := List.length_take_of_le (by omega)
  have hsplit : memWrite m (sampleAddr f c k) out =
      memWrite (memWrite m (sampleAddr f c k) (out.take j)) (sampleAddr f c k + j) (out.drop j) := by
    rw [← List.take_append_drop j out, memWrite_append, List.take_append_drop, htake]
  rw [sampleAddr_succ] at hnew
  refine ⟨fun a ha => ?_, fun a ha => ?_⟩
  · rw [← hnew a (by omega), hsplit, readByte_memWrite_outside _ _ (.inl ha)]
  · rw [readByte_memWrite_outside _ _ (.inr (by omega)), hold a (by omega)]

/-- What VOL has left below sample `n` stays to its end. -/
theorem readByte_volMem_final (f : Fmt) (s : State) {a n : Nat} (h : a < sampleAddr f s.dst n)
    (hn : n ≤ sampleCount f s.dst) :
    readByte (volMem f s n) a = readByte (volMem f s (sampleCount f s.dst)) a := by
  obtain ⟨d, hd⟩ := Nat.exists_eq_add_of_le hn
  rw [hd, readByte_volMem_stable f s h d]

theorem prefixAt_volMem {f : Fmt} {s : State} {k : Nat} (hk : k ≤ sampleCount f s.dst) :
    PrefixAt f s.dst s.mem (volMem f s (sampleCount f s.dst)) (volMem f s k) k 0 :=
  ⟨fun _ ha => readByte_volMem_final f s ha hk, fun _ ha => readByte_volMem_above f s k ha⟩

theorem prefixAt_mixMem {f : Fmt} {nin : Nat} {s : State} {k : Nat} (hk : k ≤ sampleCount f s.dst) :
    PrefixAt f s.dst s.mem (mixMem f nin s (sampleCount f s.dst)) (mixMem f nin s k) k 0 :=
  ⟨fun _ ha => readByte_mixMem_final f nin s ha hk, fun _ ha => readByte_mixMem_above f nin s k ha⟩

/-- Memory at any place of a VOL. -/
theorem prefixAt_of_volAt {f : Fmt} {s t : State} (h : VolAt f s t) :
    ∃ k j, j ≤ fmtWidth f ∧ PrefixAt f s.dst s.mem (volMem f s (sampleCount f s.dst)) t.mem k j := by
  cases h with
  | reading k j hk hj => exact ⟨k, 0, Nat.zero_le _, prefixAt_volMem hk⟩
  | writing k j hk hj hg =>
    have hafter := prefixAt_volMem (f := f) (s := s) (k := k + 1) hk
    rw [volMem_succ_write hg] at hafter
    exact ⟨k, j, hj, prefixAt_of_take j (volOut_length f s k) hj (prefixAt_volMem hk.le) hafter⟩
  | done => exact ⟨sampleCount f s.dst, 0, Nat.zero_le _, prefixAt_volMem le_rfl⟩

/-- Memory at any place of a MIX. -/
theorem prefixAt_of_mixAt {f : Fmt} {nin : Nat} {s t : State} (h : MixAt f nin s t) :
    ∃ k j, j ≤ fmtWidth f ∧ PrefixAt f s.dst s.mem (mixMem f nin s (sampleCount f s.dst)) t.mem k j := by
  cases h with
  | reading k i j hk hi hj hr => exact ⟨k, 0, Nat.zero_le _, prefixAt_mixMem hk⟩
  | writing k j hk hj =>
    exact ⟨k, j, hj, prefixAt_of_take j (mixBytes_length f nin s k) hj (prefixAt_mixMem hk.le)
      (prefixAt_mixMem (nin := nin) (k := k + 1) hk)⟩
  | done => exact ⟨sampleCount f s.dst, 0, Nat.zero_le _, prefixAt_mixMem le_rfl⟩

/-- What holds of memory before the decode and at each place of a command holds after any number of ticks; a reset
changes no byte (R292). -/
theorem leavesPrefix_of_runsThrough {f : Fmt} {w : Word} {s t last : State} {At : State → Prop} {bound n : Nat}
    {final : List Host.Cell} (hrun : RunsThrough w s At bound last)
    (hat : ∀ u, At u → ∃ k j, j ≤ fmtWidth f ∧ PrefixAt f s.dst s.mem final u.mem k j)
    (hzero : PrefixAt f s.dst s.mem final s.mem 0 0) (ht : tickN n (accept w s) = .next t) :
    ∃ k j, j ≤ fmtWidth f ∧
      (∀ a, a < sampleAddr f s.dst k + j → readByte t.mem a = readByte final a) ∧
      (∀ a, sampleAddr f s.dst k + j ≤ a → readByte t.mem a = readByte s.mem a) ∧
      (resetBlock t).mem = t.mem := by
  obtain ⟨u, hu, hplace, -⟩ := hrun n
  obtain rfl : u = t := Host.Outcome.next.inj (hu.symm.trans ht)
  have hprefix : ∃ k j, j ≤ fmtWidth f ∧ PrefixAt f s.dst s.mem final u.mem k j := by
    obtain rfl | hu := hplace
    · exact ⟨0, 0, Nat.zero_le _, hzero⟩
    · exact hat u hu
  obtain ⟨k, j, hj, hbelow, habove⟩ := hprefix
  exact ⟨k, j, hj, hbelow, habove, resetBlock_mem u⟩

/-- Settles O55: at each of their places VOL and MIX have left whole samples and part of the next. -/
theorem abandonedCommandLeavesPrefix : Obligations.AbandonedCommandLeavesPrefix := by
  intro s t f n _ _
  refine ⟨fun hok ht => ?_, fun nin hok ht => ?_⟩
  · have hd : decode 3 = .ok .vol := decode_encode (i := .vol) trivial
    exact leavesPrefix_of_runsThrough (vol_runsThrough hd (volCheck_of_volOk hok)) (fun _ => prefixAt_of_volAt)
      (prefixAt_volMem (Nat.zero_le _)) ht
  · have hcheck := mixCheck_of_mixOk hok
    obtain ⟨⟨hnin, -⟩, -⟩ := hok
    have hwf : (Instr.mix nin).WellFormed := (wellFormed_iff_ninNum_lt _).mpr (Nat.lt_of_le_of_lt hnin (by decide))
    exact leavesPrefix_of_runsThrough (mix_runsThrough (decode_encode hwf) hcheck) (fun _ => prefixAt_of_mixAt)
      (prefixAt_mixMem (Nat.zero_le _)) ht

end Sys2Proof.Machine
end
